-- ==== Sys2Proof/Word.lean ====
section
/-! DEFINITION. The unit types of the TSCU: a byte (spec 00_scope R8), a 32-bit host-visible word (R6, XLEN)
and a pixel, which is "always a byte sequence, never a number" (R10). -/

namespace Sys2Proof

/-- A byte: 8 bits, unsigned (R8). -/
abbrev Byte := BitVec 8

/-- A host-visible register or command word: 32 bits (R6, R21, R70). -/
abbrev Word := BitVec 32

/-- A pixel: its bytes in stream order (R10, R13, R55). -/
abbrev Pixel := List Byte

end Sys2Proof
end

