-- ==== Sys2Proof/Syntax.lean ====
section
/-! DEFINITION. The instructions: one constructor per row of spec/opcode_table.json. The eight commands of format
CMD32 carry the raw fields PB and N of the word (spec 30_encoding R71 to R74), legal or not: R87 lets the command
itself check them. The two packet headers of format PKT8 carry C (R80). -/

namespace Sys2Proof

/-- The instruction set (R76, R80). -/
inductive Instr where
  /-- LE16_UNPACK: read one little-endian 16-bit field from IN (R103). -/
  | le16Unpack (pb : BitVec 3) (n : BitVec 24)
  /-- LE16_PACK: write N[15:0] to OUT as a little-endian field (R104). -/
  | le16Pack (pb : BitVec 3) (n : BitVec 24)
  /-- RAW_RD: copy one uncompressed scanline from IN to LB (R121). -/
  | rawRd (pb : BitVec 3) (n : BitVec 24)
  /-- RAW_WR: copy one uncompressed scanline from LB to OUT (R122). -/
  | rawWr (pb : BitVec 3) (n : BitVec 24)
  /-- SWAP: exchange bytes 0 and 2 of every PB-byte group of an LB region (R124). -/
  | swap (pb : BitVec 3) (n : BitVec 24)
  /-- EXPAND: unpack 2-byte 5-5-5 entries in LB into 3-byte pixels (R127). -/
  | expand (pb : BitVec 3) (n : BitVec 24)
  /-- RLE_DEC: decode one RLE scanline from IN into LB (R151). -/
  | rleDec (pb : BitVec 3) (n : BitVec 24)
  /-- RLE_ENC: encode one scanline from LB into packets on OUT (R180). -/
  | rleEnc (pb : BitVec 3) (n : BitVec 24)
  /-- PKT_REPEAT: a packet header with T = 1, a run of C + 1 copies of one sample pixel (R81). -/
  | pktRepeat (c : BitVec 7)
  /-- PKT_DIRECT: a packet header with T = 0, a run of C + 1 literal pixels (R82). -/
  | pktDirect (c : BitVec 7)
deriving DecidableEq, Repr

end Sys2Proof
end

