-- ==== Sys2Proof/Decode.lean ====
section
/-! DEFINITION. Decoding of command words (format CMD32, spec 30_encoding R70 to R79) and of packet header bytes
(format PKT8, R80 to R83), and the encoder written from the same tables. A command word is written to CMD whole, so
it has no byte order (R55); a packet header is one byte. -/

namespace Sys2Proof

/-- What holds one instruction: a 32-bit command word or a packet header byte. -/
inductive Encoded where
  | cmd32 (v : Word)
  | pkt8 (h : Byte)
deriving DecidableEq, Repr

/-- Why a command word is no instruction, in the order of the checks of R87. -/
inductive Reject where
  /-- A reserved OP: 0x0 or 0x9 to 0xF (R78). -/
  | reservedOp (op : BitVec 4)
  /-- RSV = 1 (R75). -/
  | reservedBit
deriving DecidableEq, Repr

/-- OP, bits 3:0 (R72). -/
def fieldOp (v : Word) : BitVec 4 := v.extractLsb' 0 4

/-- PB, bits 6:4 (R73). -/
def fieldPb (v : Word) : BitVec 3 := v.extractLsb' 4 3

/-- RSV, bit 7 (R75). -/
def fieldRsv (v : Word) : Bool := v.getLsbD 7

/-- N, bits 31:8 (R74). -/
def fieldN (v : Word) : BitVec 24 := v.extractLsb' 8 24

/-- The word with the given fields (R71). -/
def packFields (op : BitVec 4) (pb : BitVec 3) (rsv : Bool) (n : BitVec 24) : Word :=
  ((n ++ BitVec.ofBool rsv) ++ pb) ++ op

/-- The instruction an operation code selects, with its raw operands (R76); none for a reserved OP (R78). -/
def opTable (op : BitVec 4) (pb : BitVec 3) (n : BitVec 24) : Option Instr :=
  match op.toNat with
  | 1 => some (.le16Unpack pb n)
  | 2 => some (.le16Pack pb n)
  | 3 => some (.rawRd pb n)
  | 4 => some (.rawWr pb n)
  | 5 => some (.swap pb n)
  | 6 => some (.expand pb n)
  | 7 => some (.rleDec pb n)
  | 8 => some (.rleEnc pb n)
  | _ => none

/-- Decode a command word: total on all 2^32 words (R79), the reserved OP first, then RSV (R87, R216). PB and N
are operands, which the command checks when it runs (R87; log 29). -/
def decodeCommand (v : Word) : Except Reject Instr :=
  match opTable (fieldOp v) (fieldPb v) (fieldN v) with
  | none => .error (.reservedOp (fieldOp v))
  | some i => if fieldRsv v then .error .reservedBit else .ok i

/-- Decode a packet header: bit 7 is T, bits 6:0 are C (R80). Every byte is a header (R83). -/
def decodeHeader (h : Byte) : Instr :=
  if h.getLsbD 7 then .pktRepeat (h.extractLsb' 0 7) else .pktDirect (h.extractLsb' 0 7)

/-- Decode either format. -/
def decode : Encoded → Except Reject Instr
  | .cmd32 v => decodeCommand v
  | .pkt8 h => .ok (decodeHeader h)

/-- The packet header byte with type T and count field C (R80). -/
def packHeader (t : Bool) (c : BitVec 7) : Byte := BitVec.ofBool t ++ c

/-- The encoding of an instruction (R71, R76, R80). -/
def encode : Instr → Encoded
  | .le16Unpack pb n => .cmd32 (packFields 0x1 pb false n)
  | .le16Pack pb n => .cmd32 (packFields 0x2 pb false n)
  | .rawRd pb n => .cmd32 (packFields 0x3 pb false n)
  | .rawWr pb n => .cmd32 (packFields 0x4 pb false n)
  | .swap pb n => .cmd32 (packFields 0x5 pb false n)
  | .expand pb n => .cmd32 (packFields 0x6 pb false n)
  | .rleDec pb n => .cmd32 (packFields 0x7 pb false n)
  | .rleEnc pb n => .cmd32 (packFields 0x8 pb false n)
  | .pktRepeat c => .pkt8 (packHeader true c)
  | .pktDirect c => .pkt8 (packHeader false c)

/-- The bits of an encoding as a number, numbered as spec/opcode_table.json numbers them. -/
def Encoded.bits : Encoded → Nat
  | .cmd32 v => v.toNat
  | .pkt8 h => h.toNat

/-- The host's question, asked of the decoders above: an instruction of `nbits` bits whose bits are `w`. The table
has rows of 32 bits (CMD32) and of 8 (PKT8). -/
def decodeTableWord (nbits w : Nat) : Option Instr :=
  if nbits ≤ 8 then some (decodeHeader (BitVec.ofNat 8 w))
  else if nbits ≤ 32 then (decodeCommand (BitVec.ofNat 32 w)).toOption
  else none

end Sys2Proof
end

