-- ==== Sys2Proof/Config.lean ====
section
/-! DEFINITION. What an implementation fixes (spec 00_scope R6, 20_memory R59) and the free values: the draws of
spec 93_implementation_defined.md. A free value is opaque, so no proof sees what it is. -/

namespace Sys2Proof

/-- The implementation parameters a rule reads. State carries one, no step changes it (log 2), so a claim
holds for every LB_SIZE. -/
structure Config where
  /-- LB_SIZE, the line buffer's size in bytes (R6, R50). -/
  lbSize : Nat
deriving DecidableEq, Repr

/-- The spec's default: LB_SIZE = 262140 = 65535 × 4 (R6, D11). -/
def Config.standard : Config := { lbSize := 262140 }

/-- MAX_RUN: the largest run a packet encodes (R6). -/
def maxRun : Nat := 128

/-- The largest scanline width, 65535 (R6, R74, D15). -/
def maxWidth : Nat := 65535

/-- Free bytes: "any value, one draw per byte" (93 items 1 and 3). Applied to the State's draw counter (log 10). -/
opaque Config.drawByte : Nat → Byte

/-- Free words: host reads of RESULT and the counters while BUSY = 1 (R248, 93 item 4; log 10). -/
opaque Config.drawWord : Nat → Word

/-- REG_BASE_ADDR: a platform parameter "which no TSCU rule reads" (R59; log 25). -/
opaque Config.regBaseAddr : Nat

/-- LB_PORT_ADDR: a platform parameter "which no TSCU rule reads" (R59; log 25). -/
opaque Config.lbPortAddr : Nat

end Sys2Proof
end

