-- ==== Sys2Proof/Machine/State.lean ====
section
/-! DEFINITION. The TSCU's state as plain data (spec 10_state R20, R39), the two ports and the coming events of its
environment, the reasons a step can stop, and the state after a power-on reset (R40). -/

namespace Sys2Proof.Machine

/-- LB: (address, byte) pairs, addresses strictly rising; an unlisted address is UNWRITTEN (R39, R67; log 12). -/
abbrev Memory := List Host.Cell

/-- STATUS, field by field (R24). Its reserved bits have no storage: they read 0. -/
structure Status where
  busy   : Bool
  done   : Bool
  err    : Bool
  ecode  : BitVec 4
  lastop : BitVec 4
deriving DecidableEq, Repr

/-- The latched command (R38). -/
structure Latch where
  op   : BitVec 4
  pb   : BitVec 3
  rsv  : Bool
  n    : BitVec 24
  base : Word
deriving DecidableEq, Repr

/-- The kind of run RLE_ENC is building (R33). -/
inductive RunKind where
  | direct
  | repeated
deriving DecidableEq, Repr

/-- The encoder's state: run start, run length, run kind (R33). -/
structure EncState where
  i    : Nat
  n    : Nat
  kind : RunKind
deriving DecidableEq, Repr

/-- The IN port: the bytes not yet taken, and whether EOS has been presented behind them (R52). -/
structure InPort where
  bytes : List Byte
  eos   : Bool
deriving DecidableEq, Repr

/-- The OUT port: the bytes accepted so far, oldest first; the remaining capacity, none for unbounded (R53); and how
many more bytes the sink will accept or refuse before it falls silent, none for no such limit (R249; log 7). -/
structure OutPort where
  sent    : List Byte
  cap     : Option Nat
  answers : Option Nat
deriving DecidableEq, Repr

/-- One event: what the TSCU, its host or the environment of its ports does at one step (log 1). -/
inductive Event where
  /-- The command in flight, as the one transition it is: it runs to its end, success or fault. The event is enabled only
  where the ports let it end (R57, R249, R251). -/
  | run
  /-- Intermediate progress at the ports while the command in flight waits: it takes the bytes IN has, or gives those OUT
  answers, and stays BUSY (R52, R53, R57; log 3). -/
  | transfer
  /-- The TSCU's decoder runs one RLE packet of the RLE_DEC in flight (R152; log 5). -/
  | packet
  /-- A host write of `v` to REG, `width` bytes wide (R21, R56). -/
  | regWrite (offset width : Nat) (v : Word)
  /-- A host read of REG, `width` bytes wide (R21, R56). -/
  | regRead (offset width : Nat)
  /-- A host write of one LB byte (R50). -/
  | lbWrite (a : Nat) (b : Byte)
  /-- A host read of one LB byte (R50). -/
  | lbRead (a : Nat)
  /-- The reset input, while powered (R240). -/
  | reset
  /-- Power-on reset (R40). -/
  | powerOn
  /-- More bytes arrive on IN, behind those not yet taken (R52). -/
  | inArrive (bs : List Byte)
  /-- EOS is presented on IN, behind the bytes not yet taken (R52). -/
  | inEos
  /-- The host positions IN: these are now its bytes, with or without EOS behind them (R106, R242 item 3). -/
  | inPlace (bs : List Byte) (eos : Bool)
  /-- The environment sets OUT's remaining capacity (R53). -/
  | outCapacity (cap : Option Nat)
  /-- The sink will answer this many bytes, then be silent (R249). -/
  | outAnswers (k : Option Nat)
deriving DecidableEq, Repr

/-- The whole machine with its environment. -/
structure State where
  /-- LB_SIZE: the parameter, which no step changes (R6; log 2). -/
  cfg : Config
  /-- REG.CMD (R22). -/
  cmd : Word
  /-- REG.STATUS (R24). -/
  status : Status
  /-- REG.BASE (R23). -/
  base : Word
  /-- REG.RESULT[15:0] (R25). -/
  result : BitVec 16
  /-- REG.INCNT (R26). -/
  incnt : Word
  /-- REG.OUTCNT (R27). -/
  outcnt : Word
  /-- REG.PIXCNT (R28). -/
  pixcnt : Word
  /-- The latched command (R38). -/
  lat : Latch
  /-- The repeat-run counter, 0..128 (R30). -/
  rep : Nat
  /-- The direct-run counter, 0..128 (R30). -/
  dir : Nat
  /-- The sample register (R31). -/
  sample : Pixel
  /-- The position counter, 0..65535 (R32). -/
  x : Nat
  /-- The encoder's state (R33). -/
  enc : EncState
  /-- The line buffer (R50). -/
  lb : Memory
  /-- The bytes the InRead in progress has taken (R11, R52; log 4). -/
  part : List Byte
  /-- The bytes of the OutWrite in progress that OUT has not answered (R11, R249; log 4). -/
  pend : List Byte
  /-- The IN port (R52). -/
  inp : InPort
  /-- The OUT port (R53). -/
  out : OutPort
  /-- The coming events, the next one first (log 1). -/
  agenda : List Event
  /-- What the host's reads have returned, oldest first (log 19). -/
  reads : List Word
  /-- The ECODE of each ended command, oldest first (R253; log 19). -/
  ecodes : List (BitVec 4)
  /-- How many free values have been drawn (log 10). -/
  draws : Nat
  /-- The host has read STATUS with BUSY = 0 since its last CMD write (R244, R253; log 19). -/
  outcomeRead : Bool
deriving DecidableEq, Repr

/-- Why the machine stops. -/
inductive Fault where
  /-- ModelUnwrittenRead: a command read the UNWRITTEN LB byte at `a` (R67, R229). Raised by SWAP, EXPAND, RAW_WR and
  RLE_ENC. Safe: the hardware reads some byte and goes on; the model says nothing of what follows. -/
  | modelUnwrittenRead (a : Nat)
  /-- No step is enabled: the command in flight needs a byte of IN and there is neither a byte nor EOS, or OUT neither
  accepts nor refuses (R52, R53, R249; 93 item 9: stuck). BUSY stays 1; `waiting` is the state the command waits in, as far
  as the ports let it go. Raised by LE16_UNPACK, LE16_PACK, RAW_RD, RAW_WR, RLE_DEC, RLE_ENC and the two packets. Safe: the
  hardware waits there too, and goes on when the environment acts (the event `transfer`). -/
  | portSilent (waiting : State)
  /-- A host access to a REG offset of 0x40 or more, which does not exist (R51). Raised by a host event. Safe. -/
  | regOutsideSpace (offset : Nat)
  /-- A host access to an LB address of LB_SIZE or more, which does not exist (R50). Raised by a host event. Safe. -/
  | lbOutsideBuffer (a : Nat)
deriving DecidableEq, Repr

/-- Why the model has no step. -/
inductive Refusal where
  /-- An instruction with no meaning yet, by its mnemonic. Raised by exec's arms only; none does now. Safe. -/
  | notModelled (mnemonic : String)
  /-- A host write of CMD while BUSY = 1 (R245). Raised by a host event. Safe for a host that keeps its duty; claims say
  nothing of one that breaks it. -/
  | cmdWriteWhileBusy
  /-- A host write of BASE while BUSY = 1 (R247). As cmdWriteWhileBusy. -/
  | baseWriteWhileBusy
  /-- A host read or write of LB while BUSY = 1 (R246). As cmdWriteWhileBusy. -/
  | lbAccessWhileBusy
  /-- A REG access that is not 32 bits wide at a multiple of 4 (R56, R249). As cmdWriteWhileBusy. -/
  | regAccessForm
  /-- A packet header run where no RLE_DEC in flight is at a header: such a byte is no instruction there (R80). Raised by
  the two packet meanings; the step never calls them there. Safe. -/
  | packetOutsideDecode
  /-- The capacity of OUT set while a command runs: it is fixed when the command starts (R53). Raised by an
  environment event. Safe. -/
  | outCapacityWhileBusy
  /-- Bytes arriving on IN behind a presented EOS: the sequence before EOS is finite and ended (R52). Raised by an
  environment event. Safe. -/
  | inputAfterEos
deriving DecidableEq, Repr

/-- The machine right after power-on reset (R40). The environment presents the empty stream and EOS on IN (log 6), OUT is
unbounded and answers every byte (log 7), and no event is scheduled (log 1). `sample` is never observable (log 8). -/
def State.reset : State where
  cfg := Config.standard
  cmd := 0
  status := { busy := false, done := false, err := false, ecode := 0, lastop := 0 }
  base := 0
  result := 0
  incnt := 0
  outcnt := 0
  pixcnt := 0
  lat := { op := 0, pb := 0, rsv := false, n := 0, base := 0 }
  rep := 0
  dir := 0
  sample := [0, 0, 0, 0]
  x := 0
  enc := { i := 0, n := 0, kind := .direct }
  lb := []
  part := []
  pend := []
  inp := { bytes := [], eos := true }
  out := { sent := [], cap := none, answers := none }
  agenda := []
  reads := []
  ecodes := []
  draws := 0
  outcomeRead := false

end Sys2Proof.Machine
end

