-- ==== Sys2Proof/Machine/Flags.lean ====
section
/-! DEFINITION. STATUS, the TSCU's only flags (spec 10_state R24, R37): its word, its three changes (CMD write, normal
completion, fault), and the error kinds with their codes (60_exceptions R211). -/

namespace Sys2Proof.Machine

/-- The error kinds, in the source's order (R211). The TSCU never raises OpenFailure or SeekFailure. -/
inductive ErrorKind where
  | outOfMemory
  | openFailure
  | seekFailure
  | readFailure
  | writeFailure
  | unsupportedSubFormat
  | generic
deriving DecidableEq, Repr

/-- The ECODE of a kind (R211, D9). 0 means no fault. -/
def ErrorKind.code : ErrorKind → BitVec 4
  | .outOfMemory => 1
  | .openFailure => 2
  | .seekFailure => 3
  | .readFailure => 4
  | .writeFailure => 5
  | .unsupportedSubFormat => 6
  | .generic => 7

/-- The word a read of STATUS returns: BUSY 0, DONE 1, ERR 2, ECODE 7:4, LASTOP 11:8, the rest 0 (R24). -/
def Status.word (f : Status) : Word :=
  (((((0#20 ++ f.lastop) ++ f.ecode) ++ 0#1) ++ BitVec.ofBool f.err) ++ BitVec.ofBool f.done) ++
    BitVec.ofBool f.busy

/-- STATUS after a CMD write: DONE, ERR and ECODE cleared, LASTOP the new OP, BUSY set (R22 items 3, 4, 6). -/
def Status.issued (op : BitVec 4) : Status :=
  { busy := true, done := false, err := false, ecode := 0, lastop := op }

/-- STATUS after normal completion: BUSY cleared, DONE set, the rest kept (R214). -/
def Status.finished (f : Status) : Status := { f with busy := false, done := true }

/-- STATUS after `raise Fault(kind)`: ECODE, ERR and DONE set, BUSY cleared, LASTOP kept (R213). -/
def Status.failed (k : ErrorKind) (f : Status) : Status :=
  { f with ecode := k.code, err := true, done := true, busy := false }

/-- The invariants R24 states: BUSY implies neither DONE nor ERR; ERR implies DONE; ECODE ≠ 0 if and only if ERR. -/
def Status.consistent (f : Status) : Bool :=
  (!f.busy || (!f.done && !f.err)) && (!f.err || f.done) && ((f.ecode != 0) == f.err)

end Sys2Proof.Machine
end

