-- ==== Sys2Proof/Machine/Ops.lean ====
section
/-! DEFINITION. The operations the commands share: LB access (spec 00_scope R10, 20_memory R50), issuing and ending a
command (10_state R22, R38, 60_exceptions R213, R214), and the port primitives InRead and OutWrite (00_scope R11). -/

namespace Sys2Proof.Machine

/-! ## The line buffer -/

/-- Addresses strictly rise: the canonical form of a memory. -/
abbrev Memory.wf (m : Memory) : Prop := m.Pairwise fun c d => c.1 < d.1

/-- Every listed address is below `size`: LB's addresses are 0 to LB_SIZE - 1 (R50). -/
abbrev Memory.within (m : Memory) (size : Nat) : Prop := ∀ c ∈ m, c.1 < size

/-- The byte at an address; none where it is UNWRITTEN (R67). -/
def lbGet : Memory → Nat → Option Byte
  | [], _ => none
  | (a, b) :: m, k => if a = k then some b else lbGet m k

/-- MemRead(a, n): the n bytes from `a`, or the first UNWRITTEN address among them (R10, R67, R229). -/
def lbRead (m : Memory) : Nat → Nat → Except Nat (List Byte)
  | _, 0 => .ok []
  | a, n + 1 =>
    match lbGet m a with
    | none => .error a
    | some b =>
      match lbRead m (a + 1) n with
      | .error e => .error e
      | .ok bs => .ok (b :: bs)

/-- The cells of a byte sequence from an address on. -/
def cellsAt (a : Nat) : List Byte → Memory
  | [] => []
  | b :: bs => (a, b) :: cellsAt (a + 1) bs

/-- MemWrite(a, |bs|, bs): R10. -/
def lbWrite (m : Memory) (a : Nat) (bs : List Byte) : Memory :=
  m.filter (fun c => c.1 < a) ++ cellsAt a bs ++ m.filter (fun c => a + bs.length ≤ c.1)

/-- Make the n bytes from `a` UNWRITTEN (R240). -/
def lbErase (m : Memory) (a n : Nat) : Memory :=
  m.filter (fun c => c.1 < a) ++ m.filter (fun c => a + n ≤ c.1)

/-- The latched BASE as an address (R12, R38). -/
def State.lineBase (s : State) : Nat := s.lat.base.toNat

/-- `Pix(i)` of the command in flight, for pixels of `p` bytes (R12). -/
def State.pix (s : State) (p i : Nat) : Except Nat Pixel := lbRead s.lb (s.lineBase + i * p) p

/-- Store the next pixel of the scanline: MemWrite at base + x·P, then x and PIXCNT move on (R121, R152). -/
def State.storePixel (p : Nat) (px : Pixel) (s : State) : State :=
  { s with
    lb := lbWrite s.lb (s.lineBase + s.x * p) px
    x := s.x + 1
    pixcnt := BitVec.ofNat 32 (s.x + 1) }

/-- `k` free bytes from the draw counter on (93 items 1 and 3). -/
def drawBytes (from_ k : Nat) : List Byte := (List.range k).map fun j => Config.drawByte (from_ + j)

/-- After a ReadFailure, LB from pixel PIXCNT (= x) to the end of the line holds any values, written (R121, R157, D23). -/
def State.spoilLine (p w : Nat) (s : State) : State :=
  let k := (w - s.x) * p
  { s with
    lb := lbWrite s.lb (s.lineBase + s.x * p) (drawBytes s.draws k)
    draws := s.draws + k }

/-! ## Issuing and ending a command -/

/-- The latched fields of a CMD write (R38). -/
def Latch.of (v : Word) (base : Word) : Latch :=
  { op := fieldOp v, pb := fieldPb v, rsv := fieldRsv v, n := fieldN v, base := base }

/-- The command word the latched fields stand for (R71): what the TSCU decodes. -/
def Latch.word (l : Latch) : Word := packFields l.op l.pb l.rsv l.n

/-- A host write of `v` to CMD with BUSY = 0, as one step (R22), with the internal state a command clears when it
starts (R34; log 28). It is also the only recovery from a fault: it clears DONE, ERR and ECODE (R220). -/
def State.issue (v : Word) (s : State) : State :=
  { s with
    cmd := v
    lat := Latch.of v s.base
    status := Status.issued (fieldOp v)
    incnt := 0
    outcnt := 0
    pixcnt := 0
    rep := 0
    dir := 0
    x := 0
    enc := { i := 0, n := 0, kind := .direct }
    part := []
    pend := []
    outcomeRead := false }

/-- Normal completion, `Finish()` (R214). -/
def State.finish (s : State) : State :=
  { s with status := s.status.finished, ecodes := s.ecodes ++ [s.status.ecode] }

/-- `raise Fault(kind)` (R213): the one entry into an architected fault. It undoes nothing and saves nothing; the command
ends and the TSCU waits for the next CMD write. -/
def State.raiseFault (k : ErrorKind) (s : State) : State :=
  { s with status := s.status.failed k, ecodes := s.ecodes ++ [k.code] }

/-! ## How a command's body goes -/

/-- What a piece of a command's body leads to. -/
inductive Flow where
  /-- The body goes on from this state. -/
  | go (s : State)
  /-- A port gives no answer: the command waits in this state, BUSY staying 1 (R52, R249). -/
  | wait (s : State)
  /-- `raise Fault(kind)`, with the effects so far in place (R12). -/
  | raise (k : ErrorKind) (s : State)
  /-- A MemRead met the UNWRITTEN byte at `a` (R229). -/
  | unwritten (a : Nat)
deriving DecidableEq, Repr

/-- Go on with `f` where the flow goes on. -/
def Flow.andThen (r : Flow) (f : State → Flow) : Flow :=
  match r with
  | .go s => f s
  | .wait s => .wait s
  | .raise k s => .raise k s
  | .unwritten a => .unwritten a

/-- Change the state a fault is raised in. -/
def Flow.onRaise (r : Flow) (f : State → State) : Flow :=
  match r with
  | .go s => .go s
  | .wait s => .wait s
  | .raise k s => .raise k (f s)
  | .unwritten a => .unwritten a

/-- The end of a command's transition: `last` where the body has run through, a fault recorded where one was raised. Where
a port is silent the transition is not enabled, and there is no next state (R249, R251). -/
def Flow.settle (r : Flow) (last : State → State) : Host.Outcome State Fault Refusal :=
  match r with
  | .go s => .next (last s)
  | .wait s => .fault (.portSilent s)
  | .raise k s => .next (s.raiseFault k)
  | .unwritten a => .fault (.modelUnwrittenRead a)

/-- Read n bytes of LB from `a` and go on with them. -/
def State.memRead (s : State) (a n : Nat) (f : List Byte → Flow) : Flow :=
  match lbRead s.lb a n with
  | .error e => .unwritten e
  | .ok bs => f bs

/-! ## The ports -/

/-- One byte taken from IN (R26, R52). -/
def State.tookByte (b : Byte) (rest : List Byte) (s : State) : State :=
  { s with
    inp := { s.inp with bytes := rest }
    incnt := s.incnt + 1
    part := s.part ++ [b] }

/-- Take `k` more bytes from IN, one at a time (R11, R52). -/
def inTake : Nat → State → Flow
  | 0, s => .go s
  | k + 1, s =>
    match s.inp.bytes with
    | b :: rest => inTake k (s.tookByte b rest)
    | [] => if s.inp.eos then .raise .readFailure s else .wait s

/-- InRead(n): go on with the n bytes, those taken before a wait included (R11, R52). -/
def inRead (n : Nat) (s : State) (f : List Byte → State → Flow) : Flow :=
  (inTake (n - s.part.length) s).andThen fun t => f (t.part.take n) { t with part := [] }

/-- One byte accepted by OUT (R27, R53). -/
def State.gaveByte (b : Byte) (s : State) : State :=
  { s with
    out := { sent := s.out.sent ++ [b], cap := s.out.cap.map (· - 1), answers := s.out.answers.map (· - 1) }
    outcnt := s.outcnt + 1 }

/-- OUT refuses a byte: an answer, but no byte (R53). -/
def State.refusedByte (s : State) : State :=
  { s with out := { s.out with answers := s.out.answers.map (· - 1) } }

/-- OutWrite of a byte sequence, one byte at a time (R11, R53). The bytes not yet answered are kept in `pend` when the
sink is silent. -/
def outWrite : List Byte → State → Flow
  | [], s => .go { s with pend := [] }
  | b :: bs, s =>
    if s.out.answers = some 0 then .wait { s with pend := b :: bs }
    else if s.out.cap = some 0 then .raise .writeFailure { s.refusedByte with pend := [] }
    else outWrite bs (s.gaveByte b)

end Sys2Proof.Machine
end

