-- ==== Sys2Proof/Machine/Operands.lean ====
section
/-! DEFINITION. The operand checks of a command word (spec 30_encoding R77, R87): PB, then N, then the LB range of
20_memory R58, in that order (60_exceptions R216), all before any effect (R215). -/

namespace Sys2Proof.Machine

/-- The width check of the scanline commands: 1 ≤ PB ≤ 4. -/
def lineWidthFault (pb : BitVec 3) : Option ErrorKind :=
  if pb.toNat < 1 ∨ 4 < pb.toNat then some .unsupportedSubFormat else none

/-- The pixel count check of the scanline commands: N ≤ 65535. -/
def lineCountFault (n : BitVec 24) : Option ErrorKind :=
  if maxWidth < n.toNat then some .generic else none

/-- The PB check (R77, R87). -/
def pbFault : Instr → Option ErrorKind
  | .le16Unpack pb _ => if pb ≠ 0 then some .generic else none
  | .le16Pack pb _ => if pb ≠ 0 then some .generic else none
  | .rawRd pb _ => lineWidthFault pb
  | .rawWr pb _ => lineWidthFault pb
  | .swap pb _ => if pb ≠ 3 ∧ pb ≠ 4 then some .unsupportedSubFormat else none
  | .expand pb _ => if pb ≠ 2 then some .unsupportedSubFormat else none
  | .rleDec pb _ => lineWidthFault pb
  | .rleEnc pb _ => lineWidthFault pb
  | .pktRepeat _ => none
  | .pktDirect _ => none

/-- The N check (R77, R87). -/
def nFault : Instr → Option ErrorKind
  | .le16Unpack _ n => if n ≠ 0 then some .generic else none
  | .le16Pack _ n => if n.extractLsb' 16 8 ≠ 0 then some .generic else none
  | .rawRd _ n => lineCountFault n
  | .rawWr _ n => lineCountFault n
  | .swap pb n => if n.toNat % pb.toNat ≠ 0 then some .generic else none
  | .expand _ n => if n.toNat % 2 ≠ 0 then some .generic else none
  | .rleDec _ n => lineCountFault n
  | .rleEnc _ n => lineCountFault n
  | .pktRepeat _ => none
  | .pktDirect _ => none

/-- The length of the LB range of a command; none for one that does not use LB (R77). -/
def lbLength : Instr → Option Nat
  | .le16Unpack _ _ => none
  | .le16Pack _ _ => none
  | .rawRd pb n => some (n.toNat * pb.toNat)
  | .rawWr pb n => some (n.toNat * pb.toNat)
  | .swap _ n => some n.toNat
  | .expand _ n => some (3 * n.toNat / 2)
  | .rleDec pb n => some (n.toNat * pb.toNat)
  | .rleEnc pb n => some (n.toNat * pb.toNat)
  | .pktRepeat _ => none
  | .pktDirect _ => none

/-- The LB range check: base + len > LB_SIZE, in unbounded arithmetic (R58). -/
def rangeFault (i : Instr) (s : State) : Option ErrorKind :=
  match lbLength i with
  | none => none
  | some len => if s.cfg.lbSize < s.lineBase + len then some .outOfMemory else none

/-- The first check that fails, in the order PB, N, LB range (R87, R216). -/
def operandFault (i : Instr) (s : State) : Option ErrorKind :=
  (pbFault i).or ((nFault i).or (rangeFault i s))

/-- Run a command's body if its operands pass (R87), and end the step of the command. -/
def checked (i : Instr) (s : State) (body : State → Flow) : Host.Outcome State Fault Refusal :=
  match operandFault i s with
  | some k => .next (s.raiseFault k)
  | none => (body s).settle State.finish

end Sys2Proof.Machine
end

