-- ==== Sys2Proof/Machine/RleDecode.lean ====
section
/-! DEFINITION. The RLE decoder (spec 42_rle_decode): the two packet headers as the decoder's instructions (R81, R82,
R150), and the command RLE_DEC, whose loop runs packets until the width is exhausted (R152). -/

namespace Sys2Proof.Machine

/-- A repeat header opens a run of C + 1 copies (R81, R150). -/
def State.openRepeat (c : BitVec 7) (s : State) : State := { s with rep := c.toNat + 1, dir := 0 }

/-- A direct header opens a run of C + 1 literal pixels (R82, R150). -/
def State.openDirect (c : BitVec 7) (s : State) : State := { s with rep := 0, dir := c.toNat + 1 }

/-- Open the run of a header byte (R150, R152). -/
def State.openRun (h : Byte) (s : State) : State :=
  match decodeHeader h with
  | .pktRepeat c => s.openRepeat c
  | .pktDirect c => s.openDirect c
  | _ => s

/-- Emit `k` copies of the sample pixel (R152). -/
def emitSample (p : Nat) : Nat → State → State
  | 0, s => s
  | k + 1, s => emitSample p k { s.storePixel p s.sample with rep := s.rep - 1 }

/-- Read and emit `k` pixels of a direct run (R152). -/
def emitDirect (p : Nat) : Nat → State → Flow
  | 0, s => .go s
  | k + 1, s => inRead p s fun px t => emitDirect p k { t.storePixel p px with dir := t.dir - 1 }

/-- Emit the open run's pixels, as far as the line of `w` pixels has room (R152, R153). A repeat run whose sample is not
yet loaded reads it first; a command that waits inside a repeat run waits for its sample (log 4). -/
def emitRun (p w : Nat) (s : State) : Flow :=
  if 0 < s.rep then
    inRead p s fun px t => .go (emitSample p (min t.rep (w - t.x)) { t with sample := px })
  else emitDirect p (min s.dir (w - s.x)) s

/-- The decode loop (R152): while pixels are left, a header opens a run where none is active, and the run's pixels are
emitted. `fuel` bounds the packets: each emits a pixel. -/
def decodeLoop (p w : Nat) : Nat → State → Flow
  | 0, s => .go s
  | fuel + 1, s =>
    if s.x < w then
      let opened :=
        if s.rep = 0 ∧ s.dir = 0 then inRead 1 s fun h t => .go (t.openRun (h.headD 0)) else .go s
      (opened.andThen (emitRun p w)).andThen (decodeLoop p w fuel)
    else .go s

/-- The line is complete: a leftover count is discarded (R153), and the command ends (R214). -/
def State.endLine (s : State) : State := { s with rep := 0, dir := 0 }.finish

/-- RLE_DEC (R151). A ReadFailure leaves the rest of the line at any value (R157, D23). -/
def execRleDec (pb : BitVec 3) (n : BitVec 24) (s : State) : Host.Outcome State Fault Refusal :=
  checked (.rleDec pb n) s fun s =>
    ((decodeLoop pb.toNat n.toNat (n.toNat - s.x) s).onRaise (State.spoilLine pb.toNat n.toNat)).andThen
      fun t => .go { t with rep := 0, dir := 0 }

/-- An RLE_DEC is in flight, its operands legal, pixels are left and no run is active: the decoder reads a packet header
next (R152). -/
def State.atHeader (s : State) : Bool :=
  s.status.busy && s.lat.op == 7 && !s.lat.rsv && operandFault (.rleDec s.lat.pb s.lat.n) s == none &&
    decide (s.x < s.lat.n.toNat) && s.rep == 0 && s.dir == 0 && s.part == []

/-- Run one packet whose run has been opened. The command ends if the line is then complete. -/
def runOpened (s : State) : Host.Outcome State Fault Refusal :=
  let p := s.lat.pb.toNat
  let w := s.lat.n.toNat
  ((emitRun p w s).onRaise (State.spoilLine p w)).settle fun t => if t.x < w then t else t.endLine

/-- PKT_REPEAT (R81, R152): a run of C + 1 copies; one sample pixel is read, and copies are emitted as far as the line has
room. The header byte itself is already taken. -/
def execPktRepeat (c : BitVec 7) (s : State) : Host.Outcome State Fault Refusal :=
  if s.atHeader then runOpened (s.openRepeat c) else .refused .packetOutsideDecode

/-- PKT_DIRECT (R82, R152): a run of C + 1 literal pixels, each read when it is emitted, as far as the line has room. The
header byte itself is already taken. -/
def execPktDirect (c : BitVec 7) (s : State) : Host.Outcome State Fault Refusal :=
  if s.atHeader then runOpened (s.openDirect c) else .refused .packetOutsideDecode

end Sys2Proof.Machine
end

