-- ==== Sys2Proof/Machine/RleEncode.lean ====
section
/-! DEFINITION. The RLE encoder (spec 43_rle_encode): the packetisation algorithm of R182 and the command RLE_ENC. -/

namespace Sys2Proof.Machine

/-- The length of an identical-pixel run from pixel `i`, whose value is `px`: `n` grows while it is below 128 and the next
pixel is equal (R182). `fuel` is 128 - n. -/
def sameRun (s : State) (p w i : Nat) (px : Pixel) : (fuel n : Nat) → Except Nat Nat
  | 0, n => .ok n
  | fuel + 1, n =>
    if i + n < w then
      match s.pix p (i + n) with
      | .error a => .error a
      | .ok q => if q = px then sameRun s p w i px fuel (n + 1) else .ok n
    else .ok n

/-- Whether pixel `j` equals its successor within the line (R182): no pixel is read where there is no successor. -/
def equalsNext (s : State) (p w j : Nat) : Except Nat Bool :=
  if j + 1 < w then
    match s.pix p j with
    | .error a => .error a
    | .ok q =>
      match s.pix p (j + 1) with
      | .error a => .error a
      | .ok r => .ok (q == r)
  else .ok false

/-- The length of a differing-pixel run from pixel `i`: `n` grows while it is below 128 and pixel i + n is in the line and
differs from its successor (R182). `fuel` is 128 - n. -/
def differRun (s : State) (p w i : Nat) : (fuel n : Nat) → Except Nat Nat
  | 0, n => .ok n
  | fuel + 1, n =>
    if i + n < w then
      match equalsNext s p w (i + n) with
      | .error a => .error a
      | .ok true => .ok n
      | .ok false => differRun s p w i fuel (n + 1)
    else .ok n

/-- A packet's bytes: its header, as the encoder of Decode.lean gives it, and its pixel bytes (R183, R184). -/
def packetBytes (kind : RunKind) (n : Nat) (body : List Byte) : List Byte :=
  packHeader (kind == .repeated) (BitVec.ofNat 7 (n - 1)) :: body

/-- The packet that starts at pixel `i`: its kind, its length in pixels and its bytes (R182). -/
def nextPacket (s : State) (p w i : Nat) : Except Nat (RunKind × Nat × List Byte) :=
  match equalsNext s p w i with
  | .error a => .error a
  | .ok true =>
    match s.pix p i with
    | .error a => .error a
    | .ok px =>
      match sameRun s p w i px (maxRun - 2) 2 with
      | .error a => .error a
      | .ok n => .ok (.repeated, n, packetBytes .repeated n px)
  | .ok false =>
    match differRun s p w i (maxRun - 1) 1 with
    | .error a => .error a
    | .ok n =>
      match lbRead s.lb (s.lineBase + i * p) (n * p) with
      | .error a => .error a
      | .ok body => .ok (.direct, n, packetBytes .direct n body)

/-- Send the next packet, or what is pending of the current one after a wait (R182). -/
def sendPacket (p w : Nat) (s : State) : Flow :=
  if s.pend = [] then
    match nextPacket s p w s.enc.i with
    | .error a => .unwritten a
    | .ok (kind, n, bytes) => outWrite bytes { s with enc := { s.enc with n := n, kind := kind } }
  else outWrite s.pend s

/-- A packet has left whole: i and PIXCNT move on (R182). -/
def State.packetSent (s : State) : State :=
  { s with
    enc := { s.enc with i := s.enc.i + s.enc.n }
    pixcnt := BitVec.ofNat 32 (s.enc.i + s.enc.n) }

/-- The encode loop (R182). `fuel` bounds the packets: each covers a pixel. -/
def encodeLoop (p w : Nat) : Nat → State → Flow
  | 0, s => .go s
  | fuel + 1, s =>
    if s.enc.i < w then (sendPacket p w s).andThen fun t => encodeLoop p w fuel t.packetSent else .go s

/-- RLE_ENC (R180). -/
def execRleEnc (pb : BitVec 3) (n : BitVec 24) (s : State) : Host.Outcome State Fault Refusal :=
  checked (.rleEnc pb n) s fun s => encodeLoop pb.toNat n.toNat (n.toNat - s.enc.i) s

end Sys2Proof.Machine
end

