-- ==== Sys2Proof/Machine/Le16.lean ====
section
/-! DEFINITION. The little-endian 16-bit field codec (spec 40_le16): its two functions and its two commands. -/

namespace Sys2Proof.Machine

/-- `le16_unpack(b0, b1)`, b0 first in the stream (R100). -/
def le16Unpack (b0 b1 : Byte) : BitVec 16 := b0.setWidth 16 ||| (b1.setWidth 16 <<< 8)

/-- `le16_pack(v)`, the low byte first in the stream (R101). -/
def le16Pack (v : BitVec 16) : List Byte := [v.extractLsb' 0 8, v.extractLsb' 8 8]

/-- RESULT gets the value of the two bytes read (R103). -/
def storeResult (bs : List Byte) (s : State) : State :=
  match bs with
  | b0 :: b1 :: _ => { s with result := le16Unpack b0 b1 }
  | _ => s

/-- LE16_UNPACK (R103): two InRead(1), then RESULT. -/
def execLe16Unpack (pb : BitVec 3) (n : BitVec 24) (s : State) : Host.Outcome State Fault Refusal :=
  checked (.le16Unpack pb n) s fun s => inRead 2 s fun bs t => .go (storeResult bs t)

/-- LE16_PACK (R104): OutWrite of the two bytes of N[15:0], or of those still pending after a wait. -/
def execLe16Pack (pb : BitVec 3) (n : BitVec 24) (s : State) : Host.Outcome State Fault Refusal :=
  checked (.le16Pack pb n) s fun s =>
    outWrite (if s.pend = [] then le16Pack (n.extractLsb' 0 16) else s.pend) s

end Sys2Proof.Machine
end

