-- ==== Sys2Proof/Machine/Transcoder.lean ====
section
/-! DEFINITION. The scanline transcoder (spec 41_transcoder): the pixel-row copies, the channel swap and the 5-5-5
expansion. -/

namespace Sys2Proof.Machine

/-- The next `k` pixels of a RAW_RD, each read whole and then stored (R121). -/
def rawRdLoop (p : Nat) : Nat → State → Flow
  | 0, s => .go s
  | k + 1, s => inRead p s fun px t => rawRdLoop p k (t.storePixel p px)

/-- RAW_RD (R121). A ReadFailure leaves the rest of the line at any value (D23). -/
def execRawRd (pb : BitVec 3) (n : BitVec 24) (s : State) : Host.Outcome State Fault Refusal :=
  checked (.rawRd pb n) s fun s =>
    (rawRdLoop pb.toNat (n.toNat - s.x) s).onRaise (State.spoilLine pb.toNat n.toNat)

/-- A pixel has left whole: x and PIXCNT move on (R122). -/
def State.pixelSent (s : State) : State :=
  { s with x := s.x + 1, pixcnt := BitVec.ofNat 32 (s.x + 1) }

/-- OutWrite(Pix(x)), or of the bytes of it still pending after a wait (R122). -/
def sendPixel (p : Nat) (s : State) : Flow :=
  if s.pend = [] then
    match s.pix p s.x with
    | .error a => .unwritten a
    | .ok px => outWrite px s
  else outWrite s.pend s

/-- The next `k` pixels of a RAW_WR (R122). -/
def rawWrLoop (p : Nat) : Nat → State → Flow
  | 0, s => .go s
  | k + 1, s => (sendPixel p s).andThen fun t => rawWrLoop p k t.pixelSent

/-- RAW_WR (R122). -/
def execRawWr (pb : BitVec 3) (n : BitVec 24) (s : State) : Host.Outcome State Fault Refusal :=
  checked (.rawWr pb n) s fun s => rawWrLoop pb.toNat (n.toNat - s.x) s

/-- `swap(buf, 3)` (R123). -/
def swapBytes3 : List Byte → List Byte
  | b0 :: b1 :: b2 :: rest => b2 :: b1 :: b0 :: swapBytes3 rest
  | rest => rest

/-- `swap(buf, 4)` (R123). -/
def swapBytes4 : List Byte → List Byte
  | b0 :: b1 :: b2 :: b3 :: rest => b2 :: b1 :: b0 :: b3 :: swapBytes4 rest
  | rest => rest

/-- `swap(buf, s)` for a stride of 3 or 4 (R123). -/
def swapBytes (stride : Nat) (buf : List Byte) : List Byte :=
  if stride = 4 then swapBytes4 buf else swapBytes3 buf

/-- SWAP (R124): the whole region read, then written over (R68). -/
def execSwap (pb : BitVec 3) (n : BitVec 24) (s : State) : Host.Outcome State Fault Refusal :=
  checked (.swap pb n) s fun s =>
    s.memRead s.lineBase n.toNat fun old =>
      .go { s with
        lb := lbWrite s.lb s.lineBase (swapBytes pb.toNat old)
        pixcnt := BitVec.ofNat 32 (n.toNat / pb.toNat) }

/-- The three bytes of one entry: bits 4:0, 9:5 and 14:10, unscaled; bit 15 is dropped (R126, C1; log 14). -/
def expandEntry (w : BitVec 16) : List Byte :=
  [(w.extractLsb' 0 5).setWidth 8, (w.extractLsb' 5 5).setWidth 8, (w.extractLsb' 10 5).setWidth 8]

/-- `expand(buf)` (R126). -/
def expandBytes : List Byte → List Byte
  | b0 :: b1 :: rest => expandEntry (le16Unpack b0 b1) ++ expandBytes rest
  | _ => []

/-- EXPAND (R127): the whole input read, then the output written from base (R68). -/
def execExpand (pb : BitVec 3) (n : BitVec 24) (s : State) : Host.Outcome State Fault Refusal :=
  checked (.expand pb n) s fun s =>
    s.memRead s.lineBase n.toNat fun old =>
      .go { s with
        lb := lbWrite s.lb s.lineBase (expandBytes old)
        pixcnt := BitVec.ofNat 32 (n.toNat / 2) }

end Sys2Proof.Machine
end

