-- ==== Sys2Proof/Machine/Dispatch.lean ====
section
/-! DEFINITION. One arm per instruction (spec 30_encoding R76, R80). -/

namespace Sys2Proof.Machine

def exec (i : Instr) (s : State) : Host.Outcome State Fault Refusal :=
  match i with
  | .le16Unpack pb n => Sys2Proof.Machine.execLe16Unpack pb n s
  | .le16Pack pb n => Sys2Proof.Machine.execLe16Pack pb n s
  | .rawRd pb n => Sys2Proof.Machine.execRawRd pb n s
  | .rawWr pb n => Sys2Proof.Machine.execRawWr pb n s
  | .swap pb n => Sys2Proof.Machine.execSwap pb n s
  | .expand pb n => Sys2Proof.Machine.execExpand pb n s
  | .rleDec pb n => Sys2Proof.Machine.execRleDec pb n s
  | .rleEnc pb n => Sys2Proof.Machine.execRleEnc pb n s
  | .pktRepeat c => Sys2Proof.Machine.execPktRepeat c s
  | .pktDirect c => Sys2Proof.Machine.execPktDirect c s

end Sys2Proof.Machine
end

