-- ==== Sys2Proof/Machine/HostPort.lean ====
section
/-! DEFINITION. What the host and the environment do to the TSCU (spec 10_state R21 to R29, 20_memory R50 to R53, R56,
70_reset R240 to R249): REG and LB accesses, the reset input, and what the ports present. -/

namespace Sys2Proof.Machine

/-- ID: hardwired (R29). -/
def idWord : Word := 0x54534301

/-- The value of the register at an offset below 0x40; a reserved offset reads 0 (R21). -/
def regValue (s : State) (offset : Nat) : Word :=
  match offset with
  | 0x00 => s.cmd
  | 0x04 => s.status.word
  | 0x08 => s.base
  | 0x0C => s.result.setWidth 32
  | 0x10 => s.incnt
  | 0x14 => s.outcnt
  | 0x18 => s.pixcnt
  | 0x1C => idWord
  | _ => 0

/-- The registers whose value is unspecified while BUSY = 1 (R248). -/
def unspecifiedWhileBusy (offset : Nat) : Bool :=
  offset == 0x0C || offset == 0x10 || offset == 0x14 || offset == 0x18

/-- A draw for such a register: RESULT keeps bits 31:16 at 0, which "always read 0" (R25, R248; log 11). -/
def drawRegister (s : State) (offset : Nat) : Word :=
  if offset = 0x0C then ((Config.drawWord s.draws).setWidth 16).setWidth 32 else Config.drawWord s.draws

/-- REG accesses are 32 bits wide at a multiple of 4 (R56). -/
def regAccessOk (offset width : Nat) : Bool := width == 4 && offset % 4 == 0

/-- Whether a read of this offset lets the host see that its command has ended: STATUS with BUSY = 0 (R218, R244, R253). -/
def State.seesOutcome (s : State) (offset : Nat) : Bool := offset == 0x04 && !s.status.busy

/-- A host read of REG (R21, R56, R248). -/
def hostRegRead (offset width : Nat) (s : State) : Host.Outcome State Fault Refusal :=
  if ¬ regAccessOk offset width then .refused .regAccessForm
  else if 0x40 ≤ offset then .fault (.regOutsideSpace offset)
  else if s.status.busy ∧ unspecifiedWhileBusy offset then
    .next { s with reads := s.reads ++ [drawRegister s offset], draws := s.draws + 1 }
  else
    .next { s with
      reads := s.reads ++ [regValue s offset]
      outcomeRead := s.outcomeRead || s.seesOutcome offset }

/-- A host write of REG: CMD issues a command (R22), BASE is stored (R23), every other write is ignored (R56). -/
def hostRegWrite (offset width : Nat) (v : Word) (s : State) : Host.Outcome State Fault Refusal :=
  if ¬ regAccessOk offset width then .refused .regAccessForm
  else if 0x40 ≤ offset then .fault (.regOutsideSpace offset)
  else if offset = 0x00 then if s.status.busy then .refused .cmdWriteWhileBusy else .next (s.issue v)
  else if offset = 0x08 then if s.status.busy then .refused .baseWriteWhileBusy else .next { s with base := v }
  else .next s

/-- A host read of one LB byte; of an UNWRITTEN one it returns a draw (R50, R67, R246). -/
def hostLbRead (a : Nat) (s : State) : Host.Outcome State Fault Refusal :=
  if s.status.busy then .refused .lbAccessWhileBusy
  else if s.cfg.lbSize ≤ a then .fault (.lbOutsideBuffer a)
  else
    match lbGet s.lb a with
    | some b => .next { s with reads := s.reads ++ [b.setWidth 32] }
    | none =>
      .next { s with reads := s.reads ++ [(Config.drawByte s.draws).setWidth 32], draws := s.draws + 1 }

/-- A host write of one LB byte (R50, R246). -/
def hostLbWrite (a : Nat) (b : Byte) (s : State) : Host.Outcome State Fault Refusal :=
  if s.status.busy then .refused .lbAccessWhileBusy
  else if s.cfg.lbSize ≤ a then .fault (.lbOutsideBuffer a)
  else .next { s with lb := lbWrite s.lb a [b] }

/-- The LB range of the latched command: the len of R77 for its OP, 0 for one that uses no LB (R240; log 13). -/
def Latch.lbLength (l : Latch) : Nat :=
  match opTable l.op l.pb l.n with
  | none => 0
  | some i => (Machine.lbLength i).getD 0

/-- LB after a reset while powered: kept, but for the range of a command the reset abandons (R40, R240, C6). -/
def State.lbAfterReset (s : State) : Memory :=
  if s.status.busy then lbErase s.lb s.lineBase s.lat.lbLength else s.lb

/-- The TSCU's own state as R40 gives it, over the given LB; the ports, the host's side and the configuration stay (R240). -/
def State.resetTo (lb : Memory) (s : State) : State :=
  { State.reset with
    cfg := s.cfg
    lb := lb
    inp := s.inp
    out := s.out
    agenda := s.agenda
    reads := s.reads
    ecodes := s.ecodes
    draws := s.draws }

/-- The reset input while powered (R240). -/
def State.resetInput (s : State) : State := s.resetTo s.lbAfterReset

/-- Power-on reset: every LB byte is UNWRITTEN (R40). -/
def State.powerOnReset (s : State) : State := s.resetTo []

/-- Bytes arrive on IN behind those not yet taken (R52; log 21). -/
def inputArrives (bs : List Byte) (s : State) : Host.Outcome State Fault Refusal :=
  if s.inp.eos then .refused .inputAfterEos
  else .next { s with inp := { s.inp with bytes := s.inp.bytes ++ bs } }

/-- The environment sets the capacity of OUT between commands (R53; log 20). -/
def outputCapacity (cap : Option Nat) (s : State) : Host.Outcome State Fault Refusal :=
  if s.status.busy then .refused .outCapacityWhileBusy
  else .next { s with out := { s.out with cap := cap } }

end Sys2Proof.Machine
end

