-- ==== Sys2Proof/Machine/Sequencer.lean ====
section
/-! DEFINITION. How the machine moves (spec 30_encoding R87, 20_memory R57): running the latched command, running one
packet of an RLE_DEC, and what each event does. -/

namespace Sys2Proof.Machine

/-- The fault of a word that is no command: Generic for a reserved OP (R78) and for RSV = 1 (R75). -/
def rejectFault : Reject → ErrorKind
  | .reservedOp _ => .generic
  | .reservedBit => .generic

/-- Run the command in flight to its end: decode the latched word, then run its instruction, from the start or from where
a port made it wait (R38, R87, R251). -/
def runLatched (s : State) : Host.Outcome State Fault Refusal :=
  match decodeCommand s.lat.word with
  | .ok i => exec i s
  | .error r => .next (s.raiseFault (rejectFault r))

/-- Where the command in flight cannot end, it goes as far as the ports let it and waits there (R52, R53, R57, R249; log 3).
Where it can, this is its one transition. -/
def transferLatched (s : State) : Host.Outcome State Fault Refusal :=
  match runLatched s with
  | .fault (.portSilent t) => .next t
  | o => o

/-- The header byte `h` taken from IN (R52, R152). -/
def State.tookHeader (rest : List Byte) (s : State) : State :=
  { s with inp := { s.inp with bytes := rest }, incnt := s.incnt + 1 }

/-- Run one packet: where the decoder reads a header next and IN has a byte, take it and run the packet it is; elsewhere
as `runLatched` (R152; log 5). -/
def runPacket (s : State) : Host.Outcome State Fault Refusal :=
  if s.atHeader then
    match s.inp.bytes with
    | h :: rest => exec (decodeHeader h) (s.tookHeader rest)
    | [] => runLatched s
  else runLatched s

/-- What an event does. The TSCU runs nothing while it is idle (R241). -/
def handleEvent (e : Event) (s : State) : Host.Outcome State Fault Refusal :=
  match e with
  | .run => if s.status.busy then runLatched s else .next s
  | .transfer => if s.status.busy then transferLatched s else .next s
  | .packet => if s.status.busy then runPacket s else .next s
  | .regWrite offset width v => hostRegWrite offset width v s
  | .regRead offset width => hostRegRead offset width s
  | .lbWrite a b => hostLbWrite a b s
  | .lbRead a => hostLbRead a s
  | .reset => .next s.resetInput
  | .powerOn => .next s.powerOnReset
  | .inArrive bs => inputArrives bs s
  | .inEos => .next { s with inp := { s.inp with eos := true } }
  | .inPlace bs eos => .next { s with inp := { bytes := bs, eos := eos } }
  | .outCapacity cap => outputCapacity cap s
  | .outAnswers k => .next { s with out := { s.out with answers := k } }

/-- One step: the next event, or, with none scheduled, the TSCU runs its command (log 1). -/
def advance (s : State) : Host.Outcome State Fault Refusal :=
  match s.agenda with
  | [] => handleEvent .run s
  | e :: rest => handleEvent e { s with agenda := rest }

/-- The command word of `withFetchWord`, issued with the TSCU idle or not, and run at the next step (log 22). -/
def State.withCommand (v : Word) (s : State) : State :=
  let t := s.issue v
  { t with agenda := .run :: t.agenda }

/-- The state at a packet header with `h` and 128 zero bytes next on IN: an RLE_DEC already at a header goes on; otherwise
`RLE_DEC.1 128` at address 0 is put in flight (log 22). -/
def State.withHeader (h : Byte) (s : State) : State :=
  let fresh := s.issue 0x00008017
  let t := if s.atHeader then s else { fresh with lat := { fresh.lat with base := 0 } }
  { t with
    inp := { t.inp with bytes := h :: (List.replicate 128 0 ++ t.inp.bytes) }
    agenda := .packet :: t.agenda }

end Sys2Proof.Machine
end

