-- ==== Sys2Proof/Machine/Step.lean ====
section
/-! DEFINITION. One step of the machine, and the placing of an instruction where the next step takes it. -/

namespace Sys2Proof.Machine

/-- One step (Machine/Sequencer.lean says what it does). -/
def step (s : State) : Host.Outcome State Fault Refusal := advance s

/-- The TSCU fetches nothing (R36, R65). A 32-bit instruction is the command word the host has just written to CMD; an
8-bit one is the packet header next on IN for an RLE_DEC in flight. The next step runs it (log 22). -/
def State.withFetchWord (s : State) (nbits w : Nat) : State :=
  if nbits ≤ 8 then s.withHeader (BitVec.ofNat 8 w) else s.withCommand (BitVec.ofNat 32 w)

end Sys2Proof.Machine
end

