-- ==== Sys2Proof/Machine/Functional.lean ====
section
/-! DEFINITION. The spec's functional forms of the two RLE commands, written from spec 42_rle_decode R161 and
43_rle_encode R190 and not from the machine's loops. Claims compare the commands with them. -/

namespace Sys2Proof.Machine

/-- The result of `rle_decode` (R161): the pixel bytes emitted and the number of IN bytes taken. -/
inductive Decoded where
  | ok (pixels : List Byte) (used : Nat)
  | readFailure (pixels : List Byte) (used : Nat)
deriving DecidableEq, Repr

/-- `go` of R161: `w` pixels still to emit from the bytes `s`. `fuel` bounds the packets; `w` is enough. -/
def rleDecodeFrom (p : Nat) : (fuel w : Nat) → List Byte → Nat → List Byte → Decoded
  | _, 0, _, u, acc => .ok acc u
  | 0, _ + 1, _, u, acc => .readFailure acc u
  | _ + 1, _ + 1, [], u, acc => .readFailure acc u
  | fuel + 1, w + 1, h :: s, u, acc =>
    if 128 ≤ h.toNat then
      let k := min (h.toNat - 127) (w + 1)
      if s.length < p then .readFailure acc (u + 1 + s.length)
      else
        rleDecodeFrom p fuel (w + 1 - k) (s.drop p) (u + 1 + p)
          (acc ++ (List.replicate k (s.take p)).flatten)
    else
      let k := min (h.toNat + 1) (w + 1)
      if s.length < k * p then .readFailure (acc ++ s.take (s.length / p * p)) (u + 1 + s.length)
      else rleDecodeFrom p fuel (w + 1 - k) (s.drop (k * p)) (u + 1 + k * p) (acc ++ s.take (k * p))

/-- `rle_decode(P, W, in)` (R161). -/
def rleDecode (p w : Nat) (input : List Byte) : Decoded := rleDecodeFrom p w w input 0 []

/-- Whether a differing-pixel run may cover the first `n` pixels of a row (R190). -/
def differsWithin (row : List Pixel) (n : Nat) : Bool :=
  (List.range n).all fun j => j == 0 || !(decide (j + 1 < row.length) && row[j]? == row[j + 1]?)

/-- The largest `n` in 1..min(128, |row|) that `differsWithin` admits (R190). -/
def differLength (row : List Pixel) : Nat :=
  ((List.range (min maxRun row.length + 1)).filter fun n => decide (1 ≤ n) && differsWithin row n).getLastD 0

/-- The length of the identical-pixel run a row starts with, capped at 128 (R190). -/
def sameLength (px : Pixel) (rest : List Pixel) : Nat := min maxRun (1 + (rest.takeWhile (· == px)).length)

/-- The packets `enc` of R190 divides a row into: each one's kind and the pixels it covers. `fuel` bounds the packets;
the row's length is enough. -/
def rlePacketsFrom : (fuel : Nat) → List Pixel → List (RunKind × List Pixel)
  | 0, _ => []
  | _ + 1, [] => []
  | fuel + 1, px :: rest =>
    let row := px :: rest
    if rest.head? = some px then
      let n := sameLength px rest
      (.repeated, row.take n) :: rlePacketsFrom fuel (row.drop n)
    else
      let n := differLength row
      (.direct, row.take n) :: rlePacketsFrom fuel (row.drop n)

/-- The packets of a row (R190). -/
def rlePackets (row : List Pixel) : List (RunKind × List Pixel) := rlePacketsFrom row.length row

/-- A packet on the stream: `127 + n` and the sample, or `n - 1` and the pixels (R183, R184, R190). -/
def streamBytes : RunKind × List Pixel → List Byte
  | (.repeated, run) => BitVec.ofNat 8 (127 + run.length) :: run.headD []
  | (.direct, run) => BitVec.ofNat 8 (run.length - 1) :: run.flatten

/-- `rle_encode(P, W, row)` (R190); W is the row's length. -/
def rleEncode (row : List Pixel) : List Byte := (rlePackets row).flatMap streamBytes

end Sys2Proof.Machine
end

