-- ==== Sys2Proof/Safety.lean ====
section
/-! DEFINITION. The terms claims use: the start of a command, the machine's invariant, and the end of a run with its
observation (spec 70_reset R253). -/

namespace Sys2Proof.Machine

/-- A command starts in this state: everything a CMD write clears is clear (R22, R34). Every state in
which a command has just been issued is one (`State.fresh_issue`). -/
structure State.Fresh (s : State) : Prop where
  status : s.status = Status.issued s.status.lastop
  x      : s.x = 0
  rep    : s.rep = 0
  dir    : s.dir = 0
  enc    : s.enc = { i := 0, n := 0, kind := .direct }
  part   : s.part = []
  pend   : s.pend = []
  incnt  : s.incnt = 0
  outcnt : s.outcnt = 0
  pixcnt : s.pixcnt = 0

/-- The next `k` bytes given to OUT are accepted (R53). -/
def OutPort.accepts (o : OutPort) (k : Nat) : Prop :=
  (∀ c, o.cap = some c → k ≤ c) ∧ (∀ a, o.answers = some a → k ≤ a)

/-- Of the next `k` bytes given to OUT, the first `c` are accepted and the next is refused (R53). -/
def OutPort.refusesAfter (o : OutPort) (c k : Nat) : Prop :=
  o.cap = some c ∧ c < k ∧ ∀ a, o.answers = some a → c < a

/-- OUT after it has accepted `bs` (R53). -/
def OutPort.afterSending (o : OutPort) (bs : List Byte) : OutPort :=
  { sent := o.sent ++ bs, cap := o.cap.map (· - bs.length), answers := o.answers.map (· - bs.length) }

/-- Every LB byte outside the `n` bytes from `a` reads the same in both states. -/
def sameLbOutside (a n : Nat) (s t : State) : Prop :=
  ∀ k, k < a ∨ a + n ≤ k → lbGet t.lb k = lbGet s.lb k

/-- Change the state an outcome leads to or waits in. -/
def mapStates (f : State → State) : Host.Outcome State Fault Refusal → Host.Outcome State Fault Refusal
  | .next t => .next (f t)
  | .fault (.portSilent t) => .fault (.portSilent (f t))
  | .fault r => .fault r
  | .refused r => .refused r

/-- `t` is where an outcome leads: the next state, or the state in which a silent port makes the command wait. -/
def reaches (o : Host.Outcome State Fault Refusal) (t : State) : Prop := o = .next t ∨ o = .fault (.portSilent t)

/-- The ranges of the decoder's and the copies' registers (R30, R31, R32): at most one run counter is nonzero. -/
def State.countersInRange (s : State) : Prop :=
  s.rep ≤ maxRun ∧ s.dir ≤ maxRun ∧ (s.rep = 0 ∨ s.dir = 0) ∧ s.x ≤ maxWidth ∧ s.sample.length ≤ 4

/-- The ranges of the encoder's state (R33): while a packet of RLE_ENC is being sent, its run has 1 to 128 pixels and ends
within the line of W pixels. -/
def State.encoderInRange (s : State) : Prop :=
  s.enc.i ≤ maxWidth ∧ s.enc.n ≤ maxRun ∧
    (s.lat.op = 8 → s.pend ≠ [] → 1 ≤ s.enc.n ∧ s.enc.i + s.enc.n ≤ s.lat.n.toNat)

/-- The invariant: LB keeps its canonical form and its addresses stay below LB_SIZE (R50), STATUS keeps the invariants R24
states, and the internal registers stay in range (R30 to R33). -/
structure State.Inv (s : State) : Prop where
  canonical  : s.lb.wf
  bounded    : s.lb.within s.cfg.lbSize
  consistent : s.status.consistent = true
  ranges     : s.countersInRange
  encoder    : s.encoderInRange

/-- What the host sees at the end of a run (R253). -/
structure Observation where
  lb      : Memory
  cmd     : Word
  status  : Word
  base    : Word
  result  : Word
  incnt   : Word
  outcnt  : Word
  pixcnt  : Word
  id      : Word
  inRest  : InPort
  outSent : List Byte
  ecodes  : List (BitVec 4)
deriving DecidableEq, Repr

/-- How a run stands (R249, R253). -/
inductive RunStatus where
  /-- The run goes on: its host or the environment has moves left, or the host has not read its last command's outcome. -/
  | running
  /-- The TSCU is BUSY and no step is enabled: a hang (R249). -/
  | hang
  /-- The run has reached ModelUnwrittenRead and has no end state (R229, R253). -/
  | noEndState
  /-- The run has ended with this observation. -/
  | ended (o : Observation)
deriving DecidableEq, Repr

/-- What the host sees in a state (R253): every REG register, LB, the ports and the ECODE of each command. -/
def State.visible (s : State) : Observation :=
  { lb := s.lb, cmd := regValue s 0x00, status := regValue s 0x04, base := regValue s 0x08, result := regValue s 0x0C,
    incnt := regValue s 0x10, outcnt := regValue s 0x14, pixcnt := regValue s 0x18, id := regValue s 0x1C,
    inRest := s.inp, outSent := s.out.sent, ecodes := s.ecodes }

/-- How a run stands in a state: it has ended when the host has issued its last command and has read STATUS with BUSY = 0
since (R253). -/
def State.observe (s : State) : RunStatus :=
  match step s with
  | .fault (.portSilent _) => .hang
  | .fault (.modelUnwrittenRead _) => .noEndState
  | _ => if s.agenda = [] ∧ s.status.busy = false ∧ s.outcomeRead = true then .ended s.visible else .running

end Sys2Proof.Machine
end

