-- ==== Sys2Proof/WellFormed.lean ====
section
/-! DEFINITION. Which instructions have legal operands: the table of spec 30_encoding R77, columns "PB legal" and
"N legal". (The LB range depends on BASE and is checked by the machine.) -/

namespace Sys2Proof

/-- The legal PB values (R73, R77). -/
def Instr.pbLegal : Instr → Bool
  | .le16Unpack pb _ => pb == 0
  | .le16Pack pb _ => pb == 0
  | .rawRd pb _ => 1 ≤ pb.toNat && pb.toNat ≤ 4
  | .rawWr pb _ => 1 ≤ pb.toNat && pb.toNat ≤ 4
  | .swap pb _ => pb == 3 || pb == 4
  | .expand pb _ => pb == 2
  | .rleDec pb _ => 1 ≤ pb.toNat && pb.toNat ≤ 4
  | .rleEnc pb _ => 1 ≤ pb.toNat && pb.toNat ≤ 4
  | .pktRepeat _ => true
  | .pktDirect _ => true

/-- The legal N values, given a legal PB (R74, R77). -/
def Instr.nLegal : Instr → Bool
  | .le16Unpack _ n => n == 0
  | .le16Pack _ n => n.toNat < 65536
  | .rawRd _ n => n.toNat ≤ maxWidth
  | .rawWr _ n => n.toNat ≤ maxWidth
  | .swap pb n => n.toNat % pb.toNat == 0
  | .expand _ n => n.toNat % 2 == 0
  | .rleDec _ n => n.toNat ≤ maxWidth
  | .rleEnc _ n => n.toNat ≤ maxWidth
  | .pktRepeat _ => true
  | .pktDirect _ => true

/-- An instruction with legal operands. Every packet header is one (R83). -/
def Instr.wf (i : Instr) : Bool := i.pbLegal && i.nLegal

end Sys2Proof
end

