-- ==== Sys2Proof/Certificates/Slice0/Obligations.lean ====
section
/-! DEFINITION. The statements about the TSCU. Each docstring names the rules of spec/ it formalises; where a clause is
the model's choice it names the log entry. `P` below is PB and `W` is N, as in the spec. -/

open Sys2Proof Sys2Proof.Machine

/-! ## Encodings -/

/-- Words written out in 30_encoding R85 and 95_test_vectors, and packet headers of R81 and R82, decode to what they stand
for; V-W1 and V-W4 are no commands. -/
def Obligations.SpecWordsDecode : Prop :=
  decodeCommand 0x00000001 = .ok (.le16Unpack 0 0) ∧ decodeCommand 0x0001E002 = .ok (.le16Pack 0 480) ∧
  decodeCommand 0x00000233 = .ok (.rawRd 3 2) ∧ decodeCommand 0x00000314 = .ok (.rawWr 1 3) ∧
  decodeCommand 0x00000635 = .ok (.swap 3 6) ∧ decodeCommand 0x00000226 = .ok (.expand 2 2) ∧
  decodeCommand 0x00000237 = .ok (.rleDec 3 2) ∧ decodeCommand 0x00000338 = .ok (.rleEnc 3 3) ∧
  decodeHeader 0x81 = .pktRepeat 1 ∧ decodeHeader 0xFF = .pktRepeat 127 ∧
  decodeHeader 0x00 = .pktDirect 0 ∧ decodeHeader 0x7F = .pktDirect 127 ∧
  decodeCommand 0x000000F9 = .error (.reservedOp 9) ∧ decodeCommand 0x00000197 = .error .reservedBit

/-- Decoding the encoding of an instruction gives it back, whatever its operands (R71, R76, R80). -/
def Obligations.DecodeEncodeAgree : Prop := ∀ i : Instr, decode (encode i) = .ok i

/-- Each encoding has one reading: what decodes to an instruction is that instruction's encoding (R71, R76, R80). -/
def Obligations.EncodeDecodeAgree : Prop := ∀ (e : Encoded) (i : Instr), decode e = .ok i → encode i = e

/-- R75, R78: a command in flight whose OP is reserved or whose RSV is 1 faults with Generic and does nothing else.
(`ecodes` is the model's record, log 19, of which this says nothing.) -/
def Obligations.ReservedWordsFaultGeneric : Prop :=
  ∀ s : State, s.status.busy = true → s.agenda = [] →
    s.lat.op = 0 ∨ 9 ≤ s.lat.op.toNat ∨ s.lat.rsv = true →
    ∃ record, step s = .next { s with
      status := { busy := false, done := true, err := true, ecode := 7, lastop := s.status.lastop }
      ecodes := record }

/-! ## The step -/

/-- A command in flight whose latched word decodes to `i` is run by the step as `exec i`, when the agenda is empty or
schedules a run next (R38, R87). -/
def Obligations.StepRunsLatchedCommand : Prop :=
  ∀ (s : State) (i : Instr), s.status.busy = true → decodeCommand s.lat.word = .ok i →
    (s.agenda = [] → step s = exec i s) ∧
    (∀ rest, s.agenda = .run :: rest → step s = exec i { s with agenda := rest })

/-- Where an RLE_DEC in flight reads a packet header next and the agenda schedules one packet, the step takes the header
byte from IN (R52) and runs the instruction it decodes to. That a packet can be a step of its own is the model's choice
(log 5): the spec has no packet step, and gives only what the decoder does with a header (R150, R152). -/
def Obligations.StepRunsPacketHeader : Prop :=
  ∀ (s : State) (h : Byte) (bytes : List Byte) (rest : List Event),
    s.atHeader = true → s.agenda = .packet :: rest → s.inp.bytes = h :: bytes →
    step s = exec (decodeHeader h)
      { s with agenda := rest, inp := { s.inp with bytes := bytes }, incnt := s.incnt + 1 }

/-- A command word placed by `withFetchWord` is run by the next step, from the state its CMD write leaves. What
`withFetchWord` places, on an idle or a busy TSCU, is the model's choice (log 22); the state a CMD write leaves is that of
R22, and that the word is then decoded and run is R87. -/
def Obligations.PlacedCommandRunsNext : Prop :=
  ∀ (s : State) (v : Word) (i : Instr), decodeCommand v = .ok i →
    step (s.withFetchWord 32 v.toNat) = exec i (s.issue v)

/-- The TSCU runs nothing while it is idle (R241). -/
def Obligations.IdleStepChangesNothing : Prop :=
  ∀ s : State, s.status.busy = false → s.agenda = [] → step s = .next s

/-! ## The register file -/

/-- With BUSY = 0 a 32-bit write of `v` to CMD stores and latches it, clears DONE, ERR, ECODE and the counters, sets LASTOP
and BUSY (R22); with BUSY = 1 it has no move (R245). A read of CMD returns the last word written, or 0 after reset. The
model's choices here: that the internal state a command starts with (R34) is cleared in the same step (log 28), that the
cleared run kind is `direct` (log 9), that `part` and `pend` are cleared (log 4), and the record `outcomeRead` (log 19). -/
def Obligations.CmdWriteIssuesCommand : Prop :=
  (∀ (s : State) (v : Word) (rest : List Event), s.agenda = .regWrite 0x00 4 v :: rest →
    (s.status.busy = false →
      step s = .next { s with
        agenda := rest
        cmd := v
        lat := { op := v.extractLsb' 0 4, pb := v.extractLsb' 4 3, rsv := v.getLsbD 7, n := v.extractLsb' 8 24,
                 base := s.base }
        status := { busy := true, done := false, err := false, ecode := 0, lastop := v.extractLsb' 0 4 }
        incnt := 0, outcnt := 0, pixcnt := 0
        rep := 0, dir := 0, x := 0, enc := { i := 0, n := 0, kind := .direct }, part := [], pend := []
        outcomeRead := false }) ∧
    (s.status.busy = true → step s = .refused .cmdWriteWhileBusy)) ∧
  (∀ (s : State) (rest : List Event), s.agenda = .regRead 0x00 4 :: rest →
    step s = .next { s with agenda := rest, reads := s.reads ++ [s.cmd] }) ∧
  State.reset.cmd = 0

/-- BASE is stored whole when written with BUSY = 0, is read back exactly at any time, and its write with BUSY = 1 has no
move (R23, R247, R248). -/
def Obligations.BaseIsReadWrite : Prop :=
  ∀ (s : State) (v : Word) (rest : List Event),
    (s.agenda = .regWrite 0x08 4 v :: rest →
      (s.status.busy = false → step s = .next { s with agenda := rest, base := v }) ∧
      (s.status.busy = true → step s = .refused .baseWriteWhileBusy)) ∧
    (s.agenda = .regRead 0x08 4 :: rest → step s = .next { s with agenda := rest, reads := s.reads ++ [s.base] })

/-- R29: ID reads 0x54534301 in every state, and a write of it is ignored. -/
def Obligations.IdIsHardwired : Prop :=
  ∀ (s : State) (rest : List Event),
    (s.agenda = .regRead 0x1C 4 :: rest →
      step s = .next { s with agenda := rest, reads := s.reads ++ [0x54534301] }) ∧
    (∀ v, s.agenda = .regWrite 0x1C 4 v :: rest → step s = .next { s with agenda := rest })

/-- Writes of every offset but CMD and BASE are ignored, and the reserved offsets read 0 (R21, R56). -/
def Obligations.OtherRegistersIgnoreWrites : Prop :=
  ∀ (s : State) (offset : Nat) (rest : List Event), offset % 4 = 0 → offset < 0x40 →
    (∀ v, offset ≠ 0x00 → offset ≠ 0x08 → s.agenda = .regWrite offset 4 v :: rest →
      step s = .next { s with agenda := rest }) ∧
    (0x20 ≤ offset → s.agenda = .regRead offset 4 :: rest →
      step s = .next { s with agenda := rest, reads := s.reads ++ [0] })

/-- A read of STATUS gives BUSY in bit 0, DONE in 1, ERR in 2, ECODE in 7:4, LASTOP in 11:8 and 0 elsewhere, whether or not
a command is running (R24, R248). With BUSY = 0 it is the host's reading of the outcome (R244), which the model records in
`outcomeRead` (log 19). -/
def Obligations.StatusReadShowsItsFields : Prop :=
  ∀ (s : State) (rest : List Event), s.agenda = .regRead 0x04 4 :: rest →
    ∃ w : Word,
      step s = .next { s with
        agenda := rest, reads := s.reads ++ [w], outcomeRead := s.outcomeRead || !s.status.busy } ∧
      w.getLsbD 0 = s.status.busy ∧ w.getLsbD 1 = s.status.done ∧ w.getLsbD 2 = s.status.err ∧
      w.getLsbD 3 = false ∧ w.extractLsb' 4 4 = s.status.ecode ∧ w.extractLsb' 8 4 = s.status.lastop ∧
      w.extractLsb' 12 20 = 0

/-- RESULT, INCNT, OUTCNT and PIXCNT read exactly while idle; while BUSY = 1 a read of one returns some value, bits 31:16
of RESULT staying 0 (log 11), and changes no register (R25 to R28, R248). -/
def Obligations.ResultAndCounterReads : Prop :=
  ∀ (s : State) (offset : Nat) (value : Word) (rest : List Event),
    (offset, value) ∈ [(0x0C, s.result.setWidth 32), (0x10, s.incnt), (0x14, s.outcnt), (0x18, s.pixcnt)] →
    s.agenda = .regRead offset 4 :: rest →
    (s.status.busy = false → step s = .next { s with agenda := rest, reads := s.reads ++ [value] }) ∧
    (s.status.busy = true → ∃ w : Word,
      step s = .next { s with agenda := rest, reads := s.reads ++ [w], draws := s.draws + 1 } ∧
      (offset = 0x0C → w.extractLsb' 16 16 = 0))

/-- R245, R246, R247, R249: while BUSY = 1 the host has no write of CMD or BASE and no LB access; a REG access that is not
32 bits wide at a multiple of 4 has no move at any time. -/
def Obligations.HostDutiesHaveNoMove : Prop :=
  (∀ (s : State) (rest : List Event), s.status.busy = true →
    (∀ v, s.agenda = .regWrite 0x00 4 v :: rest → step s = .refused .cmdWriteWhileBusy) ∧
    (∀ v, s.agenda = .regWrite 0x08 4 v :: rest → step s = .refused .baseWriteWhileBusy) ∧
    (∀ a, s.agenda = .lbRead a :: rest → step s = .refused .lbAccessWhileBusy) ∧
    (∀ a b, s.agenda = .lbWrite a b :: rest → step s = .refused .lbAccessWhileBusy)) ∧
  (∀ (s : State) (rest : List Event) (offset width : Nat), width ≠ 4 ∨ offset % 4 ≠ 0 →
    (s.agenda = .regRead offset width :: rest → step s = .refused .regAccessForm) ∧
    (∀ v, s.agenda = .regWrite offset width v :: rest → step s = .refused .regAccessForm))

/-- With BUSY = 0 a host write of an LB byte below LB_SIZE changes that byte alone, and a host read after it returns the
byte written there, the old byte elsewhere, and some byte, which stays UNWRITTEN, where none has been written (R50, R67). -/
def Obligations.HostLbWriteThenRead : Prop :=
  ∀ (s : State) (a k : Nat) (b : Byte) (rest : List Event), s.status.busy = false → a < s.cfg.lbSize → k < s.cfg.lbSize →
    s.agenda = .lbWrite a b :: .lbRead k :: rest →
    ∃ t u : State, step s = .next t ∧ step t = .next u ∧ u.lb = t.lb ∧ u.agenda = rest ∧
      lbGet t.lb a = some b ∧ (∀ j, j ≠ a → lbGet t.lb j = lbGet s.lb j) ∧
      (k = a → u.reads = s.reads ++ [b.setWidth 32]) ∧
      (∀ c : Byte, k ≠ a → lbGet s.lb k = some c → u.reads = s.reads ++ [c.setWidth 32]) ∧
      (k ≠ a → lbGet s.lb k = none → ∃ c : Byte, u.reads = s.reads ++ [c.setWidth 32])

/-! ## Reset and invariants -/

/-- R240: a reset while powered gives every register and the internal state the value of R40, keeps the ports, keeps LB
when no command is in flight or the abandoned one uses no LB, and otherwise makes exactly the abandoned command's LB range
UNWRITTEN: the len of R77 for its OP, PB and N. A reserved OP has none; that an illegal PB or N, or RSV = 1, does not shrink
the range is the model's reading, log 13. (`sample`, which R40 leaves
unspecified, is not spoken of.) -/
def Obligations.ResetWhilePowered : Prop :=
  ∀ (s : State) (rest : List Event), s.agenda = .reset :: rest →
    ∃ t : State, step s = .next t ∧
      t.cmd = 0 ∧ t.status = { busy := false, done := false, err := false, ecode := 0, lastop := 0 } ∧ t.base = 0 ∧
      t.result = 0 ∧ t.incnt = 0 ∧ t.outcnt = 0 ∧ t.pixcnt = 0 ∧
      t.lat = { op := 0, pb := 0, rsv := false, n := 0, base := 0 } ∧
      t.rep = 0 ∧ t.dir = 0 ∧ t.x = 0 ∧ t.enc.i = 0 ∧ t.enc.n = 0 ∧
      t.inp = s.inp ∧ t.out = s.out ∧ t.cfg = s.cfg ∧ t.agenda = rest ∧
      (s.status.busy = false → t.lb = s.lb) ∧
      (s.status.busy = true → opTable s.lat.op s.lat.pb s.lat.n = none → ∀ k, lbGet t.lb k = lbGet s.lb k) ∧
      (∀ i, s.status.busy = true → opTable s.lat.op s.lat.pb s.lat.n = some i → lbLength i = none →
        ∀ k, lbGet t.lb k = lbGet s.lb k) ∧
      (∀ i len, s.status.busy = true → opTable s.lat.op s.lat.pb s.lat.n = some i → lbLength i = some len →
        ∀ k, lbGet t.lb k = if s.lat.base.toNat ≤ k ∧ k < s.lat.base.toNat + len then none else lbGet s.lb k)

/-- The registers and LB after a power-on reset, in State.reset and by the event (R40). -/
def Obligations.PowerOnResetValues : Prop :=
  (State.reset.cmd = 0 ∧ State.reset.status.word = 0 ∧ State.reset.base = 0 ∧ State.reset.result = 0 ∧
    State.reset.incnt = 0 ∧ State.reset.outcnt = 0 ∧ State.reset.pixcnt = 0 ∧ State.reset.rep = 0 ∧
    State.reset.dir = 0 ∧ State.reset.x = 0 ∧ regValue State.reset 0x1C = 0x54534301 ∧
    ∀ k, lbGet State.reset.lb k = none) ∧
  (∀ (s : State) (rest : List Event), s.agenda = .powerOn :: rest →
    ∃ t : State, step s = .next t ∧ t.cmd = 0 ∧ t.status.word = 0 ∧ t.base = 0 ∧ t.result = 0 ∧ t.incnt = 0 ∧
      t.outcnt = 0 ∧ t.pixcnt = 0 ∧ t.inp = s.inp ∧ t.out = s.out ∧ ∀ k, lbGet t.lb k = none)

/-- The invariant holds at reset. -/
def Obligations.ResetMeetsInv : Prop := State.reset.Inv

/-- Every step keeps the invariant: LB canonical and below LB_SIZE (R50), the STATUS invariants of R24, the ranges of the
run counters, the sample, the position and the encoder's state (R30 to R33). -/
def Obligations.StepKeepsInv : Prop := ∀ s t : State, s.Inv → step s = .next t → t.Inv

/-- LB_SIZE is no state: no step changes it (R6, R20). -/
def Obligations.StepKeepsConfig : Prop := ∀ s t : State, step s = .next t → t.cfg = s.cfg

/-- STATUS changes only by a CMD write, by the end of a command, normal or by a fault, and by reset (R24, R37, R213,
R214). -/
def Obligations.StatusChangesOnlyByIssueEndReset : Prop :=
  ∀ s t : State, step s = .next t →
    t.status = s.status ∨
    (s.status.busy = false ∧ ∃ v rest, s.agenda = .regWrite 0x00 4 v :: rest ∧
      t.status = { busy := true, done := false, err := false, ecode := 0, lastop := v.extractLsb' 0 4 }) ∨
    (s.status.busy = true ∧ t.status = { s.status with busy := false, done := true }) ∨
    (s.status.busy = true ∧ ∃ k : ErrorKind, k ≠ .openFailure ∧ k ≠ .seekFailure ∧
      t.status = { s.status with busy := false, done := true, err := true, ecode := k.code }) ∨
    (∃ rest, (s.agenda = .reset :: rest ∨ s.agenda = .powerOn :: rest) ∧
      t.status = { busy := false, done := false, err := false, ecode := 0, lastop := 0 })

/-! ## Frames -/

/-- What running an instruction never changes, whether it ends, faults or waits for a port: CMD, BASE, the latched command, LASTOP, the
configuration and the host's side, for all; RESULT but for LE16_UNPACK; IN but for the four that read it; OUT but for the
three that write it; LB (all of it) for the four that store nothing; PIXCNT for the LE16 commands; and the internal
registers each instruction has no use for (R23, R25 to R28, R30 to R33, R51, R103, R104, R122, R180). -/
def Obligations.ExecFrame : Prop :=
  ∀ (i : Instr) (s t : State), reaches (exec i s) t →
    t.cfg = s.cfg ∧ t.cmd = s.cmd ∧ t.base = s.base ∧ t.lat = s.lat ∧ t.agenda = s.agenda ∧ t.reads = s.reads ∧
    t.status.lastop = s.status.lastop ∧ t.outcomeRead = s.outcomeRead ∧
    ((∀ pb n, i ≠ .le16Unpack pb n) → t.result = s.result) ∧
    (∀ pb n, i = .le16Unpack pb n →
      t.lb = s.lb ∧ t.out = s.out ∧ t.outcnt = s.outcnt ∧ t.pixcnt = s.pixcnt ∧ t.pend = s.pend ∧
      t.rep = s.rep ∧ t.dir = s.dir ∧ t.sample = s.sample ∧ t.x = s.x ∧ t.enc = s.enc ∧ t.draws = s.draws) ∧
    (∀ pb n, i = .le16Pack pb n →
      t.lb = s.lb ∧ t.inp = s.inp ∧ t.incnt = s.incnt ∧ t.pixcnt = s.pixcnt ∧ t.part = s.part ∧
      t.rep = s.rep ∧ t.dir = s.dir ∧ t.sample = s.sample ∧ t.x = s.x ∧ t.enc = s.enc ∧ t.draws = s.draws) ∧
    (∀ pb n, i = .rawRd pb n →
      t.out = s.out ∧ t.outcnt = s.outcnt ∧ t.pend = s.pend ∧
      t.rep = s.rep ∧ t.dir = s.dir ∧ t.sample = s.sample ∧ t.enc = s.enc) ∧
    (∀ pb n, i = .rawWr pb n →
      t.lb = s.lb ∧ t.inp = s.inp ∧ t.incnt = s.incnt ∧ t.part = s.part ∧
      t.rep = s.rep ∧ t.dir = s.dir ∧ t.sample = s.sample ∧ t.enc = s.enc ∧ t.draws = s.draws) ∧
    (∀ pb n, i = .swap pb n ∨ i = .expand pb n →
      t.inp = s.inp ∧ t.incnt = s.incnt ∧ t.out = s.out ∧ t.outcnt = s.outcnt ∧ t.part = s.part ∧ t.pend = s.pend ∧
      t.rep = s.rep ∧ t.dir = s.dir ∧ t.sample = s.sample ∧ t.x = s.x ∧ t.enc = s.enc ∧ t.draws = s.draws) ∧
    (∀ pb n c, i = .rleDec pb n ∨ i = .pktRepeat c ∨ i = .pktDirect c →
      t.out = s.out ∧ t.outcnt = s.outcnt ∧ t.pend = s.pend ∧ t.enc = s.enc) ∧
    (∀ pb n, i = .rleEnc pb n →
      t.lb = s.lb ∧ t.inp = s.inp ∧ t.incnt = s.incnt ∧ t.part = s.part ∧
      t.rep = s.rep ∧ t.dir = s.dir ∧ t.sample = s.sample ∧ t.x = s.x ∧ t.draws = s.draws)

/-- A command changes no LB byte outside the range R77 gives it, from its latched base; a packet none outside the range of
the RLE_DEC it belongs to (R58, R77, R121, R124, R127, R157). -/
def Obligations.StoresStayInRange : Prop :=
  ∀ (i : Instr) (s t : State), reaches (exec i s) t →
    (∀ len, lbLength i = some len → sameLbOutside s.lat.base.toNat len s t) ∧
    (∀ c, i = .pktRepeat c ∨ i = .pktDirect c →
      sameLbOutside s.lat.base.toNat (s.lat.n.toNat * s.lat.pb.toNat) s t)

/-- INCNT counts the bytes taken from IN, which leave its front in order, and OUTCNT those given to OUT, which follow the
earlier ones, for every instruction, also one that faults or waits (R26, R27, R52, R53). -/
def Obligations.PortBytesAreCounted : Prop :=
  ∀ (i : Instr) (s t : State), reaches (exec i s) t →
    ∃ taken given : List Byte,
      s.inp.bytes = taken ++ t.inp.bytes ∧ t.inp.eos = s.inp.eos ∧
      t.incnt = s.incnt + BitVec.ofNat 32 taken.length ∧
      t.out.sent = s.out.sent ++ given ∧ t.outcnt = s.outcnt + BitVec.ofNat 32 given.length

/-- R38: the running command reads only the latched values, never REG.CMD or REG.BASE: with others there it does the
same. -/
def Obligations.CommandReadsOnlyLatchedValues : Prop :=
  ∀ (i : Instr) (s : State) (c b : Word),
    exec i { s with cmd := c, base := b } = mapStates (fun t => { t with cmd := c, base := b }) (exec i s)

/-! ## Faults and completion -/

/-- R213 and the codes of R211: `raise Fault(kind)` sets ECODE, ERR and DONE and clears BUSY, and changes no other register,
no LB byte and no port; the codes are 1 to 7 in the order of the kinds; the TSCU then does nothing of itself.
(`ecodes` is the model's record, log 19, of which this says nothing.) -/
def Obligations.FaultEntry : Prop :=
  (∀ (k : ErrorKind) (s : State), ∃ record,
    s.raiseFault k = { s with
      status := { busy := false, done := true, err := true, ecode := k.code, lastop := s.status.lastop }
      ecodes := record }) ∧
  [ErrorKind.outOfMemory, .openFailure, .seekFailure, .readFailure, .writeFailure, .unsupportedSubFormat, .generic].map
    (fun k => k.code.toNat) = [1, 2, 3, 4, 5, 6, 7] ∧
  (∀ (k : ErrorKind) (s : State), s.agenda = [] → step (s.raiseFault k) = .next (s.raiseFault k))

/-- R214: normal completion clears BUSY and sets DONE; ERR and ECODE stay (0, as the CMD write left them) and so do the
counters. (`ecodes` is the model's record, log 19, of which this says nothing.) -/
def Obligations.NormalCompletion : Prop :=
  ∀ s : State,
    (∃ record, s.finish = { s with
      status := { busy := false, done := true, err := s.status.err, ecode := s.status.ecode, lastop := s.status.lastop }
      ecodes := record }) ∧
    (s.Inv → s.status.busy = true → s.finish.status.err = false ∧ s.finish.status.ecode = 0)

/-- R77, R58: the fault of each illegal PB, illegal N and LB range past LB_SIZE, in the order PB, N, range; nothing else
happens. -/
def Obligations.OperandFaults : Prop :=
  ∀ (s : State) (pb : BitVec 3) (n : BitVec 24),
    (∀ i ∈ [Instr.rawRd pb n, .rawWr pb n, .rleDec pb n, .rleEnc pb n],
      (pb.toNat < 1 ∨ 4 < pb.toNat → exec i s = .next (s.raiseFault .unsupportedSubFormat)) ∧
      (1 ≤ pb.toNat → pb.toNat ≤ 4 → 65535 < n.toNat → exec i s = .next (s.raiseFault .generic)) ∧
      (1 ≤ pb.toNat → pb.toNat ≤ 4 → n.toNat ≤ 65535 → s.cfg.lbSize < s.lat.base.toNat + n.toNat * pb.toNat →
        exec i s = .next (s.raiseFault .outOfMemory))) ∧
    (pb ≠ 3 → pb ≠ 4 → exec (.swap pb n) s = .next (s.raiseFault .unsupportedSubFormat)) ∧
    (pb = 3 ∨ pb = 4 → n.toNat % pb.toNat ≠ 0 → exec (.swap pb n) s = .next (s.raiseFault .generic)) ∧
    (pb = 3 ∨ pb = 4 → n.toNat % pb.toNat = 0 → s.cfg.lbSize < s.lat.base.toNat + n.toNat →
      exec (.swap pb n) s = .next (s.raiseFault .outOfMemory)) ∧
    (pb ≠ 2 → exec (.expand pb n) s = .next (s.raiseFault .unsupportedSubFormat)) ∧
    (pb = 2 → n.toNat % 2 ≠ 0 → exec (.expand pb n) s = .next (s.raiseFault .generic)) ∧
    (pb = 2 → n.toNat % 2 = 0 → s.cfg.lbSize < s.lat.base.toNat + 3 * n.toNat / 2 →
      exec (.expand pb n) s = .next (s.raiseFault .outOfMemory)) ∧
    (pb ≠ 0 ∨ n ≠ 0 → exec (.le16Unpack pb n) s = .next (s.raiseFault .generic)) ∧
    (pb ≠ 0 ∨ 65536 ≤ n.toNat → exec (.le16Pack pb n) s = .next (s.raiseFault .generic))

/-! ## The 16-bit codec -/

/-- R100, R101, R102: the two functions, and that each undoes the other. -/
def Obligations.Le16CodecFunctions : Prop :=
  (∀ b0 b1 : Byte, (le16Unpack b0 b1).toNat = b0.toNat + 256 * b1.toNat) ∧
  (∀ v : BitVec 16, le16Pack v = [BitVec.ofNat 8 (v.toNat % 256), BitVec.ofNat 8 (v.toNat / 256)]) ∧
  (∀ v : BitVec 16, ∀ b0 b1 : Byte, le16Pack v = [b0, b1] → le16Unpack b0 b1 = v) ∧
  (∀ b0 b1 : Byte, le16Pack (le16Unpack b0 b1) = [b0, b1])

/-- R103: LE16_UNPACK takes two bytes and puts their value in RESULT; at EOS after none or one it is a ReadFailure with the
bytes taken gone and RESULT kept; with PB or N nonzero it is Generic; its only legal word is 0x00000001. (`part` is the
model's buffer of bytes taken, log 4, of which this says nothing after a fault.) -/
def Obligations.Le16UnpackResult : Prop :=
  (∀ (pb : BitVec 3) (n : BitVec 24), (Instr.le16Unpack pb n).wf = true → encode (.le16Unpack pb n) = .cmd32 0x00000001) ∧
  (∀ (s : State) (b0 b1 : Byte) (rest : List Byte), s.Fresh → s.inp.bytes = b0 :: b1 :: rest →
    exec (.le16Unpack 0 0) s = .next { s with
      inp := { s.inp with bytes := rest }
      incnt := 2
      result := BitVec.ofNat 16 (b0.toNat + 256 * b1.toNat) }.finish) ∧
  (∀ s : State, s.Fresh → s.inp.eos = true → s.inp.bytes = [] →
    exec (.le16Unpack 0 0) s = .next (s.raiseFault .readFailure)) ∧
  (∀ (s : State) (b : Byte), s.Fresh → s.inp.eos = true → s.inp.bytes = [b] →
    ∃ buffer, exec (.le16Unpack 0 0) s = .next ({ s with
      inp := { s.inp with bytes := [] }, incnt := 1, part := buffer }.raiseFault .readFailure)) ∧
  (∀ (s : State) (pb : BitVec 3) (n : BitVec 24), pb ≠ 0 ∨ n ≠ 0 →
    exec (.le16Unpack pb n) s = .next (s.raiseFault .generic))

/-- R104: LE16_PACK gives the low and then the high byte of N[15:0] to OUT; if OUT refuses the first or the second it is a
WriteFailure with the byte before it written; with PB or N[23:16] nonzero it is Generic; its word is 2 | v << 8. -/
def Obligations.Le16PackResult : Prop :=
  (∀ v : BitVec 16, encode (.le16Pack 0 (v.setWidth 24)) = .cmd32 (0x00000002 ||| v.setWidth 32 <<< 8)) ∧
  (∀ (s : State) (v : BitVec 16), s.Fresh → s.out.accepts 2 →
    exec (.le16Pack 0 (v.setWidth 24)) s = .next { s with
      out := s.out.afterSending [v.extractLsb' 0 8, v.extractLsb' 8 8]
      outcnt := 2 }.finish) ∧
  (∀ (s : State) (v : BitVec 16) (c : Nat), s.Fresh → s.out.refusesAfter c 2 →
    ∃ o : OutPort, o.sent = s.out.sent ++ [v.extractLsb' 0 8, v.extractLsb' 8 8].take c ∧
      exec (.le16Pack 0 (v.setWidth 24)) s =
        .next ({ s with out := o, outcnt := BitVec.ofNat 32 c }.raiseFault .writeFailure)) ∧
  (∀ (s : State) (pb : BitVec 3) (n : BitVec 24), pb ≠ 0 ∨ 65536 ≤ n.toNat →
    exec (.le16Pack pb n) s = .next (s.raiseFault .generic))

/-! ## The transcoder -/

/-- RAW_RD with its operands legal and its bytes on IN copies them to LB in order and ends: INCNT = W × P, PIXCNT = W, and
nothing else changes (R120, R121). -/
def Obligations.RawRdCopies : Prop :=
  ∀ (s : State) (pb : BitVec 3) (n : BitVec 24), s.Fresh → s.lb.wf → (Instr.rawRd pb n).wf = true →
    s.lat.base.toNat + n.toNat * pb.toNat ≤ s.cfg.lbSize → n.toNat * pb.toNat ≤ s.inp.bytes.length →
    exec (.rawRd pb n) s = .next { s with
      inp := { s.inp with bytes := s.inp.bytes.drop (n.toNat * pb.toNat) }
      incnt := BitVec.ofNat 32 (n.toNat * pb.toNat)
      x := n.toNat
      pixcnt := BitVec.ofNat 32 n.toNat
      lb := lbWrite s.lb s.lat.base.toNat (s.inp.bytes.take (n.toNat * pb.toNat)) }.finish

/-- RAW_RD whose IN reaches EOS early: ReadFailure; every byte is taken and counted, the whole pixels are stored and
counted, the rest of the line's range holds some value in every byte, and no byte outside it changes (R121, R157 and 93
item 3, D23). -/
def Obligations.RawRdAtEndOfStream : Prop :=
  ∀ (s : State) (pb : BitVec 3) (n : BitVec 24), s.Fresh → (Instr.rawRd pb n).wf = true →
    s.lat.base.toNat + n.toNat * pb.toNat ≤ s.cfg.lbSize → s.inp.eos = true →
    s.inp.bytes.length < n.toNat * pb.toNat →
    ∃ t : State, exec (.rawRd pb n) s = .next t ∧ t.status = s.status.failed .readFailure ∧
      t.inp.bytes = [] ∧ t.incnt = BitVec.ofNat 32 s.inp.bytes.length ∧
      t.pixcnt = BitVec.ofNat 32 (s.inp.bytes.length / pb.toNat) ∧
      lbRead t.lb s.lat.base.toNat (s.inp.bytes.length / pb.toNat * pb.toNat) =
        .ok (s.inp.bytes.take (s.inp.bytes.length / pb.toNat * pb.toNat)) ∧
      (∀ k, s.lat.base.toNat ≤ k → k < s.lat.base.toNat + n.toNat * pb.toNat → (lbGet t.lb k).isSome = true) ∧
      sameLbOutside s.lat.base.toNat (n.toNat * pb.toNat) s t

/-- RAW_WR with its operands legal, its LB range written and OUT accepting gives the range's bytes to OUT in order and ends:
OUTCNT = W × P, PIXCNT = W, and nothing else changes (R120, R122). -/
def Obligations.RawWrCopies : Prop :=
  ∀ (s : State) (pb : BitVec 3) (n : BitVec 24) (bs : List Byte), s.Fresh → (Instr.rawWr pb n).wf = true →
    s.lat.base.toNat + n.toNat * pb.toNat ≤ s.cfg.lbSize →
    lbRead s.lb s.lat.base.toNat (n.toNat * pb.toNat) = .ok bs → s.out.accepts (n.toNat * pb.toNat) →
    exec (.rawWr pb n) s = .next { s with
      out := s.out.afterSending bs
      outcnt := BitVec.ofNat 32 (n.toNat * pb.toNat)
      x := n.toNat
      pixcnt := BitVec.ofNat 32 n.toNat }.finish

/-- RAW_WR when OUT refuses the byte after the first `c`: WriteFailure, OUTCNT = c, those `c` bytes written, PIXCNT =
floor(c / P), LB unchanged (R122). -/
def Obligations.RawWrRefused : Prop :=
  ∀ (s : State) (pb : BitVec 3) (n : BitVec 24) (bs : List Byte) (c : Nat), s.Fresh → (Instr.rawWr pb n).wf = true →
    s.lat.base.toNat + n.toNat * pb.toNat ≤ s.cfg.lbSize →
    lbRead s.lb s.lat.base.toNat (n.toNat * pb.toNat) = .ok bs → s.out.refusesAfter c (n.toNat * pb.toNat) →
    ∃ t : State, exec (.rawWr pb n) s = .next t ∧ t.status = s.status.failed .writeFailure ∧
      t.outcnt = BitVec.ofNat 32 c ∧ t.out.sent = s.out.sent ++ bs.take c ∧
      t.pixcnt = BitVec.ofNat 32 (c / pb.toNat) ∧ t.lb = s.lb

/-- R123: `swap(buf, s)` exchanges bytes 0 and 2 of every group of s bytes and keeps bytes 1 and 3. -/
def Obligations.SwapExchangesBytes0And2 : Prop :=
  ∀ (stride g : Nat) (buf : List Byte), stride = 3 ∨ stride = 4 → buf.length % stride = 0 → g * stride < buf.length →
    (swapBytes stride buf).length = buf.length ∧
    (swapBytes stride buf)[g * stride + 0]? = buf[g * stride + 2]? ∧
    (swapBytes stride buf)[g * stride + 2]? = buf[g * stride + 0]? ∧
    (swapBytes stride buf)[g * stride + 1]? = buf[g * stride + 1]? ∧
    (stride = 4 → (swapBytes stride buf)[g * stride + 3]? = buf[g * stride + 3]?)

/-- SWAP with its operands legal and its region written writes `swap` of the region over it and ends with PIXCNT = L / s,
and nothing else changes (R124). -/
def Obligations.SwapSwapsRegion : Prop :=
  ∀ (s : State) (pb : BitVec 3) (n : BitVec 24) (old : List Byte), (Instr.swap pb n).wf = true →
    s.lat.base.toNat + n.toNat ≤ s.cfg.lbSize → lbRead s.lb s.lat.base.toNat n.toNat = .ok old →
    exec (.swap pb n) s = .next { s with
      lb := lbWrite s.lb s.lat.base.toNat (swapBytes pb.toNat old)
      pixcnt := BitVec.ofNat 32 (n.toNat / pb.toNat) }.finish

/-- R125: `swap` undoes itself, and two identical SWAP commands with no LB write between them leave LB as it was. -/
def Obligations.SwapIsSelfInverse : Prop :=
  (∀ (stride : Nat) (buf : List Byte), stride = 3 ∨ stride = 4 → buf.length % stride = 0 →
    swapBytes stride (swapBytes stride buf) = buf) ∧
  (∀ (pb : BitVec 3) (n : BitVec 24) (s t u v : State), s.lb.wf →
    exec (.swap pb n) s = .next t → u.lb = t.lb → u.lat.base = s.lat.base → u.cfg = s.cfg →
    exec (.swap pb n) u = .next v → v.lb = s.lb)

/-- R128: the expansion of N bytes, N even, has exactly 3N/2 bytes, each at most 31; EXPAND writes exactly the 3N/2 bytes
from base on, each at most 31. -/
def Obligations.ExpandSizeLaw : Prop :=
  (∀ buf : List Byte, buf.length % 2 = 0 →
    (expandBytes buf).length = 3 * buf.length / 2 ∧ ∀ b ∈ expandBytes buf, b.toNat ≤ 31) ∧
  (∀ (s : State) (n : BitVec 24) (old : List Byte), n.toNat % 2 = 0 →
    s.lat.base.toNat + 3 * n.toNat / 2 ≤ s.cfg.lbSize → lbRead s.lb s.lat.base.toNat n.toNat = .ok old →
    ∃ t : State, exec (.expand 2 n) s = .next t ∧ sameLbOutside s.lat.base.toNat (3 * n.toNat / 2) s t ∧
      ∀ k, s.lat.base.toNat ≤ k → k < s.lat.base.toNat + 3 * n.toNat / 2 →
        ∃ b : Byte, lbGet t.lb k = some b ∧ b.toNat ≤ 31)

/-- The three bytes of entry k are bits 4:0, 9:5 and 14:10 of its little-endian word; bit 15 is dropped. The bit assignment
is the spec's from general knowledge (R126, D19, 93 item G1; log 14). -/
def Obligations.ExpandValues : Prop :=
  ∀ (buf : List Byte) (k : Nat) (b0 b1 : Byte), buf[2 * k]? = some b0 → buf[2 * k + 1]? = some b1 →
    (expandBytes buf)[3 * k]? = some (BitVec.ofNat 8 ((b0.toNat + 256 * b1.toNat) % 32)) ∧
    (expandBytes buf)[3 * k + 1]? = some (BitVec.ofNat 8 ((b0.toNat + 256 * b1.toNat) / 32 % 32)) ∧
    (expandBytes buf)[3 * k + 2]? = some (BitVec.ofNat 8 ((b0.toNat + 256 * b1.toNat) / 1024 % 32))

/-- EXPAND with its operands legal and its input written writes `expand` of the input from base on and ends with PIXCNT =
N / 2, and nothing else changes (R127). -/
def Obligations.ExpandExpandsRegion : Prop :=
  ∀ (s : State) (n : BitVec 24) (old : List Byte), n.toNat % 2 = 0 →
    s.lat.base.toNat + 3 * n.toNat / 2 ≤ s.cfg.lbSize → lbRead s.lb s.lat.base.toNat n.toNat = .ok old →
    exec (.expand 2 n) s = .next { s with
      lb := lbWrite s.lb s.lat.base.toNat (expandBytes old)
      pixcnt := BitVec.ofNat 32 (n.toNat / 2) }.finish

/-- A command that reads an UNWRITTEN LB byte stops in ModelUnwrittenRead at the first one: SWAP and EXPAND before they
write, RAW_WR and RLE_ENC in program order when OUT accepts what comes before, which for RLE_ENC is at most the W × (1 + P)
bytes of R84 (R67, R122, R124, R127, R180, R182, R229). -/
def Obligations.UnwrittenReadStops : Prop :=
  ∀ (s : State) (pb : BitVec 3) (n : BitVec 24) (a : Nat),
    ((Instr.swap pb n).wf = true → s.lat.base.toNat + n.toNat ≤ s.cfg.lbSize →
      lbRead s.lb s.lat.base.toNat n.toNat = .error a → exec (.swap pb n) s = .fault (.modelUnwrittenRead a)) ∧
    ((Instr.expand pb n).wf = true → s.lat.base.toNat + 3 * n.toNat / 2 ≤ s.cfg.lbSize →
      lbRead s.lb s.lat.base.toNat n.toNat = .error a → exec (.expand pb n) s = .fault (.modelUnwrittenRead a)) ∧
    (s.Fresh → (Instr.rawWr pb n).wf = true → s.lat.base.toNat + n.toNat * pb.toNat ≤ s.cfg.lbSize →
      s.out.accepts (n.toNat * pb.toNat) → lbRead s.lb s.lat.base.toNat (n.toNat * pb.toNat) = .error a →
      exec (.rawWr pb n) s = .fault (.modelUnwrittenRead a)) ∧
    (s.Fresh → (Instr.rleEnc pb n).wf = true → s.lat.base.toNat + n.toNat * pb.toNat ≤ s.cfg.lbSize →
      s.out.accepts (n.toNat * (1 + pb.toNat)) → lbRead s.lb s.lat.base.toNat (n.toNat * pb.toNat) = .error a →
      exec (.rleEnc pb n) s = .fault (.modelUnwrittenRead a))

/-! ## The RLE decoder -/

/-- PKT_REPEAT, its header just taken by an RLE_DEC with pixels left, and its sample on IN: the sample is read once, and
min(C + 1, pixels left) copies go to the line's next pixels; leftover copies are dropped, and the command ends if the line
is then complete (R81, R150, R152, R153). -/
def Obligations.RepeatPacketEmitsCopies : Prop :=
  ∀ (s : State) (c : BitVec 7), s.atHeader = true → s.lb.wf → s.lat.pb.toNat ≤ s.inp.bytes.length →
    let p := s.lat.pb.toNat
    let w := s.lat.n.toNat
    let k := min (c.toNat + 1) (w - s.x)
    let px := s.inp.bytes.take p
    let t : State := { s with
      inp := { s.inp with bytes := s.inp.bytes.drop p }
      incnt := s.incnt + BitVec.ofNat 32 p
      sample := px
      x := s.x + k
      pixcnt := BitVec.ofNat 32 (s.x + k)
      lb := lbWrite s.lb (s.lat.base.toNat + s.x * p) (List.replicate k px).flatten }
    exec (.pktRepeat c) s = .next (if s.x + k < w then t else t.finish)

/-- PKT_DIRECT, its header just taken by an RLE_DEC with pixels left, and the pixels it needs on IN: min(C + 1, pixels left)
pixels are taken and stored; no byte of a leftover pixel is taken, and the command ends if the line is then complete (R82,
R150, R152, R153). -/
def Obligations.DirectPacketCopiesPixels : Prop :=
  ∀ (s : State) (c : BitVec 7), s.atHeader = true → s.lb.wf →
    min (c.toNat + 1) (s.lat.n.toNat - s.x) * s.lat.pb.toNat ≤ s.inp.bytes.length →
    let p := s.lat.pb.toNat
    let w := s.lat.n.toNat
    let k := min (c.toNat + 1) (w - s.x)
    let t : State := { s with
      inp := { s.inp with bytes := s.inp.bytes.drop (k * p) }
      incnt := s.incnt + BitVec.ofNat 32 (k * p)
      x := s.x + k
      pixcnt := BitVec.ofNat 32 (s.x + k)
      lb := lbWrite s.lb (s.lat.base.toNat + s.x * p) (s.inp.bytes.take (k * p)) }
    exec (.pktDirect c) s = .next (if s.x + k < w then t else t.finish)

/-- A packet header is an instruction only where an RLE_DEC in flight reads one: elsewhere the model has no step for it (R80;
log 5). -/
def Obligations.PacketOutsideDecodeRefused : Prop :=
  ∀ (s : State) (c : BitVec 7), s.atHeader = false →
    exec (.pktRepeat c) s = .refused .packetOutsideDecode ∧ exec (.pktDirect c) s = .refused .packetOutsideDecode

/-- RLE_DEC is its packets: running it from a header is running the packet there and then, if it is still in flight, the
rest (R152). -/
def Obligations.DecodePacketByPacket : Prop :=
  ∀ (s : State) (h : Byte) (bytes : List Byte), s.atHeader = true → s.inp.bytes = h :: bytes →
    runLatched s =
      match exec (decodeHeader h) { s with inp := { s.inp with bytes := bytes }, incnt := s.incnt + 1 } with
      | .next t => if t.status.busy then runLatched t else .next t
      | .fault r => .fault r
      | .refused r => .refused r

/-- RLE_DEC is `rle_decode` of R161 where that succeeds: it takes exactly the bytes used, writes exactly the pixels, ends with
PIXCNT = W, and nothing else changes but the sample register (R151, R152, R154, R161). -/
def Obligations.RleDecIsRleDecode : Prop :=
  ∀ (s : State) (pb : BitVec 3) (n : BitVec 24) (px : List Byte) (used : Nat), s.Fresh → s.lb.wf →
    (Instr.rleDec pb n).wf = true → s.lat.base.toNat + n.toNat * pb.toNat ≤ s.cfg.lbSize →
    rleDecode pb.toNat n.toNat s.inp.bytes = .ok px used →
    ∃ sample : Pixel, exec (.rleDec pb n) s = .next { s with
      inp := { s.inp with bytes := s.inp.bytes.drop used }
      incnt := BitVec.ofNat 32 used
      sample := sample
      x := n.toNat
      pixcnt := BitVec.ofNat 32 n.toNat
      lb := lbWrite s.lb s.lat.base.toNat px }.finish

/-- RLE_DEC where `rle_decode` of R161 fails and EOS has been presented: ReadFailure; the bytes used are gone and counted, the
pixels done are in LB and counted, the rest of the line's range holds some value in every byte, and no byte outside it
changes (R156, R157, R161, D23). -/
def Obligations.RleDecAtEndOfStream : Prop :=
  ∀ (s : State) (pb : BitVec 3) (n : BitVec 24) (px : List Byte) (used : Nat), s.Fresh →
    (Instr.rleDec pb n).wf = true → s.lat.base.toNat + n.toNat * pb.toNat ≤ s.cfg.lbSize → s.inp.eos = true →
    rleDecode pb.toNat n.toNat s.inp.bytes = .readFailure px used →
    ∃ t : State, exec (.rleDec pb n) s = .next t ∧ t.status = s.status.failed .readFailure ∧
      t.inp.bytes = s.inp.bytes.drop used ∧ t.incnt = BitVec.ofNat 32 used ∧
      px.length % pb.toNat = 0 ∧ t.pixcnt = BitVec.ofNat 32 (px.length / pb.toNat) ∧
      lbRead t.lb s.lat.base.toNat px.length = .ok px ∧
      (∀ k, s.lat.base.toNat ≤ k → k < s.lat.base.toNat + n.toNat * pb.toNat → (lbGet t.lb k).isSome = true) ∧
      sameLbOutside s.lat.base.toNat (n.toNat * pb.toNat) s t

/-- R158, R186: with W = 0 RLE_DEC and RLE_ENC take, write and store nothing and succeed, whatever the ports present. -/
def Obligations.ZeroWidthDoesNothing : Prop :=
  ∀ (s : State) (pb : BitVec 3), s.Fresh → 1 ≤ pb.toNat → pb.toNat ≤ 4 → s.lat.base.toNat ≤ s.cfg.lbSize →
    exec (.rleDec pb 0) s = .next s.finish ∧ exec (.rleEnc pb 0) s = .next s.finish ∧
    s.incnt = 0 ∧ s.outcnt = 0 ∧ s.pixcnt = 0

/-- R159: if IN begins with packets of 1 to 128 pixels of P bytes, a repeat packet's pixels being equal, and their counts add
up to exactly W, RLE_DEC takes exactly those packets' bytes, writes their pixels and succeeds. -/
def Obligations.DecodeConsumesWholePackets : Prop :=
  ∀ (s : State) (pb : BitVec 3) (n : BitVec 24) (packets : List (RunKind × List Pixel)) (extra : List Byte), s.Fresh →
    (Instr.rleDec pb n).wf = true → s.lat.base.toNat + n.toNat * pb.toNat ≤ s.cfg.lbSize →
    (∀ kind run, (kind, run) ∈ packets →
      1 ≤ run.length ∧ run.length ≤ 128 ∧ (∀ px ∈ run, px.length = pb.toNat) ∧
      (kind = .repeated → ∀ px ∈ run, run.head? = some px)) →
    (packets.map fun k => k.2.length).sum = n.toNat →
    s.inp.bytes = packets.flatMap streamBytes ++ extra →
    ∃ t : State, exec (.rleDec pb n) s = .next t ∧ t.status = s.status.finished ∧ t.inp.bytes = extra ∧
      t.incnt = BitVec.ofNat 32 (packets.flatMap streamBytes).length ∧
      lbRead t.lb s.lat.base.toNat (n.toNat * pb.toNat) = .ok (packets.flatMap fun k => k.2.flatten)

/-! ## The RLE encoder -/

/-- RLE_ENC with its operands legal, its scanline written and OUT accepting gives `rle_encode` of R190 of the scanline to OUT
and ends with OUTCNT its length and PIXCNT = W; nothing else changes but the encoder's own registers (R180 to R185, R190,
D25). -/
def Obligations.RleEncIsRleEncode : Prop :=
  ∀ (s : State) (pb : BitVec 3) (n : BitVec 24) (row : List Pixel), s.Fresh → (Instr.rleEnc pb n).wf = true →
    s.lat.base.toNat + n.toNat * pb.toNat ≤ s.cfg.lbSize →
    row.length = n.toNat → (∀ px ∈ row, px.length = pb.toNat) →
    lbRead s.lb s.lat.base.toNat (n.toNat * pb.toNat) = .ok row.flatten → s.out.accepts (rleEncode row).length →
    ∃ (k : Nat) (kind : RunKind), exec (.rleEnc pb n) s = .next { s with
      out := s.out.afterSending (rleEncode row)
      outcnt := BitVec.ofNat 32 (rleEncode row).length
      enc := { i := n.toNat, n := k, kind := kind }
      pixcnt := BitVec.ofNat 32 n.toNat }.finish

/-- RLE_ENC when OUT refuses the byte after the first `c` of the encoding: WriteFailure, OUTCNT = c, those bytes written,
PIXCNT the pixels of the packets accepted whole, LB unchanged (R187). -/
def Obligations.RleEncRefused : Prop :=
  ∀ (s : State) (pb : BitVec 3) (n : BitVec 24) (row : List Pixel) (c : Nat), s.Fresh → (Instr.rleEnc pb n).wf = true →
    s.lat.base.toNat + n.toNat * pb.toNat ≤ s.cfg.lbSize →
    row.length = n.toNat → (∀ px ∈ row, px.length = pb.toNat) →
    lbRead s.lb s.lat.base.toNat (n.toNat * pb.toNat) = .ok row.flatten →
    s.out.refusesAfter c (rleEncode row).length →
    ∃ (t : State) (whole cut : List (RunKind × List Pixel)), exec (.rleEnc pb n) s = .next t ∧
      t.status = s.status.failed .writeFailure ∧ t.outcnt = BitVec.ofNat 32 c ∧
      t.out.sent = s.out.sent ++ (rleEncode row).take c ∧ t.lb = s.lb ∧
      rlePackets row = whole ++ cut ∧ t.pixcnt = BitVec.ofNat 32 (whole.map fun k => k.2.length).sum ∧
      (whole.flatMap streamBytes).length ≤ c ∧
      ∀ k, cut.head? = some k → c < (whole.flatMap streamBytes).length + (streamBytes k).length

/-- R189: the five properties of every encoding, over its packets: no header is 0x80; each covers 1 to 128 pixels and
together they are the row; in a direct packet no pixel equals the pixel after it in the row; a repeat packet's pixels are
equal, and one of fewer than 128 is followed by a different pixel or the end; and the length and its bounds. -/
def Obligations.EncodingProperties : Prop :=
  ∀ (p : Nat) (row : List Pixel), 1 ≤ p → (∀ px ∈ row, px.length = p) →
    (∀ k ∈ rlePackets row, (streamBytes k).head? ≠ some 0x80) ∧
    (∀ k ∈ rlePackets row, 1 ≤ k.2.length ∧ k.2.length ≤ 128) ∧
    ((rlePackets row).flatMap fun k => k.2) = row ∧
    (∀ before run after, rlePackets row = before ++ (.direct, run) :: after → ∀ j, j < run.length →
      row[(before.map fun k => k.2.length).sum + j]? ≠ row[(before.map fun k => k.2.length).sum + j + 1]?) ∧
    (∀ before run after, rlePackets row = before ++ (.repeated, run) :: after →
      (∀ px ∈ run, run.head? = some px) ∧
      (run.length < 128 → row[(before.map fun k => k.2.length).sum + run.length]? ≠ run.head?)) ∧
    (rleEncode row).length =
      ((rlePackets row).map fun k => if k.1 = .repeated then 1 + p else 1 + k.2.length * p).sum ∧
    (row ≠ [] → (row.length + 127) / 128 * (1 + p) ≤ (rleEncode row).length ∧
      (rleEncode row).length ≤ row.length * (1 + p))

/-- R188: RLE_DEC of what RLE_ENC wrote, followed by any bytes, rebuilds the scanline's bytes, takes exactly the encoding and
succeeds, wherever in LB the line is placed. -/
def Obligations.EncodeDecodeRoundTrip : Prop :=
  ∀ (pb : BitVec 3) (n : BitVec 24) (s t u : State) (line enc extra : List Byte), s.Fresh →
    lbRead s.lb s.lat.base.toNat (n.toNat * pb.toNat) = .ok line →
    exec (.rleEnc pb n) s = .next t → t.status = s.status.finished → t.out.sent = s.out.sent ++ enc →
    u.Fresh → u.lat.base.toNat + n.toNat * pb.toNat ≤ u.cfg.lbSize → u.inp.bytes = enc ++ extra →
    ∃ v : State, exec (.rleDec pb n) u = .next v ∧ v.status = u.status.finished ∧ v.inp.bytes = extra ∧
      v.incnt = BitVec.ofNat 32 enc.length ∧ lbRead v.lb u.lat.base.toNat (n.toNat * pb.toNat) = .ok line

/-! ## Waiting and the end of a run -/

/-- While a port an instruction needs is silent, its transition is not enabled: there is no next state, STATUS (BUSY with it)
is unchanged where it waits, and INCNT or OUTCNT counts what the port took or gave (R52, R53, R249, R251). Here for every
instruction that uses a port: the readers with too few bytes on IN and no EOS, the writers with a sink that falls silent after
`a` bytes. -/
def Obligations.SilentPortMakesCommandWait : Prop :=
  ∀ (s : State) (pb : BitVec 3) (n : BitVec 24),
    (s.Fresh → s.inp.eos = false → s.inp.bytes.length < 2 →
      ∃ t, exec (.le16Unpack 0 0) s = .fault (.portSilent t) ∧ t.status = s.status ∧
        t.incnt = BitVec.ofNat 32 s.inp.bytes.length) ∧
    (s.Fresh → s.inp.eos = false → (Instr.rawRd pb n).wf = true →
      s.lat.base.toNat + n.toNat * pb.toNat ≤ s.cfg.lbSize → s.inp.bytes.length < n.toNat * pb.toNat →
      ∃ t, exec (.rawRd pb n) s = .fault (.portSilent t) ∧ t.status = s.status ∧
        t.incnt = BitVec.ofNat 32 s.inp.bytes.length) ∧
    (∀ px used, s.Fresh → s.inp.eos = false → (Instr.rleDec pb n).wf = true →
      s.lat.base.toNat + n.toNat * pb.toNat ≤ s.cfg.lbSize →
      rleDecode pb.toNat n.toNat s.inp.bytes = .readFailure px used →
      ∃ t, exec (.rleDec pb n) s = .fault (.portSilent t) ∧ t.status = s.status ∧ t.incnt = BitVec.ofNat 32 used) ∧
    (∀ c : BitVec 7, s.atHeader = true → s.inp.eos = false →
      (s.inp.bytes.length < s.lat.pb.toNat →
        ∃ t, exec (.pktRepeat c) s = .fault (.portSilent t) ∧ t.status = s.status ∧
          t.incnt = s.incnt + BitVec.ofNat 32 s.inp.bytes.length) ∧
      (s.inp.bytes.length < min (c.toNat + 1) (s.lat.n.toNat - s.x) * s.lat.pb.toNat →
        ∃ t, exec (.pktDirect c) s = .fault (.portSilent t) ∧ t.status = s.status ∧
          t.incnt = s.incnt + BitVec.ofNat 32 s.inp.bytes.length)) ∧
    (∀ a, s.Fresh → s.out.answers = some a → (∀ c, s.out.cap = some c → a ≤ c) →
      ((Instr.le16Pack pb n).wf = true → a < 2 →
        ∃ t, exec (.le16Pack pb n) s = .fault (.portSilent t) ∧ t.status = s.status ∧ t.outcnt = BitVec.ofNat 32 a) ∧
      (∀ bs, (Instr.rawWr pb n).wf = true → s.lat.base.toNat + n.toNat * pb.toNat ≤ s.cfg.lbSize →
        lbRead s.lb s.lat.base.toNat (n.toNat * pb.toNat) = .ok bs → a < n.toNat * pb.toNat →
        ∃ t, exec (.rawWr pb n) s = .fault (.portSilent t) ∧ t.status = s.status ∧ t.outcnt = BitVec.ofNat 32 a) ∧
      (∀ row : List Pixel, (Instr.rleEnc pb n).wf = true → s.lat.base.toNat + n.toNat * pb.toNat ≤ s.cfg.lbSize →
        row.length = n.toNat → (∀ px ∈ row, px.length = pb.toNat) →
        lbRead s.lb s.lat.base.toNat (n.toNat * pb.toNat) = .ok row.flatten → a < (rleEncode row).length →
        ∃ t, exec (.rleEnc pb n) s = .fault (.portSilent t) ∧ t.status = s.status ∧ t.outcnt = BitVec.ofNat 32 a ∧
          t.out.sent = s.out.sent ++ (rleEncode row).take a))

/-- Waiting for input is invisible in the outcome: a command that waits and then gets `more` goes on exactly as it would have
gone with `more` there from the start (R52, R57, R251). -/
def Obligations.InputWaitResumesExactly : Prop :=
  ∀ (i : Instr) (s t : State) (more : List Byte), (∃ pb n, i ∈ [Instr.le16Unpack pb n, .rawRd pb n, .rleDec pb n]) →
    exec i s = .fault (.portSilent t) →
    exec i { t with inp := { t.inp with bytes := t.inp.bytes ++ more } } =
      exec i { s with inp := { s.inp with bytes := s.inp.bytes ++ more } }

/-- Waiting for the sink is invisible in the outcome: a command that waits, the sink silent, and then gets `b` more answers
goes on exactly as it would have gone with them from the start (R53, R57, R249, R251). -/
def Obligations.OutputWaitResumesExactly : Prop :=
  ∀ (i : Instr) (s t : State) (a b : Nat), (∃ pb n, i ∈ [Instr.le16Pack pb n, .rawWr pb n, .rleEnc pb n]) →
    s.pend = [] ∨ 0 < s.enc.n → s.out.answers = some a → exec i s = .fault (.portSilent t) →
    exec i { t with out := { t.out with answers := some b } } =
      exec i { s with out := { s.out with answers := some (a + b) } }

/-- A command in flight is one transition: where it has a next state, it has ended (R57, R251). Where a silent port does not
let it end, the transition is not enabled: with nothing scheduled or a run scheduled there is no step, and the observation
counts it as a hang (R249). Only where the agenda lets the ports show their progress does the machine go to the waiting state,
BUSY still 1 (R52, R57); that this progress is an event of its own is the model's choice (log 3). -/
def Obligations.CommandIsOneTransition : Prop :=
  ∀ (s : State) (i : Instr) (rest : List Event), s.status.busy = true → decodeCommand s.lat.word = .ok i →
    (∀ t, exec i s = .next t → t.status.busy = false) ∧
    (∀ t, s.agenda = [] → exec i s = .fault (.portSilent t) → step s = .fault (.portSilent t) ∧ s.observe = .hang) ∧
    (∀ t, s.agenda = .run :: rest → exec i { s with agenda := rest } = .fault (.portSilent t) →
      step s = .fault (.portSilent t) ∧ s.observe = .hang) ∧
    (s.agenda = .transfer :: rest →
      (∀ t, exec i { s with agenda := rest } = .fault (.portSilent t) → step s = .next t ∧ t.status = s.status) ∧
      ((∀ t, exec i { s with agenda := rest } ≠ .fault (.portSilent t)) → step s = exec i { s with agenda := rest }))

/-- A run has ended, and then shows LB, every REG register (ID with them), the ports and the ECODEs, exactly when nothing is
left on the agenda, BUSY = 0, and the host has read STATUS with BUSY = 0 since its last CMD write; a run that reaches
ModelUnwrittenRead has no end state (R253). That `outcomeRead` records that read, and is false after reset, is the model's
choice (log 19). -/
def Obligations.RunEndsWhenOutcomeIsRead : Prop :=
  (∀ (s : State) (o : Observation), s.observe = .ended o ↔
    s.agenda = [] ∧ s.status.busy = false ∧ s.outcomeRead = true ∧
      o = { lb := s.lb, cmd := s.cmd, status := s.status.word, base := s.base, result := s.result.setWidth 32,
            incnt := s.incnt, outcnt := s.outcnt, pixcnt := s.pixcnt, id := 0x54534301, inRest := s.inp,
            outSent := s.out.sent, ecodes := s.ecodes }) ∧
  (∀ (s : State) (a : Nat), step s = .fault (.modelUnwrittenRead a) → s.observe = .noEndState) ∧
  (∀ s t : State, step s = .next t → s.outcomeRead = false → t.outcomeRead = true →
    s.status.busy = false ∧ ∃ rest, s.agenda = .regRead 0x04 4 :: rest)
end

