-- ==== Sys2Proof/Laws/Decode.lean ====
section
/-! SUPPORT. The fields of a packed word and of a packet header (spec 30_encoding R71, R80). -/

namespace Sys2Proof

/-- The bits of a packed word (R71). -/
theorem getLsbD_packFields (op : BitVec 4) (pb : BitVec 3) (rsv : Bool) (n : BitVec 24) (i : Nat) :
    (packFields op pb rsv n).getLsbD i =
      if i < 4 then op.getLsbD i
      else if i - 4 < 3 then pb.getLsbD (i - 4)
      else if i - 4 - 3 < 1 then (BitVec.ofBool rsv).getLsbD (i - 4 - 3)
      else n.getLsbD (i - 4 - 3 - 1) := by
  show BitVec.getLsbD (w := 24 + 1 + 3 + 4) (((n ++ BitVec.ofBool rsv) ++ pb) ++ op) i = _
  simp only [BitVec.getLsbD_append]

/-- The bits of a packed header (R80). -/
theorem getLsbD_packHeader (t : Bool) (c : BitVec 7) (i : Nat) :
    (packHeader t c).getLsbD i = if i < 7 then c.getLsbD i else (BitVec.ofBool t).getLsbD (i - 7) := by
  show BitVec.getLsbD (w := 1 + 7) (BitVec.ofBool t ++ c) i = _
  simp only [BitVec.getLsbD_append]

theorem fieldOp_packFields (op : BitVec 4) (pb : BitVec 3) (rsv : Bool) (n : BitVec 24) :
    fieldOp (packFields op pb rsv n) = op := by
  apply BitVec.eq_of_getLsbD_eq
  intro i hi
  have h : i < 4 := hi
  simp [fieldOp, getLsbD_packFields, h]

theorem fieldPb_packFields (op : BitVec 4) (pb : BitVec 3) (rsv : Bool) (n : BitVec 24) :
    fieldPb (packFields op pb rsv n) = pb := by
  apply BitVec.eq_of_getLsbD_eq
  intro i hi
  have h : i < 3 := hi
  simp [fieldPb, getLsbD_packFields, h]

theorem fieldRsv_packFields (op : BitVec 4) (pb : BitVec 3) (rsv : Bool) (n : BitVec 24) :
    fieldRsv (packFields op pb rsv n) = rsv := by
  rw [fieldRsv, getLsbD_packFields]
  simp

theorem fieldN_packFields (op : BitVec 4) (pb : BitVec 3) (rsv : Bool) (n : BitVec 24) :
    fieldN (packFields op pb rsv n) = n := by
  apply BitVec.eq_of_getLsbD_eq
  intro i hi
  have h : i < 24 := hi
  have h1 : ¬ 8 + i < 4 := by omega
  have h2 : ¬ 8 + i - 4 < 3 := by omega
  have h3 : ¬ 8 + i - 4 - 3 < 1 := by omega
  have h4 : 8 + i - 4 - 3 - 1 = i := by omega
  simp [fieldN, getLsbD_packFields, h, h1, h2, h3, h4]

/-- A word is its fields (R71). -/
theorem packFields_fields (v : Word) : packFields (fieldOp v) (fieldPb v) (fieldRsv v) (fieldN v) = v := by
  apply BitVec.eq_of_getLsbD_eq
  intro i hi
  by_cases h1 : i < 4
  · simp [getLsbD_packFields, fieldOp, h1]
  · by_cases h2 : i - 4 < 3
    · have h : 4 + (i - 4) = i := by omega
      simp [getLsbD_packFields, fieldPb, h1, h2, h]
    · by_cases h3 : i - 4 - 3 < 1
      · have h : i = 7 := by omega
        subst h
        rw [getLsbD_packFields]
        simp [fieldRsv]
      · have h : 8 + (i - 4 - 3 - 1) = i := by omega
        have h4 : i - 4 - 3 - 1 < 24 := by omega
        simp [getLsbD_packFields, fieldN, h1, h2, h3, h, h4]

theorem packHeader_type (t : Bool) (c : BitVec 7) : (packHeader t c).getLsbD 7 = t := by
  rw [getLsbD_packHeader]
  simp

theorem packHeader_msb (t : Bool) (c : BitVec 7) : (packHeader t c)[7] = t :=
  packHeader_type t c

theorem packHeader_count (t : Bool) (c : BitVec 7) : (packHeader t c).extractLsb' 0 7 = c := by
  apply BitVec.eq_of_getLsbD_eq
  intro i hi
  have h : i < 7 := hi
  simp [getLsbD_packHeader, h]

/-- A header is its type and its count field (R80). -/
theorem packHeader_fields (h : Byte) : packHeader (h.getLsbD 7) (h.extractLsb' 0 7) = h := by
  apply BitVec.eq_of_getLsbD_eq
  intro i hi
  by_cases h1 : i < 7
  · simp [getLsbD_packHeader, h1]
  · have h : i = 7 := by omega
    subst h
    rw [getLsbD_packHeader]
    simp

/-- The operation codes with no instruction (R78). -/
theorem opTable_eq_none (op : BitVec 4) (pb : BitVec 3) (n : BitVec 24) :
    opTable op pb n = none ↔ op.toNat = 0 ∨ 9 ≤ op.toNat := by
  have h := op.isLt
  unfold opTable
  split <;> simp_all <;> omega

/-- What a decoded command word holds (R76, R87): a defined OP, RSV clear, and the raw PB and N. -/
theorem decodeCommand_eq_ok {v : Word} {i : Instr} (h : decodeCommand v = .ok i) :
    opTable (fieldOp v) (fieldPb v) (fieldN v) = some i ∧ fieldRsv v = false := by
  unfold decodeCommand at h
  split at h
  · exact absurd h (by simp)
  · rename_i j hj
    split at h
    · exact absurd h (by simp)
    · rename_i hr
      simp only [Except.ok.injEq] at h
      subst h
      exact ⟨hj, by simpa using hr⟩

end Sys2Proof
end

