-- ==== Sys2Proof/Laws/Memory.lean ====
section
/-! SUPPORT. The laws of the line buffer: what a read gives after a write or an erasure, that both keep the canonical
form and the bound, and that canonical memories with the same bytes are equal. -/

namespace Sys2Proof.Machine

theorem lbGet_append (m m' : Memory) (k : Nat) : lbGet (m ++ m') k = (lbGet m k).or (lbGet m' k) := by
  induction m with
  | nil => simp [lbGet]
  | cons c m ih => by_cases h : c.1 = k <;> simp [lbGet, h, ih]

theorem lbGet_filter (m : Memory) (P : Nat → Bool) (k : Nat) :
    lbGet (m.filter fun c => P c.1) k = if P k then lbGet m k else none := by
  induction m with
  | nil => simp [lbGet]
  | cons c m ih =>
    by_cases hc : P c.1 <;> by_cases h : c.1 = k <;> simp_all [lbGet]

@[simp] theorem lbGet_filter_below (m : Memory) (a k : Nat) :
    lbGet (m.filter fun c => decide (c.1 < a)) k = if k < a then lbGet m k else none := by
  simpa using lbGet_filter m (fun x => decide (x < a)) k

@[simp] theorem lbGet_filter_from (m : Memory) (a k : Nat) :
    lbGet (m.filter fun c => decide (a ≤ c.1)) k = if a ≤ k then lbGet m k else none := by
  simpa using lbGet_filter m (fun x => decide (a ≤ x)) k

theorem lbGet_cellsAt (bs : List Byte) (a k : Nat) : lbGet (cellsAt a bs) k = if a ≤ k then bs[k - a]? else none := by
  induction bs generalizing a with
  | nil => simp [cellsAt, lbGet]
  | cons b bs ih =>
    by_cases h : a = k
    · simp [cellsAt, lbGet, h]
    · simp only [cellsAt, lbGet, h, if_false, ih]
      by_cases h' : a ≤ k
      · have h1 : a + 1 ≤ k := by omega
        have h2 : k - a = (k - (a + 1)) + 1 := by omega
        simp [h', h1, h2]
      · have h1 : ¬ a + 1 ≤ k := by omega
        simp [h', h1]

/-- A write gives its bytes at its addresses and leaves every other address alone (R10). -/
theorem lbGet_lbWrite (m : Memory) (a : Nat) (bs : List Byte) (k : Nat) :
    lbGet (lbWrite m a bs) k = if a ≤ k ∧ k < a + bs.length then bs[k - a]? else lbGet m k := by
  simp only [lbWrite, lbGet_append, lbGet_filter_below, lbGet_filter_from, lbGet_cellsAt]
  by_cases h1 : k < a
  · have h2 : ¬ a ≤ k := by omega
    have h3 : ¬ a + bs.length ≤ k := by omega
    cases hg : lbGet m k <;> simp [h1, h2, h3]
  · have h2 : a ≤ k := by omega
    by_cases h3 : k < a + bs.length
    · have h4 : k - a < bs.length := by omega
      have h5 : ¬ a + bs.length ≤ k := by omega
      simp [h1, h2, h3, h4, h5]
    · have h4 : bs.length ≤ k - a := by omega
      have h5 : a + bs.length ≤ k := by omega
      simp [h1, h2, h3, h4, h5]

/-- Erasing makes the range UNWRITTEN and leaves every other address alone (R240). -/
theorem lbGet_lbErase (m : Memory) (a n k : Nat) :
    lbGet (lbErase m a n) k = if a ≤ k ∧ k < a + n then none else lbGet m k := by
  simp only [lbErase, lbGet_append, lbGet_filter_below, lbGet_filter_from]
  by_cases h1 : k < a
  · have h2 : ¬ a ≤ k := by omega
    have h3 : ¬ a + n ≤ k := by omega
    cases hg : lbGet m k <;> simp [h1, h2, h3]
  · have h2 : a ≤ k := by omega
    by_cases h3 : k < a + n
    · have h5 : ¬ a + n ≤ k := by omega
      simp [h1, h2, h3, h5]
    · have h5 : a + n ≤ k := by omega
      simp [h1, h3, h5]

theorem mem_cellsAt {bs : List Byte} {a : Nat} {c : Host.Cell} (h : c ∈ cellsAt a bs) : a ≤ c.1 ∧ c.1 < a + bs.length := by
  induction bs generalizing a with
  | nil => simp [cellsAt] at h
  | cons b bs ih =>
    rcases List.mem_cons.mp h with rfl | h
    · simp
    · have := ih h
      simp only [List.length_cons]
      omega

theorem wf_cellsAt (bs : List Byte) (a : Nat) : (cellsAt a bs).wf := by
  induction bs generalizing a with
  | nil => exact List.Pairwise.nil
  | cons b bs ih =>
    refine List.Pairwise.cons (fun c hc => ?_) (ih (a + 1))
    have := mem_cellsAt hc
    simp only at *
    omega

/-- A write keeps the canonical form. -/
theorem wf_lbWrite {m : Memory} (h : m.wf) (a : Nat) (bs : List Byte) : (lbWrite m a bs).wf := by
  unfold lbWrite Memory.wf
  rw [List.pairwise_append, List.pairwise_append]
  refine ⟨⟨h.filter _, wf_cellsAt bs a, ?_⟩, h.filter _, ?_⟩
  · intro c hc d hd
    have h1 := (List.mem_filter.mp hc).2
    have h2 := mem_cellsAt hd
    simp only [decide_eq_true_eq] at h1
    omega
  · intro c hc d hd
    have h2 := (List.mem_filter.mp hd).2
    simp only [decide_eq_true_eq] at h2
    rcases List.mem_append.mp hc with hc | hc
    · have h1 := (List.mem_filter.mp hc).2
      simp only [decide_eq_true_eq] at h1
      omega
    · have h1 := mem_cellsAt hc
      omega

/-- Erasing keeps the canonical form. -/
theorem wf_lbErase {m : Memory} (h : m.wf) (a n : Nat) : (lbErase m a n).wf := by
  unfold lbErase Memory.wf
  rw [List.pairwise_append]
  refine ⟨h.filter _, h.filter _, ?_⟩
  intro c hc d hd
  have h1 := (List.mem_filter.mp hc).2
  have h2 := (List.mem_filter.mp hd).2
  simp only [decide_eq_true_eq] at h1 h2
  omega

/-- A write below the bound keeps the bound. -/
theorem within_lbWrite {m : Memory} {size a : Nat} {bs : List Byte} (h : m.within size)
    (hb : ∀ j, j < bs.length → a + j < size) :
    (lbWrite m a bs).within size := by
  intro c hc
  rcases List.mem_append.mp hc with hc | hc
  · rcases List.mem_append.mp hc with hc | hc
    · exact h c (List.mem_filter.mp hc).1
    · have h1 := mem_cellsAt hc
      have h2 := hb (c.1 - a) (by omega)
      omega
  · exact h c (List.mem_filter.mp hc).1

/-- Erasing keeps the bound. -/
theorem within_lbErase {m : Memory} {size : Nat} (h : m.within size) (a n : Nat) : (lbErase m a n).within size := by
  intro c hc
  rcases List.mem_append.mp hc with hc | hc <;> exact h c (List.mem_filter.mp hc).1

theorem lbGet_eq_none_of_lt {m : Memory} {k : Nat} (h : ∀ c ∈ m, k < c.1) : lbGet m k = none := by
  induction m with
  | nil => rfl
  | cons c m ih =>
    have h1 := h c List.mem_cons_self
    have h2 : ¬ c.1 = k := by omega
    simp only [lbGet, h2, if_false]
    exact ih fun d hd => h d (List.mem_cons_of_mem _ hd)

/-- Canonical memories with the same bytes are the same data. -/
theorem Memory.ext_of_wf {m m' : Memory} (h : m.wf) (h' : m'.wf) (hg : ∀ k, lbGet m k = lbGet m' k) : m = m' := by
  induction m generalizing m' with
  | nil =>
    cases m' with
    | nil => rfl
    | cons c m' => simpa [lbGet] using hg c.1
  | cons c m ih =>
    cases m' with
    | nil => simpa [lbGet] using hg c.1
    | cons d m' =>
      have hm := List.pairwise_cons.mp h
      have hm' := List.pairwise_cons.mp h'
      have e1 : c.1 = d.1 := by
        rcases Nat.lt_trichotomy c.1 d.1 with hlt | heq | hlt
        · have hn : ¬ d.1 = c.1 := by omega
          have := hg c.1
          simp only [lbGet, if_true, hn, if_false] at this
          rw [lbGet_eq_none_of_lt fun e he => Nat.lt_trans hlt (hm'.1 e he)] at this
          exact absurd this (by simp)
        · exact heq
        · have hn : ¬ c.1 = d.1 := by omega
          have := hg d.1
          simp only [lbGet, if_true, hn, if_false] at this
          rw [lbGet_eq_none_of_lt fun e he => Nat.lt_trans hlt (hm.1 e he)] at this
          exact absurd this.symm (by simp)
      have e2 : c.2 = d.2 := by
        have := hg c.1
        simpa [lbGet, e1] using this
      have e : c = d := Prod.ext e1 e2
      subst e
      congr 1
      refine ih hm.2 hm'.2 fun k => ?_
      by_cases hk : c.1 = k
      · subst hk
        rw [lbGet_eq_none_of_lt hm.1, lbGet_eq_none_of_lt hm'.1]
      · simpa [lbGet, hk] using hg k

/-- A write of no byte changes nothing. -/
theorem lbWrite_nil {m : Memory} (h : m.wf) (a : Nat) : lbWrite m a [] = m := by
  refine Memory.ext_of_wf (wf_lbWrite h a []) h fun k => ?_
  rw [lbGet_lbWrite]
  simp only [List.length_nil, Nat.add_zero]
  rw [if_neg (by omega)]

/-- Two adjacent writes are one. -/
theorem lbWrite_append {m : Memory} (h : m.wf) (a : Nat) (bs cs : List Byte) :
    lbWrite (lbWrite m a bs) (a + bs.length) cs = lbWrite m a (bs ++ cs) := by
  refine Memory.ext_of_wf (wf_lbWrite (wf_lbWrite h _ _) _ _) (wf_lbWrite h _ _) fun k => ?_
  simp only [lbGet_lbWrite, List.length_append]
  by_cases h1 : a ≤ k ∧ k < a + bs.length
  · have h2 : ¬ (a + bs.length ≤ k ∧ k < a + bs.length + cs.length) := by omega
    have h3 : a ≤ k ∧ k < a + (bs.length + cs.length) := by omega
    have h4 : k - a < bs.length := by omega
    simp [h1, h2, h3, List.getElem?_append, h4]
  · by_cases h2 : a + bs.length ≤ k ∧ k < a + bs.length + cs.length
    · have h3 : a ≤ k ∧ k < a + (bs.length + cs.length) := by omega
      have h4 : ¬ k - a < bs.length := by omega
      have h5 : k - (a + bs.length) = k - a - bs.length := by omega
      simp [h2, h3, List.getElem?_append, h4, h5]
    · have h3 : ¬ (a ≤ k ∧ k < a + (bs.length + cs.length)) := by omega
      simp only [h1, h2, h3, if_false]

/-- A second write over the same range replaces the first. -/
theorem lbWrite_lbWrite_same {m : Memory} (h : m.wf) (a : Nat) (bs cs : List Byte) (hl : bs.length = cs.length) :
    lbWrite (lbWrite m a bs) a cs = lbWrite m a cs := by
  refine Memory.ext_of_wf (wf_lbWrite (wf_lbWrite h _ _) _ _) (wf_lbWrite h _ _) fun k => ?_
  simp only [lbGet_lbWrite, hl]
  by_cases h1 : a ≤ k ∧ k < a + cs.length <;> simp [h1]

/-- What a successful MemRead says, byte by byte. -/
theorem lbRead_eq_ok_iff (m : Memory) (a n : Nat) (bs : List Byte) :
    lbRead m a n = .ok bs ↔ bs.length = n ∧ ∀ j, j < n → lbGet m (a + j) = bs[j]? := by
  induction n generalizing a bs with
  | zero =>
    simp only [lbRead, Except.ok.injEq, Nat.not_lt_zero, false_implies, implies_true, and_true]
    exact ⟨fun h => by simp [← h], fun h => (List.length_eq_zero_iff.mp h).symm⟩
  | succ n ih =>
    have step : ∀ (b : Byte) (cs : List Byte),
        ((b :: cs).length = n + 1 ∧ ∀ j, j < n + 1 → lbGet m (a + j) = (b :: cs)[j]?) ↔
        lbGet m a = some b ∧ cs.length = n ∧ ∀ j, j < n → lbGet m (a + 1 + j) = cs[j]? := by
      intro b cs
      constructor
      · rintro ⟨hl, hj⟩
        refine ⟨by simpa using hj 0 (by omega), by simpa using hl, fun j h => ?_⟩
        have := hj (j + 1) (by omega)
        rw [show a + (j + 1) = a + 1 + j by omega] at this
        simpa using this
      · rintro ⟨h0, hl, hj⟩
        refine ⟨by simp [hl], fun j h => ?_⟩
        cases j with
        | zero => simpa using h0
        | succ j =>
          rw [show a + (j + 1) = a + 1 + j by omega]
          simpa using hj j (by omega)
    cases bs with
    | nil =>
      simp only [List.length_nil, Nat.right_eq_add, Nat.add_eq_zero_iff, Nat.one_ne_zero, and_false, false_and, iff_false]
      unfold lbRead
      split
      · simp
      · split <;> simp
    | cons b cs =>
      rw [step b cs, ← ih (a + 1) cs]
      generalize hr : lbRead m (a + 1) n = r
      simp only [lbRead, hr]
      cases lbGet m a <;> cases r <;> simp

/-- What a MemRead that fails says: the first UNWRITTEN address of the range (R229). -/
theorem lbRead_eq_error {m : Memory} {a n e : Nat} (h : lbRead m a n = .error e) :
    a ≤ e ∧ e < a + n ∧ lbGet m e = none ∧ ∀ k, a ≤ k → k < e → (lbGet m k).isSome := by
  induction n generalizing a with
  | zero => simp [lbRead] at h
  | succ n ih =>
    unfold lbRead at h
    split at h
    · rename_i hg
      simp only [Except.error.injEq] at h
      subst h
      exact ⟨Nat.le_refl _, by omega, hg, fun k h1 h2 => by omega⟩
    · rename_i b hg
      split at h
      · rename_i e' he
        simp only [Except.error.injEq] at h
        subst h
        have := ih he
        refine ⟨by omega, by omega, this.2.2.1, fun k h1 h2 => ?_⟩
        by_cases hk : k = a
        · simp [hk, hg]
        · exact this.2.2.2 k (by omega) h2
      · exact absurd h (by simp)

/-- A MemRead of what has just been written gives it back (R61). -/
theorem lbRead_lbWrite_same (m : Memory) (a : Nat) (bs : List Byte) :
    lbRead (lbWrite m a bs) a bs.length = .ok bs := by
  rw [lbRead_eq_ok_iff]
  refine ⟨rfl, fun j hj => ?_⟩
  rw [lbGet_lbWrite, if_pos (by omega)]
  simp

/-- A MemRead depends on its range only. -/
theorem lbRead_congr {m m' : Memory} {a n : Nat} (h : ∀ k, a ≤ k → k < a + n → lbGet m k = lbGet m' k) :
    lbRead m a n = lbRead m' a n := by
  induction n generalizing a with
  | zero => rfl
  | succ n ih =>
    have h0 := h a (Nat.le_refl _) (by omega)
    have h1 := ih (a := a + 1) fun k hk hk' => h k (by omega) (by omega)
    simp only [lbRead, h0, h1]

/-- A MemRead that fits one range is two adjacent ones. -/
theorem lbRead_append {m : Memory} {a i j : Nat} {bs cs : List Byte} (h1 : lbRead m a i = .ok bs)
    (h2 : lbRead m (a + i) j = .ok cs) : lbRead m a (i + j) = .ok (bs ++ cs) := by
  rw [lbRead_eq_ok_iff] at *
  refine ⟨by simp [h1.1, h2.1], fun k hk => ?_⟩
  by_cases hki : k < i
  · rw [h1.2 k hki, List.getElem?_append_left (by omega)]
  · have := h2.2 (k - i) (by omega)
    rw [show a + i + (k - i) = a + k by omega] at this
    rw [this, List.getElem?_append_right (by omega), h1.1]

/-- A part of a read range reads as the part of the bytes. -/
theorem lbRead_sub {m : Memory} {a n : Nat} {bs : List Byte} (h : lbRead m a n = .ok bs) {i j : Nat} (hij : i + j ≤ n) :
    lbRead m (a + i) j = .ok ((bs.drop i).take j) := by
  rw [lbRead_eq_ok_iff] at *
  refine ⟨by simp [h.1]; omega, fun k hk => ?_⟩
  have := h.2 (i + k) (by omega)
  rw [show a + i + k = a + (i + k) by omega, this]
  simp [hk]

end Sys2Proof.Machine
end

