-- ==== Sys2Proof/Laws/State.lean ====
section
/-! SUPPORT. One lemma per field per update of State, each true by rfl, so that no later proof unfolds a record update. -/

namespace Sys2Proof.Machine

/-! ## issue -/

@[simp] theorem State.issue_cfg (v : Word) (s : State) : (s.issue v).cfg = s.cfg := rfl
@[simp] theorem State.issue_cmd (v : Word) (s : State) : (s.issue v).cmd = v := rfl
@[simp] theorem State.issue_status (v : Word) (s : State) : (s.issue v).status = Status.issued (fieldOp v) := rfl
@[simp] theorem State.issue_base (v : Word) (s : State) : (s.issue v).base = s.base := rfl
@[simp] theorem State.issue_result (v : Word) (s : State) : (s.issue v).result = s.result := rfl
@[simp] theorem State.issue_incnt (v : Word) (s : State) : (s.issue v).incnt = 0 := rfl
@[simp] theorem State.issue_outcnt (v : Word) (s : State) : (s.issue v).outcnt = 0 := rfl
@[simp] theorem State.issue_pixcnt (v : Word) (s : State) : (s.issue v).pixcnt = 0 := rfl
@[simp] theorem State.issue_lat (v : Word) (s : State) : (s.issue v).lat = Latch.of v s.base := rfl
@[simp] theorem State.issue_rep (v : Word) (s : State) : (s.issue v).rep = 0 := rfl
@[simp] theorem State.issue_dir (v : Word) (s : State) : (s.issue v).dir = 0 := rfl
@[simp] theorem State.issue_sample (v : Word) (s : State) : (s.issue v).sample = s.sample := rfl
@[simp] theorem State.issue_x (v : Word) (s : State) : (s.issue v).x = 0 := rfl
@[simp] theorem State.issue_enc (v : Word) (s : State) : (s.issue v).enc = { i := 0, n := 0, kind := .direct } := rfl
@[simp] theorem State.issue_lb (v : Word) (s : State) : (s.issue v).lb = s.lb := rfl
@[simp] theorem State.issue_part (v : Word) (s : State) : (s.issue v).part = [] := rfl
@[simp] theorem State.issue_pend (v : Word) (s : State) : (s.issue v).pend = [] := rfl
@[simp] theorem State.issue_inp (v : Word) (s : State) : (s.issue v).inp = s.inp := rfl
@[simp] theorem State.issue_out (v : Word) (s : State) : (s.issue v).out = s.out := rfl
@[simp] theorem State.issue_agenda (v : Word) (s : State) : (s.issue v).agenda = s.agenda := rfl
@[simp] theorem State.issue_reads (v : Word) (s : State) : (s.issue v).reads = s.reads := rfl
@[simp] theorem State.issue_ecodes (v : Word) (s : State) : (s.issue v).ecodes = s.ecodes := rfl
@[simp] theorem State.issue_draws (v : Word) (s : State) : (s.issue v).draws = s.draws := rfl
@[simp] theorem State.issue_outcomeRead (v : Word) (s : State) : (s.issue v).outcomeRead = false := rfl

/-! ## finish -/

@[simp] theorem State.finish_cfg (s : State) : (s.finish).cfg = s.cfg := rfl
@[simp] theorem State.finish_cmd (s : State) : (s.finish).cmd = s.cmd := rfl
@[simp] theorem State.finish_status (s : State) : (s.finish).status = s.status.finished := rfl
@[simp] theorem State.finish_base (s : State) : (s.finish).base = s.base := rfl
@[simp] theorem State.finish_result (s : State) : (s.finish).result = s.result := rfl
@[simp] theorem State.finish_incnt (s : State) : (s.finish).incnt = s.incnt := rfl
@[simp] theorem State.finish_outcnt (s : State) : (s.finish).outcnt = s.outcnt := rfl
@[simp] theorem State.finish_pixcnt (s : State) : (s.finish).pixcnt = s.pixcnt := rfl
@[simp] theorem State.finish_lat (s : State) : (s.finish).lat = s.lat := rfl
@[simp] theorem State.finish_rep (s : State) : (s.finish).rep = s.rep := rfl
@[simp] theorem State.finish_dir (s : State) : (s.finish).dir = s.dir := rfl
@[simp] theorem State.finish_sample (s : State) : (s.finish).sample = s.sample := rfl
@[simp] theorem State.finish_x (s : State) : (s.finish).x = s.x := rfl
@[simp] theorem State.finish_enc (s : State) : (s.finish).enc = s.enc := rfl
@[simp] theorem State.finish_lb (s : State) : (s.finish).lb = s.lb := rfl
@[simp] theorem State.finish_part (s : State) : (s.finish).part = s.part := rfl
@[simp] theorem State.finish_pend (s : State) : (s.finish).pend = s.pend := rfl
@[simp] theorem State.finish_inp (s : State) : (s.finish).inp = s.inp := rfl
@[simp] theorem State.finish_out (s : State) : (s.finish).out = s.out := rfl
@[simp] theorem State.finish_agenda (s : State) : (s.finish).agenda = s.agenda := rfl
@[simp] theorem State.finish_reads (s : State) : (s.finish).reads = s.reads := rfl
@[simp] theorem State.finish_ecodes (s : State) : (s.finish).ecodes = s.ecodes ++ [s.status.ecode] := rfl
@[simp] theorem State.finish_draws (s : State) : (s.finish).draws = s.draws := rfl
@[simp] theorem State.finish_outcomeRead (s : State) : (s.finish).outcomeRead = s.outcomeRead := rfl

/-! ## raiseFault -/

@[simp] theorem State.raiseFault_cfg (k : ErrorKind) (s : State) : (s.raiseFault k).cfg = s.cfg := rfl
@[simp] theorem State.raiseFault_cmd (k : ErrorKind) (s : State) : (s.raiseFault k).cmd = s.cmd := rfl
@[simp] theorem State.raiseFault_status (k : ErrorKind) (s : State) : (s.raiseFault k).status = s.status.failed k := rfl
@[simp] theorem State.raiseFault_base (k : ErrorKind) (s : State) : (s.raiseFault k).base = s.base := rfl
@[simp] theorem State.raiseFault_result (k : ErrorKind) (s : State) : (s.raiseFault k).result = s.result := rfl
@[simp] theorem State.raiseFault_incnt (k : ErrorKind) (s : State) : (s.raiseFault k).incnt = s.incnt := rfl
@[simp] theorem State.raiseFault_outcnt (k : ErrorKind) (s : State) : (s.raiseFault k).outcnt = s.outcnt := rfl
@[simp] theorem State.raiseFault_pixcnt (k : ErrorKind) (s : State) : (s.raiseFault k).pixcnt = s.pixcnt := rfl
@[simp] theorem State.raiseFault_lat (k : ErrorKind) (s : State) : (s.raiseFault k).lat = s.lat := rfl
@[simp] theorem State.raiseFault_rep (k : ErrorKind) (s : State) : (s.raiseFault k).rep = s.rep := rfl
@[simp] theorem State.raiseFault_dir (k : ErrorKind) (s : State) : (s.raiseFault k).dir = s.dir := rfl
@[simp] theorem State.raiseFault_sample (k : ErrorKind) (s : State) : (s.raiseFault k).sample = s.sample := rfl
@[simp] theorem State.raiseFault_x (k : ErrorKind) (s : State) : (s.raiseFault k).x = s.x := rfl
@[simp] theorem State.raiseFault_enc (k : ErrorKind) (s : State) : (s.raiseFault k).enc = s.enc := rfl
@[simp] theorem State.raiseFault_lb (k : ErrorKind) (s : State) : (s.raiseFault k).lb = s.lb := rfl
@[simp] theorem State.raiseFault_part (k : ErrorKind) (s : State) : (s.raiseFault k).part = s.part := rfl
@[simp] theorem State.raiseFault_pend (k : ErrorKind) (s : State) : (s.raiseFault k).pend = s.pend := rfl
@[simp] theorem State.raiseFault_inp (k : ErrorKind) (s : State) : (s.raiseFault k).inp = s.inp := rfl
@[simp] theorem State.raiseFault_out (k : ErrorKind) (s : State) : (s.raiseFault k).out = s.out := rfl
@[simp] theorem State.raiseFault_agenda (k : ErrorKind) (s : State) : (s.raiseFault k).agenda = s.agenda := rfl
@[simp] theorem State.raiseFault_reads (k : ErrorKind) (s : State) : (s.raiseFault k).reads = s.reads := rfl
@[simp] theorem State.raiseFault_ecodes (k : ErrorKind) (s : State) : (s.raiseFault k).ecodes = s.ecodes ++ [k.code] := rfl
@[simp] theorem State.raiseFault_draws (k : ErrorKind) (s : State) : (s.raiseFault k).draws = s.draws := rfl
@[simp] theorem State.raiseFault_outcomeRead (k : ErrorKind) (s : State) : (s.raiseFault k).outcomeRead = s.outcomeRead := rfl

/-! ## storePixel -/

@[simp] theorem State.storePixel_cfg (p : Nat) (px : Pixel) (s : State) : (s.storePixel p px).cfg = s.cfg := rfl
@[simp] theorem State.storePixel_cmd (p : Nat) (px : Pixel) (s : State) : (s.storePixel p px).cmd = s.cmd := rfl
@[simp] theorem State.storePixel_status (p : Nat) (px : Pixel) (s : State) : (s.storePixel p px).status = s.status := rfl
@[simp] theorem State.storePixel_base (p : Nat) (px : Pixel) (s : State) : (s.storePixel p px).base = s.base := rfl
@[simp] theorem State.storePixel_result (p : Nat) (px : Pixel) (s : State) : (s.storePixel p px).result = s.result := rfl
@[simp] theorem State.storePixel_incnt (p : Nat) (px : Pixel) (s : State) : (s.storePixel p px).incnt = s.incnt := rfl
@[simp] theorem State.storePixel_outcnt (p : Nat) (px : Pixel) (s : State) : (s.storePixel p px).outcnt = s.outcnt := rfl
@[simp] theorem State.storePixel_pixcnt (p : Nat) (px : Pixel) (s : State) : (s.storePixel p px).pixcnt = BitVec.ofNat 32 (s.x + 1) := rfl
@[simp] theorem State.storePixel_lat (p : Nat) (px : Pixel) (s : State) : (s.storePixel p px).lat = s.lat := rfl
@[simp] theorem State.storePixel_rep (p : Nat) (px : Pixel) (s : State) : (s.storePixel p px).rep = s.rep := rfl
@[simp] theorem State.storePixel_dir (p : Nat) (px : Pixel) (s : State) : (s.storePixel p px).dir = s.dir := rfl
@[simp] theorem State.storePixel_sample (p : Nat) (px : Pixel) (s : State) : (s.storePixel p px).sample = s.sample := rfl
@[simp] theorem State.storePixel_x (p : Nat) (px : Pixel) (s : State) : (s.storePixel p px).x = s.x + 1 := rfl
@[simp] theorem State.storePixel_enc (p : Nat) (px : Pixel) (s : State) : (s.storePixel p px).enc = s.enc := rfl
@[simp] theorem State.storePixel_lb (p : Nat) (px : Pixel) (s : State) : (s.storePixel p px).lb = lbWrite s.lb (s.lineBase + s.x * p) px := rfl
@[simp] theorem State.storePixel_part (p : Nat) (px : Pixel) (s : State) : (s.storePixel p px).part = s.part := rfl
@[simp] theorem State.storePixel_pend (p : Nat) (px : Pixel) (s : State) : (s.storePixel p px).pend = s.pend := rfl
@[simp] theorem State.storePixel_inp (p : Nat) (px : Pixel) (s : State) : (s.storePixel p px).inp = s.inp := rfl
@[simp] theorem State.storePixel_out (p : Nat) (px : Pixel) (s : State) : (s.storePixel p px).out = s.out := rfl
@[simp] theorem State.storePixel_agenda (p : Nat) (px : Pixel) (s : State) : (s.storePixel p px).agenda = s.agenda := rfl
@[simp] theorem State.storePixel_reads (p : Nat) (px : Pixel) (s : State) : (s.storePixel p px).reads = s.reads := rfl
@[simp] theorem State.storePixel_ecodes (p : Nat) (px : Pixel) (s : State) : (s.storePixel p px).ecodes = s.ecodes := rfl
@[simp] theorem State.storePixel_draws (p : Nat) (px : Pixel) (s : State) : (s.storePixel p px).draws = s.draws := rfl
@[simp] theorem State.storePixel_outcomeRead (p : Nat) (px : Pixel) (s : State) : (s.storePixel p px).outcomeRead = s.outcomeRead := rfl

/-! ## spoilLine -/

@[simp] theorem State.spoilLine_cfg (p w : Nat) (s : State) : (s.spoilLine p w).cfg = s.cfg := rfl
@[simp] theorem State.spoilLine_cmd (p w : Nat) (s : State) : (s.spoilLine p w).cmd = s.cmd := rfl
@[simp] theorem State.spoilLine_status (p w : Nat) (s : State) : (s.spoilLine p w).status = s.status := rfl
@[simp] theorem State.spoilLine_base (p w : Nat) (s : State) : (s.spoilLine p w).base = s.base := rfl
@[simp] theorem State.spoilLine_result (p w : Nat) (s : State) : (s.spoilLine p w).result = s.result := rfl
@[simp] theorem State.spoilLine_incnt (p w : Nat) (s : State) : (s.spoilLine p w).incnt = s.incnt := rfl
@[simp] theorem State.spoilLine_outcnt (p w : Nat) (s : State) : (s.spoilLine p w).outcnt = s.outcnt := rfl
@[simp] theorem State.spoilLine_pixcnt (p w : Nat) (s : State) : (s.spoilLine p w).pixcnt = s.pixcnt := rfl
@[simp] theorem State.spoilLine_lat (p w : Nat) (s : State) : (s.spoilLine p w).lat = s.lat := rfl
@[simp] theorem State.spoilLine_rep (p w : Nat) (s : State) : (s.spoilLine p w).rep = s.rep := rfl
@[simp] theorem State.spoilLine_dir (p w : Nat) (s : State) : (s.spoilLine p w).dir = s.dir := rfl
@[simp] theorem State.spoilLine_sample (p w : Nat) (s : State) : (s.spoilLine p w).sample = s.sample := rfl
@[simp] theorem State.spoilLine_x (p w : Nat) (s : State) : (s.spoilLine p w).x = s.x := rfl
@[simp] theorem State.spoilLine_enc (p w : Nat) (s : State) : (s.spoilLine p w).enc = s.enc := rfl
@[simp] theorem State.spoilLine_lb (p w : Nat) (s : State) : (s.spoilLine p w).lb = lbWrite s.lb (s.lineBase + s.x * p) (drawBytes s.draws ((w - s.x) * p)) := rfl
@[simp] theorem State.spoilLine_part (p w : Nat) (s : State) : (s.spoilLine p w).part = s.part := rfl
@[simp] theorem State.spoilLine_pend (p w : Nat) (s : State) : (s.spoilLine p w).pend = s.pend := rfl
@[simp] theorem State.spoilLine_inp (p w : Nat) (s : State) : (s.spoilLine p w).inp = s.inp := rfl
@[simp] theorem State.spoilLine_out (p w : Nat) (s : State) : (s.spoilLine p w).out = s.out := rfl
@[simp] theorem State.spoilLine_agenda (p w : Nat) (s : State) : (s.spoilLine p w).agenda = s.agenda := rfl
@[simp] theorem State.spoilLine_reads (p w : Nat) (s : State) : (s.spoilLine p w).reads = s.reads := rfl
@[simp] theorem State.spoilLine_ecodes (p w : Nat) (s : State) : (s.spoilLine p w).ecodes = s.ecodes := rfl
@[simp] theorem State.spoilLine_draws (p w : Nat) (s : State) : (s.spoilLine p w).draws = s.draws + (w - s.x) * p := rfl
@[simp] theorem State.spoilLine_outcomeRead (p w : Nat) (s : State) : (s.spoilLine p w).outcomeRead = s.outcomeRead := rfl

/-! ## tookByte -/

@[simp] theorem State.tookByte_cfg (b : Byte) (rest : List Byte) (s : State) : (s.tookByte b rest).cfg = s.cfg := rfl
@[simp] theorem State.tookByte_cmd (b : Byte) (rest : List Byte) (s : State) : (s.tookByte b rest).cmd = s.cmd := rfl
@[simp] theorem State.tookByte_status (b : Byte) (rest : List Byte) (s : State) : (s.tookByte b rest).status = s.status := rfl
@[simp] theorem State.tookByte_base (b : Byte) (rest : List Byte) (s : State) : (s.tookByte b rest).base = s.base := rfl
@[simp] theorem State.tookByte_result (b : Byte) (rest : List Byte) (s : State) : (s.tookByte b rest).result = s.result := rfl
@[simp] theorem State.tookByte_incnt (b : Byte) (rest : List Byte) (s : State) : (s.tookByte b rest).incnt = s.incnt + 1 := rfl
@[simp] theorem State.tookByte_outcnt (b : Byte) (rest : List Byte) (s : State) : (s.tookByte b rest).outcnt = s.outcnt := rfl
@[simp] theorem State.tookByte_pixcnt (b : Byte) (rest : List Byte) (s : State) : (s.tookByte b rest).pixcnt = s.pixcnt := rfl
@[simp] theorem State.tookByte_lat (b : Byte) (rest : List Byte) (s : State) : (s.tookByte b rest).lat = s.lat := rfl
@[simp] theorem State.tookByte_rep (b : Byte) (rest : List Byte) (s : State) : (s.tookByte b rest).rep = s.rep := rfl
@[simp] theorem State.tookByte_dir (b : Byte) (rest : List Byte) (s : State) : (s.tookByte b rest).dir = s.dir := rfl
@[simp] theorem State.tookByte_sample (b : Byte) (rest : List Byte) (s : State) : (s.tookByte b rest).sample = s.sample := rfl
@[simp] theorem State.tookByte_x (b : Byte) (rest : List Byte) (s : State) : (s.tookByte b rest).x = s.x := rfl
@[simp] theorem State.tookByte_enc (b : Byte) (rest : List Byte) (s : State) : (s.tookByte b rest).enc = s.enc := rfl
@[simp] theorem State.tookByte_lb (b : Byte) (rest : List Byte) (s : State) : (s.tookByte b rest).lb = s.lb := rfl
@[simp] theorem State.tookByte_part (b : Byte) (rest : List Byte) (s : State) : (s.tookByte b rest).part = s.part ++ [b] := rfl
@[simp] theorem State.tookByte_pend (b : Byte) (rest : List Byte) (s : State) : (s.tookByte b rest).pend = s.pend := rfl
@[simp] theorem State.tookByte_inp (b : Byte) (rest : List Byte) (s : State) : (s.tookByte b rest).inp = { s.inp with bytes := rest } := rfl
@[simp] theorem State.tookByte_out (b : Byte) (rest : List Byte) (s : State) : (s.tookByte b rest).out = s.out := rfl
@[simp] theorem State.tookByte_agenda (b : Byte) (rest : List Byte) (s : State) : (s.tookByte b rest).agenda = s.agenda := rfl
@[simp] theorem State.tookByte_reads (b : Byte) (rest : List Byte) (s : State) : (s.tookByte b rest).reads = s.reads := rfl
@[simp] theorem State.tookByte_ecodes (b : Byte) (rest : List Byte) (s : State) : (s.tookByte b rest).ecodes = s.ecodes := rfl
@[simp] theorem State.tookByte_draws (b : Byte) (rest : List Byte) (s : State) : (s.tookByte b rest).draws = s.draws := rfl
@[simp] theorem State.tookByte_outcomeRead (b : Byte) (rest : List Byte) (s : State) : (s.tookByte b rest).outcomeRead = s.outcomeRead := rfl

/-! ## gaveByte -/

@[simp] theorem State.gaveByte_cfg (b : Byte) (s : State) : (s.gaveByte b).cfg = s.cfg := rfl
@[simp] theorem State.gaveByte_cmd (b : Byte) (s : State) : (s.gaveByte b).cmd = s.cmd := rfl
@[simp] theorem State.gaveByte_status (b : Byte) (s : State) : (s.gaveByte b).status = s.status := rfl
@[simp] theorem State.gaveByte_base (b : Byte) (s : State) : (s.gaveByte b).base = s.base := rfl
@[simp] theorem State.gaveByte_result (b : Byte) (s : State) : (s.gaveByte b).result = s.result := rfl
@[simp] theorem State.gaveByte_incnt (b : Byte) (s : State) : (s.gaveByte b).incnt = s.incnt := rfl
@[simp] theorem State.gaveByte_outcnt (b : Byte) (s : State) : (s.gaveByte b).outcnt = s.outcnt + 1 := rfl
@[simp] theorem State.gaveByte_pixcnt (b : Byte) (s : State) : (s.gaveByte b).pixcnt = s.pixcnt := rfl
@[simp] theorem State.gaveByte_lat (b : Byte) (s : State) : (s.gaveByte b).lat = s.lat := rfl
@[simp] theorem State.gaveByte_rep (b : Byte) (s : State) : (s.gaveByte b).rep = s.rep := rfl
@[simp] theorem State.gaveByte_dir (b : Byte) (s : State) : (s.gaveByte b).dir = s.dir := rfl
@[simp] theorem State.gaveByte_sample (b : Byte) (s : State) : (s.gaveByte b).sample = s.sample := rfl
@[simp] theorem State.gaveByte_x (b : Byte) (s : State) : (s.gaveByte b).x = s.x := rfl
@[simp] theorem State.gaveByte_enc (b : Byte) (s : State) : (s.gaveByte b).enc = s.enc := rfl
@[simp] theorem State.gaveByte_lb (b : Byte) (s : State) : (s.gaveByte b).lb = s.lb := rfl
@[simp] theorem State.gaveByte_part (b : Byte) (s : State) : (s.gaveByte b).part = s.part := rfl
@[simp] theorem State.gaveByte_pend (b : Byte) (s : State) : (s.gaveByte b).pend = s.pend := rfl
@[simp] theorem State.gaveByte_inp (b : Byte) (s : State) : (s.gaveByte b).inp = s.inp := rfl
@[simp] theorem State.gaveByte_out (b : Byte) (s : State) : (s.gaveByte b).out = { sent := s.out.sent ++ [b], cap := s.out.cap.map (· - 1), answers := s.out.answers.map (· - 1) } := rfl
@[simp] theorem State.gaveByte_agenda (b : Byte) (s : State) : (s.gaveByte b).agenda = s.agenda := rfl
@[simp] theorem State.gaveByte_reads (b : Byte) (s : State) : (s.gaveByte b).reads = s.reads := rfl
@[simp] theorem State.gaveByte_ecodes (b : Byte) (s : State) : (s.gaveByte b).ecodes = s.ecodes := rfl
@[simp] theorem State.gaveByte_draws (b : Byte) (s : State) : (s.gaveByte b).draws = s.draws := rfl
@[simp] theorem State.gaveByte_outcomeRead (b : Byte) (s : State) : (s.gaveByte b).outcomeRead = s.outcomeRead := rfl

/-! ## refusedByte -/

@[simp] theorem State.refusedByte_cfg (s : State) : (s.refusedByte).cfg = s.cfg := rfl
@[simp] theorem State.refusedByte_cmd (s : State) : (s.refusedByte).cmd = s.cmd := rfl
@[simp] theorem State.refusedByte_status (s : State) : (s.refusedByte).status = s.status := rfl
@[simp] theorem State.refusedByte_base (s : State) : (s.refusedByte).base = s.base := rfl
@[simp] theorem State.refusedByte_result (s : State) : (s.refusedByte).result = s.result := rfl
@[simp] theorem State.refusedByte_incnt (s : State) : (s.refusedByte).incnt = s.incnt := rfl
@[simp] theorem State.refusedByte_outcnt (s : State) : (s.refusedByte).outcnt = s.outcnt := rfl
@[simp] theorem State.refusedByte_pixcnt (s : State) : (s.refusedByte).pixcnt = s.pixcnt := rfl
@[simp] theorem State.refusedByte_lat (s : State) : (s.refusedByte).lat = s.lat := rfl
@[simp] theorem State.refusedByte_rep (s : State) : (s.refusedByte).rep = s.rep := rfl
@[simp] theorem State.refusedByte_dir (s : State) : (s.refusedByte).dir = s.dir := rfl
@[simp] theorem State.refusedByte_sample (s : State) : (s.refusedByte).sample = s.sample := rfl
@[simp] theorem State.refusedByte_x (s : State) : (s.refusedByte).x = s.x := rfl
@[simp] theorem State.refusedByte_enc (s : State) : (s.refusedByte).enc = s.enc := rfl
@[simp] theorem State.refusedByte_lb (s : State) : (s.refusedByte).lb = s.lb := rfl
@[simp] theorem State.refusedByte_part (s : State) : (s.refusedByte).part = s.part := rfl
@[simp] theorem State.refusedByte_pend (s : State) : (s.refusedByte).pend = s.pend := rfl
@[simp] theorem State.refusedByte_inp (s : State) : (s.refusedByte).inp = s.inp := rfl
@[simp] theorem State.refusedByte_out (s : State) : (s.refusedByte).out = { s.out with answers := s.out.answers.map (· - 1) } := rfl
@[simp] theorem State.refusedByte_agenda (s : State) : (s.refusedByte).agenda = s.agenda := rfl
@[simp] theorem State.refusedByte_reads (s : State) : (s.refusedByte).reads = s.reads := rfl
@[simp] theorem State.refusedByte_ecodes (s : State) : (s.refusedByte).ecodes = s.ecodes := rfl
@[simp] theorem State.refusedByte_draws (s : State) : (s.refusedByte).draws = s.draws := rfl
@[simp] theorem State.refusedByte_outcomeRead (s : State) : (s.refusedByte).outcomeRead = s.outcomeRead := rfl

/-! ## pixelSent -/

@[simp] theorem State.pixelSent_cfg (s : State) : (s.pixelSent).cfg = s.cfg := rfl
@[simp] theorem State.pixelSent_cmd (s : State) : (s.pixelSent).cmd = s.cmd := rfl
@[simp] theorem State.pixelSent_status (s : State) : (s.pixelSent).status = s.status := rfl
@[simp] theorem State.pixelSent_base (s : State) : (s.pixelSent).base = s.base := rfl
@[simp] theorem State.pixelSent_result (s : State) : (s.pixelSent).result = s.result := rfl
@[simp] theorem State.pixelSent_incnt (s : State) : (s.pixelSent).incnt = s.incnt := rfl
@[simp] theorem State.pixelSent_outcnt (s : State) : (s.pixelSent).outcnt = s.outcnt := rfl
@[simp] theorem State.pixelSent_pixcnt (s : State) : (s.pixelSent).pixcnt = BitVec.ofNat 32 (s.x + 1) := rfl
@[simp] theorem State.pixelSent_lat (s : State) : (s.pixelSent).lat = s.lat := rfl
@[simp] theorem State.pixelSent_rep (s : State) : (s.pixelSent).rep = s.rep := rfl
@[simp] theorem State.pixelSent_dir (s : State) : (s.pixelSent).dir = s.dir := rfl
@[simp] theorem State.pixelSent_sample (s : State) : (s.pixelSent).sample = s.sample := rfl
@[simp] theorem State.pixelSent_x (s : State) : (s.pixelSent).x = s.x + 1 := rfl
@[simp] theorem State.pixelSent_enc (s : State) : (s.pixelSent).enc = s.enc := rfl
@[simp] theorem State.pixelSent_lb (s : State) : (s.pixelSent).lb = s.lb := rfl
@[simp] theorem State.pixelSent_part (s : State) : (s.pixelSent).part = s.part := rfl
@[simp] theorem State.pixelSent_pend (s : State) : (s.pixelSent).pend = s.pend := rfl
@[simp] theorem State.pixelSent_inp (s : State) : (s.pixelSent).inp = s.inp := rfl
@[simp] theorem State.pixelSent_out (s : State) : (s.pixelSent).out = s.out := rfl
@[simp] theorem State.pixelSent_agenda (s : State) : (s.pixelSent).agenda = s.agenda := rfl
@[simp] theorem State.pixelSent_reads (s : State) : (s.pixelSent).reads = s.reads := rfl
@[simp] theorem State.pixelSent_ecodes (s : State) : (s.pixelSent).ecodes = s.ecodes := rfl
@[simp] theorem State.pixelSent_draws (s : State) : (s.pixelSent).draws = s.draws := rfl
@[simp] theorem State.pixelSent_outcomeRead (s : State) : (s.pixelSent).outcomeRead = s.outcomeRead := rfl

/-! ## packetSent -/

@[simp] theorem State.packetSent_cfg (s : State) : (s.packetSent).cfg = s.cfg := rfl
@[simp] theorem State.packetSent_cmd (s : State) : (s.packetSent).cmd = s.cmd := rfl
@[simp] theorem State.packetSent_status (s : State) : (s.packetSent).status = s.status := rfl
@[simp] theorem State.packetSent_base (s : State) : (s.packetSent).base = s.base := rfl
@[simp] theorem State.packetSent_result (s : State) : (s.packetSent).result = s.result := rfl
@[simp] theorem State.packetSent_incnt (s : State) : (s.packetSent).incnt = s.incnt := rfl
@[simp] theorem State.packetSent_outcnt (s : State) : (s.packetSent).outcnt = s.outcnt := rfl
@[simp] theorem State.packetSent_pixcnt (s : State) : (s.packetSent).pixcnt = BitVec.ofNat 32 (s.enc.i + s.enc.n) := rfl
@[simp] theorem State.packetSent_lat (s : State) : (s.packetSent).lat = s.lat := rfl
@[simp] theorem State.packetSent_rep (s : State) : (s.packetSent).rep = s.rep := rfl
@[simp] theorem State.packetSent_dir (s : State) : (s.packetSent).dir = s.dir := rfl
@[simp] theorem State.packetSent_sample (s : State) : (s.packetSent).sample = s.sample := rfl
@[simp] theorem State.packetSent_x (s : State) : (s.packetSent).x = s.x := rfl
@[simp] theorem State.packetSent_enc (s : State) : (s.packetSent).enc = { s.enc with i := s.enc.i + s.enc.n } := rfl
@[simp] theorem State.packetSent_lb (s : State) : (s.packetSent).lb = s.lb := rfl
@[simp] theorem State.packetSent_part (s : State) : (s.packetSent).part = s.part := rfl
@[simp] theorem State.packetSent_pend (s : State) : (s.packetSent).pend = s.pend := rfl
@[simp] theorem State.packetSent_inp (s : State) : (s.packetSent).inp = s.inp := rfl
@[simp] theorem State.packetSent_out (s : State) : (s.packetSent).out = s.out := rfl
@[simp] theorem State.packetSent_agenda (s : State) : (s.packetSent).agenda = s.agenda := rfl
@[simp] theorem State.packetSent_reads (s : State) : (s.packetSent).reads = s.reads := rfl
@[simp] theorem State.packetSent_ecodes (s : State) : (s.packetSent).ecodes = s.ecodes := rfl
@[simp] theorem State.packetSent_draws (s : State) : (s.packetSent).draws = s.draws := rfl
@[simp] theorem State.packetSent_outcomeRead (s : State) : (s.packetSent).outcomeRead = s.outcomeRead := rfl

/-! ## openRepeat -/

@[simp] theorem State.openRepeat_cfg (c : BitVec 7) (s : State) : (s.openRepeat c).cfg = s.cfg := rfl
@[simp] theorem State.openRepeat_cmd (c : BitVec 7) (s : State) : (s.openRepeat c).cmd = s.cmd := rfl
@[simp] theorem State.openRepeat_status (c : BitVec 7) (s : State) : (s.openRepeat c).status = s.status := rfl
@[simp] theorem State.openRepeat_base (c : BitVec 7) (s : State) : (s.openRepeat c).base = s.base := rfl
@[simp] theorem State.openRepeat_result (c : BitVec 7) (s : State) : (s.openRepeat c).result = s.result := rfl
@[simp] theorem State.openRepeat_incnt (c : BitVec 7) (s : State) : (s.openRepeat c).incnt = s.incnt := rfl
@[simp] theorem State.openRepeat_outcnt (c : BitVec 7) (s : State) : (s.openRepeat c).outcnt = s.outcnt := rfl
@[simp] theorem State.openRepeat_pixcnt (c : BitVec 7) (s : State) : (s.openRepeat c).pixcnt = s.pixcnt := rfl
@[simp] theorem State.openRepeat_lat (c : BitVec 7) (s : State) : (s.openRepeat c).lat = s.lat := rfl
@[simp] theorem State.openRepeat_rep (c : BitVec 7) (s : State) : (s.openRepeat c).rep = c.toNat + 1 := rfl
@[simp] theorem State.openRepeat_dir (c : BitVec 7) (s : State) : (s.openRepeat c).dir = 0 := rfl
@[simp] theorem State.openRepeat_sample (c : BitVec 7) (s : State) : (s.openRepeat c).sample = s.sample := rfl
@[simp] theorem State.openRepeat_x (c : BitVec 7) (s : State) : (s.openRepeat c).x = s.x := rfl
@[simp] theorem State.openRepeat_enc (c : BitVec 7) (s : State) : (s.openRepeat c).enc = s.enc := rfl
@[simp] theorem State.openRepeat_lb (c : BitVec 7) (s : State) : (s.openRepeat c).lb = s.lb := rfl
@[simp] theorem State.openRepeat_part (c : BitVec 7) (s : State) : (s.openRepeat c).part = s.part := rfl
@[simp] theorem State.openRepeat_pend (c : BitVec 7) (s : State) : (s.openRepeat c).pend = s.pend := rfl
@[simp] theorem State.openRepeat_inp (c : BitVec 7) (s : State) : (s.openRepeat c).inp = s.inp := rfl
@[simp] theorem State.openRepeat_out (c : BitVec 7) (s : State) : (s.openRepeat c).out = s.out := rfl
@[simp] theorem State.openRepeat_agenda (c : BitVec 7) (s : State) : (s.openRepeat c).agenda = s.agenda := rfl
@[simp] theorem State.openRepeat_reads (c : BitVec 7) (s : State) : (s.openRepeat c).reads = s.reads := rfl
@[simp] theorem State.openRepeat_ecodes (c : BitVec 7) (s : State) : (s.openRepeat c).ecodes = s.ecodes := rfl
@[simp] theorem State.openRepeat_draws (c : BitVec 7) (s : State) : (s.openRepeat c).draws = s.draws := rfl
@[simp] theorem State.openRepeat_outcomeRead (c : BitVec 7) (s : State) : (s.openRepeat c).outcomeRead = s.outcomeRead := rfl

/-! ## openDirect -/

@[simp] theorem State.openDirect_cfg (c : BitVec 7) (s : State) : (s.openDirect c).cfg = s.cfg := rfl
@[simp] theorem State.openDirect_cmd (c : BitVec 7) (s : State) : (s.openDirect c).cmd = s.cmd := rfl
@[simp] theorem State.openDirect_status (c : BitVec 7) (s : State) : (s.openDirect c).status = s.status := rfl
@[simp] theorem State.openDirect_base (c : BitVec 7) (s : State) : (s.openDirect c).base = s.base := rfl
@[simp] theorem State.openDirect_result (c : BitVec 7) (s : State) : (s.openDirect c).result = s.result := rfl
@[simp] theorem State.openDirect_incnt (c : BitVec 7) (s : State) : (s.openDirect c).incnt = s.incnt := rfl
@[simp] theorem State.openDirect_outcnt (c : BitVec 7) (s : State) : (s.openDirect c).outcnt = s.outcnt := rfl
@[simp] theorem State.openDirect_pixcnt (c : BitVec 7) (s : State) : (s.openDirect c).pixcnt = s.pixcnt := rfl
@[simp] theorem State.openDirect_lat (c : BitVec 7) (s : State) : (s.openDirect c).lat = s.lat := rfl
@[simp] theorem State.openDirect_rep (c : BitVec 7) (s : State) : (s.openDirect c).rep = 0 := rfl
@[simp] theorem State.openDirect_dir (c : BitVec 7) (s : State) : (s.openDirect c).dir = c.toNat + 1 := rfl
@[simp] theorem State.openDirect_sample (c : BitVec 7) (s : State) : (s.openDirect c).sample = s.sample := rfl
@[simp] theorem State.openDirect_x (c : BitVec 7) (s : State) : (s.openDirect c).x = s.x := rfl
@[simp] theorem State.openDirect_enc (c : BitVec 7) (s : State) : (s.openDirect c).enc = s.enc := rfl
@[simp] theorem State.openDirect_lb (c : BitVec 7) (s : State) : (s.openDirect c).lb = s.lb := rfl
@[simp] theorem State.openDirect_part (c : BitVec 7) (s : State) : (s.openDirect c).part = s.part := rfl
@[simp] theorem State.openDirect_pend (c : BitVec 7) (s : State) : (s.openDirect c).pend = s.pend := rfl
@[simp] theorem State.openDirect_inp (c : BitVec 7) (s : State) : (s.openDirect c).inp = s.inp := rfl
@[simp] theorem State.openDirect_out (c : BitVec 7) (s : State) : (s.openDirect c).out = s.out := rfl
@[simp] theorem State.openDirect_agenda (c : BitVec 7) (s : State) : (s.openDirect c).agenda = s.agenda := rfl
@[simp] theorem State.openDirect_reads (c : BitVec 7) (s : State) : (s.openDirect c).reads = s.reads := rfl
@[simp] theorem State.openDirect_ecodes (c : BitVec 7) (s : State) : (s.openDirect c).ecodes = s.ecodes := rfl
@[simp] theorem State.openDirect_draws (c : BitVec 7) (s : State) : (s.openDirect c).draws = s.draws := rfl
@[simp] theorem State.openDirect_outcomeRead (c : BitVec 7) (s : State) : (s.openDirect c).outcomeRead = s.outcomeRead := rfl

/-! ## endLine -/

@[simp] theorem State.endLine_cfg (s : State) : (s.endLine).cfg = s.cfg := rfl
@[simp] theorem State.endLine_cmd (s : State) : (s.endLine).cmd = s.cmd := rfl
@[simp] theorem State.endLine_status (s : State) : (s.endLine).status = s.status.finished := rfl
@[simp] theorem State.endLine_base (s : State) : (s.endLine).base = s.base := rfl
@[simp] theorem State.endLine_result (s : State) : (s.endLine).result = s.result := rfl
@[simp] theorem State.endLine_incnt (s : State) : (s.endLine).incnt = s.incnt := rfl
@[simp] theorem State.endLine_outcnt (s : State) : (s.endLine).outcnt = s.outcnt := rfl
@[simp] theorem State.endLine_pixcnt (s : State) : (s.endLine).pixcnt = s.pixcnt := rfl
@[simp] theorem State.endLine_lat (s : State) : (s.endLine).lat = s.lat := rfl
@[simp] theorem State.endLine_rep (s : State) : (s.endLine).rep = 0 := rfl
@[simp] theorem State.endLine_dir (s : State) : (s.endLine).dir = 0 := rfl
@[simp] theorem State.endLine_sample (s : State) : (s.endLine).sample = s.sample := rfl
@[simp] theorem State.endLine_x (s : State) : (s.endLine).x = s.x := rfl
@[simp] theorem State.endLine_enc (s : State) : (s.endLine).enc = s.enc := rfl
@[simp] theorem State.endLine_lb (s : State) : (s.endLine).lb = s.lb := rfl
@[simp] theorem State.endLine_part (s : State) : (s.endLine).part = s.part := rfl
@[simp] theorem State.endLine_pend (s : State) : (s.endLine).pend = s.pend := rfl
@[simp] theorem State.endLine_inp (s : State) : (s.endLine).inp = s.inp := rfl
@[simp] theorem State.endLine_out (s : State) : (s.endLine).out = s.out := rfl
@[simp] theorem State.endLine_agenda (s : State) : (s.endLine).agenda = s.agenda := rfl
@[simp] theorem State.endLine_reads (s : State) : (s.endLine).reads = s.reads := rfl
@[simp] theorem State.endLine_ecodes (s : State) : (s.endLine).ecodes = s.ecodes ++ [s.status.ecode] := rfl
@[simp] theorem State.endLine_draws (s : State) : (s.endLine).draws = s.draws := rfl
@[simp] theorem State.endLine_outcomeRead (s : State) : (s.endLine).outcomeRead = s.outcomeRead := rfl

/-! ## tookHeader -/

@[simp] theorem State.tookHeader_cfg (rest : List Byte) (s : State) : (s.tookHeader rest).cfg = s.cfg := rfl
@[simp] theorem State.tookHeader_cmd (rest : List Byte) (s : State) : (s.tookHeader rest).cmd = s.cmd := rfl
@[simp] theorem State.tookHeader_status (rest : List Byte) (s : State) : (s.tookHeader rest).status = s.status := rfl
@[simp] theorem State.tookHeader_base (rest : List Byte) (s : State) : (s.tookHeader rest).base = s.base := rfl
@[simp] theorem State.tookHeader_result (rest : List Byte) (s : State) : (s.tookHeader rest).result = s.result := rfl
@[simp] theorem State.tookHeader_incnt (rest : List Byte) (s : State) : (s.tookHeader rest).incnt = s.incnt + 1 := rfl
@[simp] theorem State.tookHeader_outcnt (rest : List Byte) (s : State) : (s.tookHeader rest).outcnt = s.outcnt := rfl
@[simp] theorem State.tookHeader_pixcnt (rest : List Byte) (s : State) : (s.tookHeader rest).pixcnt = s.pixcnt := rfl
@[simp] theorem State.tookHeader_lat (rest : List Byte) (s : State) : (s.tookHeader rest).lat = s.lat := rfl
@[simp] theorem State.tookHeader_rep (rest : List Byte) (s : State) : (s.tookHeader rest).rep = s.rep := rfl
@[simp] theorem State.tookHeader_dir (rest : List Byte) (s : State) : (s.tookHeader rest).dir = s.dir := rfl
@[simp] theorem State.tookHeader_sample (rest : List Byte) (s : State) : (s.tookHeader rest).sample = s.sample := rfl
@[simp] theorem State.tookHeader_x (rest : List Byte) (s : State) : (s.tookHeader rest).x = s.x := rfl
@[simp] theorem State.tookHeader_enc (rest : List Byte) (s : State) : (s.tookHeader rest).enc = s.enc := rfl
@[simp] theorem State.tookHeader_lb (rest : List Byte) (s : State) : (s.tookHeader rest).lb = s.lb := rfl
@[simp] theorem State.tookHeader_part (rest : List Byte) (s : State) : (s.tookHeader rest).part = s.part := rfl
@[simp] theorem State.tookHeader_pend (rest : List Byte) (s : State) : (s.tookHeader rest).pend = s.pend := rfl
@[simp] theorem State.tookHeader_inp (rest : List Byte) (s : State) : (s.tookHeader rest).inp = { s.inp with bytes := rest } := rfl
@[simp] theorem State.tookHeader_out (rest : List Byte) (s : State) : (s.tookHeader rest).out = s.out := rfl
@[simp] theorem State.tookHeader_agenda (rest : List Byte) (s : State) : (s.tookHeader rest).agenda = s.agenda := rfl
@[simp] theorem State.tookHeader_reads (rest : List Byte) (s : State) : (s.tookHeader rest).reads = s.reads := rfl
@[simp] theorem State.tookHeader_ecodes (rest : List Byte) (s : State) : (s.tookHeader rest).ecodes = s.ecodes := rfl
@[simp] theorem State.tookHeader_draws (rest : List Byte) (s : State) : (s.tookHeader rest).draws = s.draws := rfl
@[simp] theorem State.tookHeader_outcomeRead (rest : List Byte) (s : State) : (s.tookHeader rest).outcomeRead = s.outcomeRead := rfl

/-! ## resetTo -/

@[simp] theorem State.resetTo_cfg (lb : Memory) (s : State) : (s.resetTo lb).cfg = s.cfg := rfl
@[simp] theorem State.resetTo_cmd (lb : Memory) (s : State) : (s.resetTo lb).cmd = State.reset.cmd := rfl
@[simp] theorem State.resetTo_status (lb : Memory) (s : State) : (s.resetTo lb).status = State.reset.status := rfl
@[simp] theorem State.resetTo_base (lb : Memory) (s : State) : (s.resetTo lb).base = State.reset.base := rfl
@[simp] theorem State.resetTo_result (lb : Memory) (s : State) : (s.resetTo lb).result = State.reset.result := rfl
@[simp] theorem State.resetTo_incnt (lb : Memory) (s : State) : (s.resetTo lb).incnt = State.reset.incnt := rfl
@[simp] theorem State.resetTo_outcnt (lb : Memory) (s : State) : (s.resetTo lb).outcnt = State.reset.outcnt := rfl
@[simp] theorem State.resetTo_pixcnt (lb : Memory) (s : State) : (s.resetTo lb).pixcnt = State.reset.pixcnt := rfl
@[simp] theorem State.resetTo_lat (lb : Memory) (s : State) : (s.resetTo lb).lat = State.reset.lat := rfl
@[simp] theorem State.resetTo_rep (lb : Memory) (s : State) : (s.resetTo lb).rep = State.reset.rep := rfl
@[simp] theorem State.resetTo_dir (lb : Memory) (s : State) : (s.resetTo lb).dir = State.reset.dir := rfl
@[simp] theorem State.resetTo_sample (lb : Memory) (s : State) : (s.resetTo lb).sample = State.reset.sample := rfl
@[simp] theorem State.resetTo_x (lb : Memory) (s : State) : (s.resetTo lb).x = State.reset.x := rfl
@[simp] theorem State.resetTo_enc (lb : Memory) (s : State) : (s.resetTo lb).enc = State.reset.enc := rfl
@[simp] theorem State.resetTo_lb (lb : Memory) (s : State) : (s.resetTo lb).lb = lb := rfl
@[simp] theorem State.resetTo_part (lb : Memory) (s : State) : (s.resetTo lb).part = State.reset.part := rfl
@[simp] theorem State.resetTo_pend (lb : Memory) (s : State) : (s.resetTo lb).pend = State.reset.pend := rfl
@[simp] theorem State.resetTo_inp (lb : Memory) (s : State) : (s.resetTo lb).inp = s.inp := rfl
@[simp] theorem State.resetTo_out (lb : Memory) (s : State) : (s.resetTo lb).out = s.out := rfl
@[simp] theorem State.resetTo_agenda (lb : Memory) (s : State) : (s.resetTo lb).agenda = s.agenda := rfl
@[simp] theorem State.resetTo_reads (lb : Memory) (s : State) : (s.resetTo lb).reads = s.reads := rfl
@[simp] theorem State.resetTo_ecodes (lb : Memory) (s : State) : (s.resetTo lb).ecodes = s.ecodes := rfl
@[simp] theorem State.resetTo_draws (lb : Memory) (s : State) : (s.resetTo lb).draws = s.draws := rfl
@[simp] theorem State.resetTo_outcomeRead (lb : Memory) (s : State) : (s.resetTo lb).outcomeRead = State.reset.outcomeRead := rfl

end Sys2Proof.Machine
end

