-- ==== Sys2Proof/Laws/Ports.lean ====
section
/-! SUPPORT. The laws of InRead and OutWrite (spec 00_scope R11, 20_memory R52, R53): all each can lead to. -/

namespace Sys2Proof.Machine

@[simp] theorem Flow.go_andThen (s : State) (f : State → Flow) : (Flow.go s).andThen f = f s := rfl
@[simp] theorem Flow.wait_andThen (s : State) (f : State → Flow) : (Flow.wait s).andThen f = .wait s := rfl
@[simp] theorem Flow.raise_andThen (k : ErrorKind) (s : State) (f : State → Flow) :
    (Flow.raise k s).andThen f = .raise k s := rfl
@[simp] theorem Flow.unwritten_andThen (a : Nat) (f : State → Flow) : (Flow.unwritten a).andThen f = .unwritten a := rfl

@[simp] theorem Flow.go_onRaise (s : State) (f : State → State) : (Flow.go s).onRaise f = .go s := rfl
@[simp] theorem Flow.wait_onRaise (s : State) (f : State → State) : (Flow.wait s).onRaise f = .wait s := rfl
@[simp] theorem Flow.raise_onRaise (k : ErrorKind) (s : State) (f : State → State) :
    (Flow.raise k s).onRaise f = .raise k (f s) := rfl
@[simp] theorem Flow.unwritten_onRaise (a : Nat) (f : State → State) : (Flow.unwritten a).onRaise f = .unwritten a := rfl

@[simp] theorem Flow.go_settle (s : State) (f : State → State) : (Flow.go s).settle f = .next (f s) := rfl
@[simp] theorem Flow.wait_settle (s : State) (f : State → State) : (Flow.wait s).settle f = .fault (.portSilent s) := rfl
@[simp] theorem Flow.raise_settle (k : ErrorKind) (s : State) (f : State → State) :
    (Flow.raise k s).settle f = .next (s.raiseFault k) := rfl
@[simp] theorem Flow.unwritten_settle (a : Nat) (f : State → State) :
    (Flow.unwritten a).settle f = .fault (.modelUnwrittenRead a) := rfl

theorem Flow.andThen_assoc (r : Flow) (f g : State → Flow) :
    (r.andThen f).andThen g = r.andThen fun s => (f s).andThen g := by cases r <;> rfl

/-- Where a command's body leads: its end, a fault raised, or a wait. -/
theorem Flow.settle_reaches {r : Flow} {last : State → State} {t : State} (h : reaches (r.settle last) t) :
    (∃ u, r = .go u ∧ t = last u) ∨ r = .wait t ∨ ∃ k u, r = .raise k u ∧ t = u.raiseFault k := by
  rcases h with h | h <;> cases r <;> simp at h
  · exact .inl ⟨_, rfl, h.symm⟩
  · exact .inr (.inr ⟨_, _, rfl, h.symm⟩)
  · exact .inr (.inl (by rw [h]))

/-- A command's body that answers a next state has run through or raised a fault: it does not wait. -/
theorem Flow.settle_eq_next {r : Flow} {last : State → State} {t : State} (h : r.settle last = .next t) :
    (∃ u, r = .go u ∧ t = last u) ∨ ∃ k u, r = .raise k u ∧ t = u.raiseFault k := by
  cases r <;> simp at h
  · exact .inl ⟨_, rfl, h.symm⟩
  · exact .inr ⟨_, _, rfl, h.symm⟩

/-- A command waits exactly where its body meets a silent port (R249). -/
theorem Flow.settle_eq_portSilent {r : Flow} {last : State → State} {t : State} :
    r.settle last = .fault (.portSilent t) ↔ r = .wait t := by
  cases r <;> simp

/-- A 32-bit counter after one more and then `k` more. -/
theorem counter_succ (n : Word) (k : Nat) : n + 1#32 + BitVec.ofNat 32 k = n + BitVec.ofNat 32 (k + 1) := by
  rw [BitVec.ofNat_add, BitVec.add_assoc, BitVec.add_comm 1#32]

/-- Enough bytes are there: they are taken (R52). -/
theorem inTake_enough {k : Nat} {s : State} (h : k ≤ s.inp.bytes.length) :
    inTake k s = .go { s with
      inp := { s.inp with bytes := s.inp.bytes.drop k }
      incnt := s.incnt + BitVec.ofNat 32 k
      part := s.part ++ s.inp.bytes.take k } := by
  induction k generalizing s with
  | zero => simp [inTake]
  | succ k ih =>
    cases hb : s.inp.bytes with
    | nil => simp [hb] at h
    | cons b rest =>
      have hr : k ≤ (s.tookByte b rest).inp.bytes.length := by simpa [hb] using h
      simp only [inTake, hb]
      rw [ih hr]
      simp [State.tookByte, counter_succ]

/-- Too few bytes: those there are taken, and then EOS is a ReadFailure and silence a wait (R11, R52, R249). -/
theorem inTake_short {k : Nat} {s : State} (h : s.inp.bytes.length < k) :
    inTake k s =
      let t := { s with
        inp := { s.inp with bytes := [] }
        incnt := s.incnt + BitVec.ofNat 32 s.inp.bytes.length
        part := s.part ++ s.inp.bytes }
      if s.inp.eos then .raise .readFailure t else .wait t := by
  induction k generalizing s with
  | zero => simp at h
  | succ k ih =>
    cases hb : s.inp.bytes with
    | nil =>
      have : { s with inp := { s.inp with bytes := [] }, incnt := s.incnt + BitVec.ofNat 32 0, part := s.part ++ [] } = s := by
        cases s; cases ‹InPort›; simp at hb; simp [hb]
      simp only [inTake, hb, List.length_nil, this]
    | cons b rest =>
      have hr : (s.tookByte b rest).inp.bytes.length < k := by simpa [hb] using h
      simp only [inTake, hb]
      rw [ih hr]
      simp [State.tookByte, counter_succ]

/-- InRead of n bytes with none taken before, when they are there (R11). -/
theorem inRead_enough {n : Nat} {s : State} (hp : s.part = []) (h : n ≤ s.inp.bytes.length) (f : List Byte → State → Flow) :
    inRead n s f = f (s.inp.bytes.take n) { s with
      inp := { s.inp with bytes := s.inp.bytes.drop n }
      incnt := s.incnt + BitVec.ofNat 32 n
      part := [] } := by
  simp [inRead, hp, inTake_enough h, List.take_take]

/-- InRead of n bytes with none taken before, when they are not all there (R11, R52). -/
theorem inRead_short {n : Nat} {s : State} (hp : s.part = []) (h : s.inp.bytes.length < n) (f : List Byte → State → Flow) :
    inRead n s f =
      let t := { s with
        inp := { s.inp with bytes := [] }
        incnt := s.incnt + BitVec.ofNat 32 s.inp.bytes.length
        part := s.inp.bytes }
      if s.inp.eos then .raise .readFailure t else .wait t := by
  unfold inRead
  rw [inTake_short (by simpa [hp] using h)]
  cases he : s.inp.eos <;> simp [hp]

/-- The state after an InRead has taken `taken`, leaving `rest` on IN, with `q` in its buffer. -/
def State.afterTaking (s : State) (taken rest q : List Byte) : State :=
  { s with
    inp := { s.inp with bytes := rest }
    incnt := s.incnt + BitVec.ofNat 32 taken.length
    part := q }

/-- All that InRead(n) can do (R11, R52): take what it still needs and go on with n bytes; or take all there is, which is too
little, and fault at EOS or wait. -/
theorem inRead_cases (n : Nat) (s : State) (f : List Byte → State → Flow) :
    ∃ taken rest, s.inp.bytes = taken ++ rest ∧
      ((n ≤ (s.part ++ taken).length ∧ taken.length = n - s.part.length ∧
          inRead n s f = f ((s.part ++ taken).take n) (s.afterTaking taken rest [])) ∨
        (rest = [] ∧ (s.part ++ taken).length < n ∧
          inRead n s f =
            if s.inp.eos then .raise .readFailure (s.afterTaking taken rest (s.part ++ taken))
            else .wait (s.afterTaking taken rest (s.part ++ taken)))) := by
  by_cases h : n - s.part.length ≤ s.inp.bytes.length
  · refine ⟨s.inp.bytes.take (n - s.part.length), s.inp.bytes.drop (n - s.part.length), by simp, .inl ⟨?_, ?_, ?_⟩⟩
    · simp; omega
    · simp; omega
    · rw [inRead, inTake_enough h]
      simp [State.afterTaking, Nat.min_eq_left h]
  · refine ⟨s.inp.bytes, [], by simp, .inr ⟨rfl, ?_, ?_⟩⟩
    · simp; omega
    · rw [inRead, inTake_short (by omega)]
      cases s.inp.eos <;> simp [State.afterTaking]

/-- OUT accepts every byte (R53). -/
theorem outWrite_accepts {bs : List Byte} {s : State} (h : s.out.accepts bs.length) :
    outWrite bs s = .go { s with
      out := s.out.afterSending bs
      outcnt := s.outcnt + BitVec.ofNat 32 bs.length
      pend := [] } := by
  induction bs generalizing s with
  | nil =>
    have h1 : s.out.cap.map (· - 0) = s.out.cap := by cases s.out.cap <;> rfl
    have h2 : s.out.answers.map (· - 0) = s.out.answers := by cases s.out.answers <;> rfl
    simp [outWrite, OutPort.afterSending]
  | cons b bs ih =>
    have h1 : s.out.answers ≠ some 0 := fun e => by simpa using h.2 0 e
    have h2 : s.out.cap ≠ some 0 := fun e => by simpa using h.1 0 e
    have hr : (s.gaveByte b).out.accepts bs.length := by
      constructor
      · intro c hc
        simp only [State.gaveByte_out, Option.map_eq_some_iff] at hc
        obtain ⟨c', hc', rfl⟩ := hc
        have := h.1 c' hc'
        simp at this
        omega
      · intro c hc
        simp only [State.gaveByte_out, Option.map_eq_some_iff] at hc
        obtain ⟨c', hc', rfl⟩ := hc
        have := h.2 c' hc'
        simp at this
        omega
    simp only [outWrite, h1, h2, if_false, ih hr]
    simp [OutPort.afterSending, State.gaveByte, Option.map_map, Function.comp_def, Nat.sub_sub, Nat.add_comm 1, counter_succ]

/-- OUT refuses a byte: the bytes before it stay written (R11, R53). -/
theorem outWrite_refused {bs : List Byte} {s : State} {c : Nat} (h : s.out.refusesAfter c bs.length) :
    outWrite bs s = .raise .writeFailure { s with
      out := { sent := s.out.sent ++ bs.take c, cap := some 0, answers := s.out.answers.map (· - (c + 1)) }
      outcnt := s.outcnt + BitVec.ofNat 32 c
      pend := [] } := by
  induction bs generalizing s c with
  | nil => exact absurd h.2.1 (by simp)
  | cons b bs ih =>
    obtain ⟨hc, hl, ha⟩ := h
    have h1 : s.out.answers ≠ some 0 := fun e => by simpa using ha 0 e
    cases c with
    | zero =>
      simp [outWrite, h1, hc, State.refusedByte]
    | succ c =>
      have h2 : s.out.cap ≠ some 0 := by simp [hc]
      have hr : (s.gaveByte b).out.refusesAfter c bs.length := by
        refine ⟨by simp [hc], by simpa using hl, fun a ha' => ?_⟩
        simp only [State.gaveByte_out, Option.map_eq_some_iff] at ha'
        obtain ⟨a', ha1, rfl⟩ := ha'
        have := ha a' ha1
        omega
      simp only [outWrite, h1, h2, if_false, ih hr]
      simp [State.gaveByte, Option.map_map, Function.comp_def, Nat.sub_sub, Nat.add_comm 1, counter_succ]

/-- The sink falls silent: the command waits with the rest pending (R249). -/
theorem outWrite_silent {bs : List Byte} {s : State} {a : Nat} (ha : s.out.answers = some a) (hl : a < bs.length)
    (hc : ∀ c, s.out.cap = some c → a ≤ c) :
    outWrite bs s = .wait { s with
      out := { sent := s.out.sent ++ bs.take a, cap := s.out.cap.map (· - a), answers := some 0 }
      outcnt := s.outcnt + BitVec.ofNat 32 a
      pend := bs.drop a } := by
  induction bs generalizing s a with
  | nil => simp at hl
  | cons b bs ih =>
    cases a with
    | zero =>
      have : { s with out := { s.out with answers := some 0 }, outcnt := s.outcnt + BitVec.ofNat 32 0, pend := b :: bs } =
          { s with pend := b :: bs } := by
        cases s; cases ‹OutPort›; simp at ha; simp [ha]
      simp [outWrite, ha]
      cases hs : s.out
      simp [hs] at ha ⊢
      simp [ha]
    | succ a =>
      have h1 : s.out.answers ≠ some 0 := by simp [ha]
      have h2 : s.out.cap ≠ some 0 := fun e => by simpa using hc 0 e
      have hr : ∀ c, (s.gaveByte b).out.cap = some c → a ≤ c := by
        intro c hc'
        simp only [State.gaveByte_out, Option.map_eq_some_iff] at hc'
        obtain ⟨c', hc1, rfl⟩ := hc'
        have := hc c' hc1
        omega
      simp only [outWrite, h1, h2, if_false]
      rw [ih (by simp [ha]) (by simpa using hl) hr]
      simp [State.gaveByte, Option.map_map, Function.comp_def, Nat.sub_sub, Nat.add_comm 1, counter_succ]

/-- The state after OUT has accepted `given`, with port `o` and `q` still pending. -/
def State.afterGiving (s : State) (given : List Byte) (cap answers : Option Nat) (q : List Byte) : State :=
  { s with
    out := { sent := s.out.sent ++ given, cap := cap, answers := answers }
    outcnt := s.outcnt + BitVec.ofNat 32 given.length
    pend := q }

/-- All that OutWrite can do (R11, R53, R249): give every byte; or give some, and fault where the next is refused or wait
where the sink is silent. -/
theorem outWrite_cases (bs : List Byte) (s : State) :
    ∃ given rest cap answers, bs = given ++ rest ∧
      ((rest = [] ∧ outWrite bs s = .go (s.afterGiving given cap answers [])) ∨
        (rest ≠ [] ∧ outWrite bs s = .raise .writeFailure (s.afterGiving given cap answers [])) ∨
        (rest ≠ [] ∧ outWrite bs s = .wait (s.afterGiving given cap answers rest))) := by
  induction bs generalizing s with
  | nil => exact ⟨[], [], s.out.cap, s.out.answers, rfl, .inl ⟨rfl, by simp [outWrite, State.afterGiving]⟩⟩
  | cons b bs ih =>
    unfold outWrite
    by_cases h1 : s.out.answers = some 0
    · refine ⟨[], b :: bs, s.out.cap, s.out.answers, rfl, .inr (.inr ⟨by simp, ?_⟩)⟩
      simp [h1, State.afterGiving]
      rw [← h1]
    · by_cases h2 : s.out.cap = some 0
      · refine ⟨[], b :: bs, s.out.cap, s.out.answers.map (· - 1), rfl, .inr (.inl ⟨by simp, ?_⟩)⟩
        simp [h1, h2, State.afterGiving, State.refusedByte]
      · obtain ⟨given, rest, cap, answers, e, h⟩ := ih (s.gaveByte b)
        refine ⟨b :: given, rest, cap, answers, by simp [e], ?_⟩
        have eq : ∀ q, (s.gaveByte b).afterGiving given cap answers q = s.afterGiving (b :: given) cap answers q := by
          intro q
          simp [State.afterGiving, State.gaveByte, counter_succ]
        simpa [h1, h2, eq] using h

/-- An OutWrite that goes on has nothing pending (R53). -/
theorem outWrite_go {bs : List Byte} {s t : State} (h : outWrite bs s = .go t) : t.pend = [] := by
  obtain ⟨given, rest, cap, answers, -, ⟨-, e⟩ | ⟨-, e⟩ | ⟨-, e⟩⟩ := outWrite_cases bs s <;> rw [e] at h <;> simp at h
  subst h
  rfl

end Sys2Proof.Machine
end

