-- ==== Sys2Proof/Laws/Checks.lean ====
section
/-! SUPPORT. The laws of the operand checks (spec 30_encoding R77, R87): the machine's checks agree with WellFormed, and
what a checked command can lead to. -/

namespace Sys2Proof.Machine

theorem lineWidthFault_none (pb : BitVec 3) : lineWidthFault pb = none ↔ 1 ≤ pb.toNat ∧ pb.toNat ≤ 4 := by
  unfold lineWidthFault
  split
  · simp only [reduceCtorEq, false_iff]; omega
  · simp only [true_iff]; omega

theorem lineCountFault_none (n : BitVec 24) : lineCountFault n = none ↔ n.toNat ≤ maxWidth := by
  unfold lineCountFault
  split
  · simp only [reduceCtorEq, false_iff]; omega
  · simp only [true_iff]; omega

theorem high_byte_zero (n : BitVec 24) : n.extractLsb' 16 8 = 0#8 ↔ n.toNat < 65536 := by
  rw [BitVec.toNat_eq]
  simp only [BitVec.extractLsb'_toNat, BitVec.toNat_ofNat, Nat.shiftRight_eq_div_pow]
  have := n.isLt
  omega

/-- The PB check passes exactly on the legal PB values. -/
theorem pbFault_none (i : Instr) : pbFault i = none ↔ i.pbLegal = true := by
  cases i <;>
    simp only [pbFault, Instr.pbLegal, lineWidthFault_none, Bool.and_eq_true, decide_eq_true_eq, Bool.or_eq_true, beq_iff_eq]
  all_goals try (split <;> rename_i h <;> simp_all)
  rename_i pb n
  by_cases h3 : pb = 3 <;> simp_all

/-- The N check passes exactly on the legal N values. -/
theorem nFault_none (i : Instr) : nFault i = none ↔ i.nLegal = true := by
  have hb := fun n => high_byte_zero n
  cases i <;> simp only [nFault, Instr.nLegal, lineCountFault_none, decide_eq_true_eq, beq_iff_eq]
  all_goals try (split <;> rename_i h <;> simp_all)

/-- The LB range check passes exactly when the range ends at or below LB_SIZE (R58). -/
theorem rangeFault_none (i : Instr) (s : State) :
    rangeFault i s = none ↔ ∀ len, lbLength i = some len → s.lineBase + len ≤ s.cfg.lbSize := by
  unfold rangeFault
  cases lbLength i with
  | none => simp
  | some len =>
    simp only [Option.some.injEq, forall_eq']
    split
    · simp only [reduceCtorEq, false_iff]; omega
    · simp only [true_iff]; omega

/-- The checks pass exactly on a well-formed instruction whose LB range fits (R77, R87). -/
theorem operandFault_none (i : Instr) (s : State) :
    operandFault i s = none ↔ i.wf = true ∧ ∀ len, lbLength i = some len → s.lineBase + len ≤ s.cfg.lbSize := by
  unfold operandFault Instr.wf
  rw [Option.or_eq_none_iff, Option.or_eq_none_iff, pbFault_none, nFault_none, rangeFault_none, Bool.and_eq_true, and_assoc]

/-- A command whose checks pass runs its body. -/
theorem checked_of_wf {i : Instr} {s : State} (body : State → Flow) (hw : i.wf = true)
    (hr : ∀ len, lbLength i = some len → s.lineBase + len ≤ s.cfg.lbSize) :
    checked i s body = (body s).settle State.finish := by
  unfold checked
  rw [(operandFault_none i s).mpr ⟨hw, hr⟩]

/-- A command whose checks do not pass raises the first one's fault and does nothing else (R215). -/
theorem checked_of_fault {i : Instr} {s : State} {k : ErrorKind} (body : State → Flow) (h : operandFault i s = some k) :
    checked i s body = .next (s.raiseFault k) := by
  unfold checked
  rw [h]

/-- A checked command that answers a next state has ended: BUSY is 0 (R213, R214, R251). -/
theorem checked_eq_next_ended {i : Instr} {s t : State} {body : State → Flow} (h : checked i s body = .next t) :
    t.status.busy = false := by
  unfold checked at h
  split at h
  · simp only [Host.Outcome.next.injEq] at h
    subst h
    rfl
  · rcases Flow.settle_eq_next h with ⟨u, -, rfl⟩ | ⟨k, u, -, rfl⟩ <;> rfl

/-- What a checked command can lead to. -/
theorem checked_reaches {i : Instr} {s t : State} {body : State → Flow} (h : reaches (checked i s body) t) :
    (∃ k, operandFault i s = some k ∧ t = s.raiseFault k) ∨
    ((i.wf = true ∧ ∀ len, lbLength i = some len → s.lineBase + len ≤ s.cfg.lbSize) ∧
      reaches ((body s).settle State.finish) t) := by
  unfold checked at h
  split at h
  · rename_i k hk
    simp only [reaches, Host.Outcome.next.injEq, reduceCtorEq, or_false] at h
    exact .inl ⟨k, hk, h.symm⟩
  · rename_i hk
    exact .inr ⟨(operandFault_none i s).mp hk, h⟩

theorem Latch.fieldOp_word (l : Latch) : fieldOp l.word = l.op := fieldOp_packFields _ _ _ _
theorem Latch.fieldPb_word (l : Latch) : fieldPb l.word = l.pb := fieldPb_packFields _ _ _ _
theorem Latch.fieldRsv_word (l : Latch) : fieldRsv l.word = l.rsv := fieldRsv_packFields _ _ _ _
theorem Latch.fieldN_word (l : Latch) : fieldN l.word = l.n := fieldN_packFields _ _ _ _

/-- What is latched stands for the word written (R38, R71). -/
theorem Latch.word_of (v base : Word) : (Latch.of v base).word = v := by
  simp [Latch.of, Latch.word, packFields_fields]

/-- A command the host has just issued starts afresh (R22, R34). -/
theorem State.fresh_issue (v : Word) (s : State) : (s.issue v).Fresh where
  status := rfl
  x := rfl
  rep := rfl
  dir := rfl
  enc := rfl
  part := rfl
  pend := rfl
  incnt := rfl
  outcnt := rfl
  pixcnt := rfl

end Sys2Proof.Machine
end

