-- ==== Sys2Proof/Laws/Flows.lean ====
section
/-! SUPPORT. One rule per loop of the commands: a predicate that each small update keeps holds of every state the loop can
lead to. Frames and invariants follow by choosing the predicate. -/

namespace Sys2Proof.Machine

/-- Every state a flow leads to satisfies `P`. -/
def Flow.All (P : State → Prop) : Flow → Prop
  | .go s => P s
  | .wait s => P s
  | .raise _ s => P s
  | .unwritten _ => True

theorem Flow.All.mono {P Q : State → Prop} {r : Flow} (h : r.All P) (hpq : ∀ s, P s → Q s) : r.All Q := by
  cases r <;> simp_all [Flow.All]

theorem Flow.All.andThen {P : State → Prop} {r : Flow} {f : State → Flow} (h : r.All P) (hf : ∀ s, P s → (f s).All P) :
    (r.andThen f).All P := by
  cases r <;> simp_all [Flow.All, Flow.andThen]

theorem Flow.All.onRaise {P : State → Prop} {r : Flow} {f : State → State} (h : r.All P) (hf : ∀ s, P s → P (f s)) :
    (r.onRaise f).All P := by
  cases r <;> simp_all [Flow.All, Flow.onRaise]

/-- A predicate that holds of a flow's states and survives the end of a command holds wherever the command leads. -/
theorem Flow.All.settle {P Q : State → Prop} {r : Flow} {last : State → State} {t : State} (h : r.All P)
    (hl : ∀ s, P s → Q (last s)) (hw : ∀ s, P s → Q s) (hr : ∀ k s, P s → Q (s.raiseFault k))
    (ht : reaches (r.settle last) t) : Q t := by
  rcases Flow.settle_reaches ht with ⟨u, rfl, rfl⟩ | rfl | ⟨k, u, rfl, rfl⟩
  · exact hl u h
  · exact hw t h
  · exact hr k u h

/-- `P` survives taking bytes from IN. -/
def KeptByTaking (P : State → Prop) : Prop :=
  ∀ s taken rest q, P s → s.inp.bytes = taken ++ rest → P (s.afterTaking taken rest q)

/-- `P` survives giving bytes to OUT. -/
def KeptByGiving (P : State → Prop) : Prop :=
  ∀ s given cap answers q, P s → P (s.afterGiving given cap answers q)

/-- `P` survives storing the next pixel of a line of `w` pixels of `p` bytes. -/
def KeptByStoring (p w : Nat) (P : State → Prop) : Prop :=
  ∀ s px, P s → px.length ≤ p → s.x < w → P (s.storePixel p px)

theorem inRead_all {P : State → Prop} (ht : KeptByTaking P) {n : Nat} {s : State} {f : List Byte → State → Flow} (h : P s)
    (hf : ∀ t px, P t → px.length ≤ n → t.x = s.x → t.rep = s.rep → t.dir = s.dir → (f px t).All P) :
    (inRead n s f).All P := by
  obtain ⟨taken, rest, hb, ⟨-, -, e⟩ | ⟨-, -, e⟩⟩ := inRead_cases n s f
  · rw [e]
    exact hf _ _ (ht s taken rest [] h hb) (List.length_take_le _ _) rfl rfl rfl
  · rw [e]
    split <;> exact ht s taken rest _ h hb

theorem outWrite_all {P : State → Prop} (hg : KeptByGiving P) (bs : List Byte) {s : State} (h : P s) :
    (outWrite bs s).All P := by
  obtain ⟨given, rest, cap, answers, -, ⟨-, e⟩ | ⟨-, e⟩ | ⟨-, e⟩⟩ := outWrite_cases bs s <;> rw [e] <;>
    exact hg s given cap answers _ h

theorem rawRdLoop_all {P : State → Prop} {p w : Nat} (ht : KeptByTaking P) (hs : KeptByStoring p w P) (k : Nat) {s : State}
    (hk : k ≤ w - s.x) (h : P s) : (rawRdLoop p k s).All P := by
  induction k generalizing s with
  | zero => exact h
  | succ k ih =>
    exact inRead_all ht h fun t px hp hl hx _ _ => ih (by simp; omega) (hs t px hp hl (by omega))

theorem rawWrLoop_all {P : State → Prop} {p w : Nat} (hg : KeptByGiving P) (hs : ∀ s, P s → s.x < w → P s.pixelSent) (k : Nat)
    {s : State} (hk : k ≤ w - s.x) (h : P s) : (rawWrLoop p k s).All P := by
  induction k generalizing s with
  | zero => exact h
  | succ k ih =>
    have hx : KeptByGiving fun t : State => P t ∧ t.x = s.x :=
      fun u given cap answers q hu => ⟨hg u given cap answers q hu.1, hu.2⟩
    have h1 : (sendPixel p s).All fun t => P t ∧ t.x = s.x := by
      unfold sendPixel
      split
      · split
        · trivial
        · exact outWrite_all hx _ ⟨h, rfl⟩
      · exact outWrite_all hx _ ⟨h, rfl⟩
    unfold rawWrLoop
    generalize sendPixel p s = r at h1
    cases r with
    | go t => exact ih (by simp [h1.2]; omega) (hs t h1.1 (by have := h1.2; omega))
    | wait t => exact h1.1
    | raise k t => exact h1.1
    | unwritten a => trivial

/-- `P` survives what the decoder does with its run registers: opening a run, loading the sample, counting a pixel down. -/
structure KeptByDecoder (p : Nat) (P : State → Prop) : Prop where
  openRepeat : ∀ s c, P s → P (s.openRepeat c)
  openDirect : ∀ s c, P s → P (s.openDirect c)
  sample     : ∀ s px, P s → px.length ≤ p → P { s with sample := px }
  rep        : ∀ s, P s → P { s with rep := s.rep - 1 }
  dir        : ∀ s, P s → P { s with dir := s.dir - 1 }

theorem emitSample_all {P : State → Prop} {p w : Nat} (hs : KeptByStoring p w P) (hd : KeptByDecoder p P) (k : Nat) {s : State}
    (hk : k ≤ w - s.x) (hl : s.sample.length ≤ p) (h : P s) : P (emitSample p k s) := by
  induction k generalizing s with
  | zero => exact h
  | succ k ih =>
    exact ih (by simp; omega) hl (hd.rep (s.storePixel p s.sample) (hs s s.sample h hl (by omega)))

theorem emitDirect_all {P : State → Prop} {p w : Nat} (ht : KeptByTaking P) (hs : KeptByStoring p w P) (hd : KeptByDecoder p P)
    (k : Nat) {s : State} (hk : k ≤ w - s.x) (h : P s) : (emitDirect p k s).All P := by
  induction k generalizing s with
  | zero => exact h
  | succ k ih =>
    exact inRead_all ht h fun t px hp hl hx _ _ =>
      ih (by simp; omega) (hd.dir (t.storePixel p px) (hs t px hp hl (by omega)))

theorem emitRun_all {P : State → Prop} {p w : Nat} (ht : KeptByTaking P) (hs : KeptByStoring p w P) (hd : KeptByDecoder p P)
    {s : State} (h : P s) : (emitRun p w s).All P := by
  unfold emitRun
  split
  · exact inRead_all ht h fun t px hp hl _ _ _ =>
      emitSample_all hs hd _ (s := { t with sample := px }) (Nat.min_le_right _ _) hl (hd.sample t px hp hl)
  · exact emitDirect_all ht hs hd _ (Nat.min_le_right _ _) h

theorem openRun_keeps {P : State → Prop} {p : Nat} (hd : KeptByDecoder p P) (b : Byte) {s : State} (h : P s) :
    P (s.openRun b) := by
  unfold State.openRun
  split
  · exact hd.openRepeat s _ h
  · exact hd.openDirect s _ h
  · exact h

theorem decodeLoop_all {P : State → Prop} {p w : Nat} (ht : KeptByTaking P) (hs : KeptByStoring p w P) (hd : KeptByDecoder p P)
    (fuel : Nat) {s : State} (h : P s) : (decodeLoop p w fuel s).All P := by
  induction fuel generalizing s with
  | zero => exact h
  | succ fuel ih =>
    unfold decodeLoop
    split
    · refine Flow.All.andThen (Flow.All.andThen ?_ fun t hp => emitRun_all ht hs hd hp) fun t hp => ih hp
      split
      · exact inRead_all ht h fun t px hp _ _ _ _ => openRun_keeps hd _ hp
      · exact h
    · exact h

/-- `P` survives what the encoder does with its registers. -/
structure KeptByEncoder (P : State → Prop) : Prop where
  chosen : ∀ s n kind, P s → P { s with enc := { s.enc with n := n, kind := kind } }
  sent   : ∀ s, P s → P s.packetSent

theorem sendPacket_all {P : State → Prop} {p w : Nat} (hg : KeptByGiving P) (he : KeptByEncoder P) {s : State} (h : P s) :
    (sendPacket p w s).All P := by
  unfold sendPacket
  split
  · split
    · trivial
    · exact outWrite_all hg _ (he.chosen s _ _ h)
  · exact outWrite_all hg _ h

theorem encodeLoop_all {P : State → Prop} {p w : Nat} (hg : KeptByGiving P) (he : KeptByEncoder P) (fuel : Nat) {s : State}
    (h : P s) : (encodeLoop p w fuel s).All P := by
  induction fuel generalizing s with
  | zero => exact h
  | succ fuel ih =>
    unfold encodeLoop
    split
    · exact (sendPacket_all hg he h).andThen fun t hp => ih (he.sent t hp)
    · exact h

/-- A run of equal pixels grows from `n`, within the line and by no more than its fuel (R182). -/
theorem sameRun_bounds {s : State} {p w i fuel n m : Nat} {px : Pixel} (h : sameRun s p w i px fuel n = .ok m)
    (hn : i + n ≤ w) : n ≤ m ∧ m ≤ n + fuel ∧ i + m ≤ w := by
  induction fuel generalizing n with
  | zero => simp [sameRun] at h; omega
  | succ fuel ih =>
    unfold sameRun at h
    split at h
    · split at h
      · simp at h
      · split at h
        · have := ih h (by omega); omega
        · simp at h; omega
    · simp at h; omega

/-- A run of differing pixels grows from `n`, within the line and by no more than its fuel (R182). -/
theorem differRun_bounds {s : State} {p w i fuel n m : Nat} (h : differRun s p w i fuel n = .ok m) (hn : i + n ≤ w) :
    n ≤ m ∧ m ≤ n + fuel ∧ i + m ≤ w := by
  induction fuel generalizing n with
  | zero => simp [differRun] at h; omega
  | succ fuel ih =>
    unfold differRun at h
    split at h
    · split at h
      · simp at h
      · simp at h; omega
      · have := ih h (by omega); omega
    · simp at h; omega

/-- A packet of RLE_ENC has 1 to 128 pixels, ends within the line, and is not empty (R182 to R184). -/
theorem nextPacket_bounds {s : State} {p w i n : Nat} {kind : RunKind} {bytes : List Byte}
    (h : nextPacket s p w i = .ok (kind, n, bytes)) (hi : i < w) : 1 ≤ n ∧ n ≤ maxRun ∧ i + n ≤ w ∧ bytes ≠ [] := by
  unfold nextPacket at h
  split at h
  · simp at h
  · rename_i he
    have h2 : i + 2 ≤ w := by
      unfold equalsNext at he
      split at he
      · omega
      · simp at he
    split at h
    · simp at h
    · split at h
      · simp at h
      · rename_i m hm
        have := sameRun_bounds hm h2
        simp only [Except.ok.injEq, Prod.mk.injEq] at h
        obtain ⟨-, rfl, rfl⟩ := h
        simp only [maxRun] at *
        exact ⟨by omega, by omega, by omega, by simp [packetBytes]⟩
  · split at h
    · simp at h
    · rename_i m hm
      have := differRun_bounds hm (by omega)
      split at h
      · simp at h
      · simp only [Except.ok.injEq, Prod.mk.injEq] at h
        obtain ⟨-, rfl, rfl⟩ := h
        simp only [maxRun] at *
        exact ⟨by omega, by omega, by omega, by simp [packetBytes]⟩

/-- The rule of the encode loop with two predicates: `P` where a packet is about to be chosen or resumed, `Q` while one is
being sent. -/
theorem encodeLoop_both {P Q : State → Prop} {p w : Nat} (hg : KeptByGiving Q)
    (chosen : ∀ s n kind, P s → s.pend = [] → 1 ≤ n → n ≤ maxRun → s.enc.i + n ≤ w →
      Q { s with enc := { s.enc with n := n, kind := kind } })
    (resumed : ∀ s, P s → s.pend ≠ [] → Q s) (sent : ∀ s, Q s → s.pend = [] → P s.packetSent) (fuel : Nat) {s : State} (h : P s) :
    (encodeLoop p w fuel s).All fun t => P t ∨ Q t := by
  induction fuel generalizing s with
  | zero => exact .inl h
  | succ fuel ih =>
    unfold encodeLoop
    split
    · rename_i hi
      have hs : (sendPacket p w s).All Q := by
        unfold sendPacket
        split
        · rename_i hp
          split
          · trivial
          · rename_i kind n bytes hn
            have hb := nextPacket_bounds hn hi
            exact outWrite_all hg _ (chosen s n kind h hp hb.1 hb.2.1 hb.2.2.1)
        · exact outWrite_all hg _ (resumed s h ‹_›)
      have hq : ∀ t, sendPacket p w s = .go t → t.pend = [] := by
        intro t ht
        unfold sendPacket at ht
        split at ht
        · split at ht
          · simp at ht
          · exact outWrite_go ht
        · exact outWrite_go ht
      generalize sendPacket p w s = r at hs hq
      cases r with
      | go t => exact ih (sent t hs (hq t rfl))
      | wait t => exact .inr hs
      | raise k t => exact .inr hs
      | unwritten a => trivial
    · exact .inl h

/-- All that the ports' progress can lead to: where the command in flight leads, its end or its wait (R52, R57). -/
theorem transferLatched_eq_next {s t : State} : transferLatched s = .next t ↔ reaches (runLatched s) t := by
  unfold transferLatched reaches
  generalize runLatched s = o
  cases o with
  | next u => simp
  | fault r => cases r <;> simp
  | refused r => simp

end Sys2Proof.Machine
end

