-- ==== Sys2Proof/Laws/Lines.lean ====
section
/-! SUPPORT. What the pixel loops do where the ports give what they need (spec 41_transcoder R121, R122, 42_rle_decode
R152), and the lengths of the in-place transformations (R123, R126). -/

namespace Sys2Proof.Machine

theorem swapBytes3_length : ∀ l : List Byte, (swapBytes3 l).length = l.length
  | [] => rfl
  | [_] => rfl
  | [_, _] => rfl
  | b0 :: b1 :: b2 :: rest => by simp [swapBytes3, swapBytes3_length rest]

theorem swapBytes4_length : ∀ l : List Byte, (swapBytes4 l).length = l.length
  | [] => rfl
  | [_] => rfl
  | [_, _] => rfl
  | [_, _, _] => rfl
  | b0 :: b1 :: b2 :: b3 :: rest => by simp [swapBytes4, swapBytes4_length rest]

/-- `swap` keeps the length (R123). -/
theorem swapBytes_length (stride : Nat) (l : List Byte) : (swapBytes stride l).length = l.length := by
  unfold swapBytes
  split
  · exact swapBytes4_length l
  · exact swapBytes3_length l

/-- Each whole 2-byte entry gives three bytes (R126). -/
theorem expandBytes_length : ∀ l : List Byte, (expandBytes l).length = 3 * (l.length / 2)
  | [] => by simp [expandBytes]
  | [_] => by simp [expandBytes]
  | b0 :: b1 :: rest => by
    have := expandBytes_length rest
    simp only [expandBytes, expandEntry, List.length_append, List.length_cons, List.length_nil, this]
    omega

/-- Storing pixels one after another from pixel x on is one write of their bytes. -/
theorem lbWrite_pixels {m : Memory} (h : m.wf) (base x p : Nat) (px bs : List Byte) (hp : px.length = p) :
    lbWrite (lbWrite m (base + x * p) px) (base + (x + 1) * p) bs = lbWrite m (base + x * p) (px ++ bs) := by
  have e : base + (x + 1) * p = base + x * p + px.length := by rw [hp, Nat.add_mul]; omega
  rw [e, lbWrite_append h]

/-- Two stretches of bytes counted one after the other. -/
theorem counter_add (n : Word) (j k : Nat) : n + BitVec.ofNat 32 j + BitVec.ofNat 32 k = n + BitVec.ofNat 32 (j + k) := by
  rw [BitVec.ofNat_add, BitVec.add_assoc]

/-- RAW_RD's loop from a pixel boundary, when IN has the bytes of its `k` ≥ 1 pixels (R121). -/
theorem rawRdLoop_enough {p k : Nat} {s : State} (hq : s.part = []) (hm : s.lb.wf) (hk : (k + 1) * p ≤ s.inp.bytes.length) :
    rawRdLoop p (k + 1) s = .go { s with
      inp := { s.inp with bytes := s.inp.bytes.drop ((k + 1) * p) }
      incnt := s.incnt + BitVec.ofNat 32 ((k + 1) * p)
      x := s.x + (k + 1)
      pixcnt := BitVec.ofNat 32 (s.x + (k + 1))
      lb := lbWrite s.lb (s.lineBase + s.x * p) (s.inp.bytes.take ((k + 1) * p)) } := by
  induction k generalizing s with
  | zero =>
    have h1 : p ≤ s.inp.bytes.length := by omega
    rw [rawRdLoop, inRead_enough hq h1]
    simp [rawRdLoop, State.storePixel, State.lineBase, hq]
  | succ k ih =>
    have e : (k + 1 + 1) * p = p + (k + 1) * p := by rw [Nat.add_mul (k + 1) 1 p]; omega
    have h1 : p ≤ s.inp.bytes.length := by omega
    rw [rawRdLoop, inRead_enough hq h1, ih (by simp [State.storePixel]) (by simpa [State.storePixel] using wf_lbWrite hm _ _)
      (by simp [State.storePixel]; omega)]
    have hl : (s.inp.bytes.take p).length = p := by simp; omega
    simp only [State.storePixel, State.lineBase, counter_add, List.drop_drop, lbWrite_pixels hm _ _ _ _ _ hl, e, hq]
    rw [List.take_add]
    simp [Nat.add_comm, Nat.add_left_comm]

/-- The copies of a repeat run (R152). -/
theorem emitSample_eq {p k : Nat} {s : State} (hm : s.lb.wf) (hl : s.sample.length = p) :
    emitSample p (k + 1) s = { s with
      rep := s.rep - (k + 1)
      x := s.x + (k + 1)
      pixcnt := BitVec.ofNat 32 (s.x + (k + 1))
      lb := lbWrite s.lb (s.lineBase + s.x * p) (List.replicate (k + 1) s.sample).flatten } := by
  induction k generalizing s with
  | zero => simp [emitSample, State.storePixel, State.lineBase]
  | succ k ih =>
    rw [emitSample, ih (by simpa [State.storePixel] using wf_lbWrite hm _ _) (by simpa [State.storePixel] using hl)]
    simp only [State.storePixel, State.lineBase, lbWrite_pixels hm _ _ _ _ _ hl]
    rw [List.replicate_succ (n := k + 1)]
    simp [Nat.add_comm, Nat.add_left_comm, Nat.sub_sub]

/-- The pixels of a direct run from a pixel boundary, when IN has their bytes (R152). -/
theorem emitDirect_enough {p k : Nat} {s : State} (hq : s.part = []) (hm : s.lb.wf) (hk : (k + 1) * p ≤ s.inp.bytes.length) :
    emitDirect p (k + 1) s = .go { s with
      inp := { s.inp with bytes := s.inp.bytes.drop ((k + 1) * p) }
      incnt := s.incnt + BitVec.ofNat 32 ((k + 1) * p)
      dir := s.dir - (k + 1)
      x := s.x + (k + 1)
      pixcnt := BitVec.ofNat 32 (s.x + (k + 1))
      lb := lbWrite s.lb (s.lineBase + s.x * p) (s.inp.bytes.take ((k + 1) * p)) } := by
  induction k generalizing s with
  | zero =>
    have h1 : p ≤ s.inp.bytes.length := by omega
    rw [emitDirect, inRead_enough hq h1]
    simp [emitDirect, State.storePixel, State.lineBase, hq]
  | succ k ih =>
    have e : (k + 1 + 1) * p = p + (k + 1) * p := by rw [Nat.add_mul (k + 1) 1 p]; omega
    have h1 : p ≤ s.inp.bytes.length := by omega
    rw [emitDirect, inRead_enough hq h1, ih (by simp [State.storePixel]) (by simpa [State.storePixel] using wf_lbWrite hm _ _)
      (by simp [State.storePixel]; omega)]
    have hl : (s.inp.bytes.take p).length = p := by simp; omega
    simp only [State.storePixel, State.lineBase, counter_add, List.drop_drop, lbWrite_pixels hm _ _ _ _ _ hl, e, hq]
    rw [List.take_add]
    simp [Nat.add_comm, Nat.add_left_comm, Nat.sub_sub]

end Sys2Proof.Machine
end

