-- ==== Sys2Proof/Laws/PerInstr.lean ====
section
/-! SUPPORT. Laws stated for every instruction, one lemma per constructor. `TableRow`: the encoding of a well-formed
instruction lies in its row of spec/opcode_table.json (bits under the row's mask equal the row's match). -/

namespace Sys2Proof.Laws.TableRow

/-- The mask of an instruction's row. -/
def mask : Instr → Nat
  | .le16Unpack _ _ => 0xFFFFFFFF
  | .le16Pack _ _ => 0xFF0000FF
  | .rawRd _ _ => 0x0000008F
  | .rawWr _ _ => 0x0000008F
  | .swap _ _ => 0x0000008F
  | .expand _ _ => 0x000000FF
  | .rleDec _ _ => 0x0000008F
  | .rleEnc _ _ => 0x0000008F
  | .pktRepeat _ => 0x80
  | .pktDirect _ => 0x80

/-- The match of an instruction's row. -/
def bits : Instr → Nat
  | .le16Unpack _ _ => 0x00000001
  | .le16Pack _ _ => 0x00000002
  | .rawRd _ _ => 0x00000003
  | .rawWr _ _ => 0x00000004
  | .swap _ _ => 0x00000005
  | .expand _ _ => 0x00000026
  | .rleDec _ _ => 0x00000007
  | .rleEnc _ _ => 0x00000008
  | .pktRepeat _ => 0x80
  | .pktDirect _ => 0x00

/-- The encoding of `i`, if `i` is well formed, lies in its row of the opcode table. -/
def Statement (i : Instr) : Prop := i.wf = true → (encode i).bits &&& mask i = bits i

theorem toNat_and_of_word {v : Word} {m k : Nat} (h : v &&& BitVec.ofNat 32 m = BitVec.ofNat 32 k) (hm : m < 2 ^ 32)
    (hk : k < 2 ^ 32) : v.toNat &&& m = k := by
  have h1 := congrArg BitVec.toNat h
  rw [BitVec.toNat_and, BitVec.toNat_ofNat, BitVec.toNat_ofNat, Nat.mod_eq_of_lt hm, Nat.mod_eq_of_lt hk] at h1
  exact h1

/-- The bits 3:0 and 7 of a packed word with RSV clear. -/
theorem packFields_and_8F (op : BitVec 4) (pb : BitVec 3) (n : BitVec 24) :
    packFields op pb false n &&& 0x8F#32 = op.setWidth 32 := by
  apply BitVec.eq_of_getLsbD_eq
  intro i hi
  by_cases h : i < 8
  · have : i = 0 ∨ i = 1 ∨ i = 2 ∨ i = 3 ∨ i = 4 ∨ i = 5 ∨ i = 6 ∨ i = 7 := by omega
    rw [BitVec.getLsbD_and, getLsbD_packFields]
    rcases this with rfl | rfl | rfl | rfl | rfl | rfl | rfl | rfl <;> simp
  · have h1 : (0x8F#32).getLsbD i = false := by
      rw [BitVec.getLsbD_ofNat]
      simp only [hi, decide_true, Bool.true_and]
      exact Nat.testBit_lt_two_pow (Nat.lt_of_lt_of_le (by omega) (Nat.pow_le_pow_right (by omega) (Nat.le_of_not_lt h)))
    have h2 : op.getLsbD i = false := BitVec.getLsbD_of_ge _ _ (by omega)
    simp [h1, h2]

theorem rawRd (pb : BitVec 3) (n : BitVec 24) : Statement (.rawRd pb n) := fun _ =>
  toNat_and_of_word (packFields_and_8F 0x3 pb n) (by simp [mask]) (by simp [bits])

theorem rawWr (pb : BitVec 3) (n : BitVec 24) : Statement (.rawWr pb n) := fun _ =>
  toNat_and_of_word (packFields_and_8F 0x4 pb n) (by simp [mask]) (by simp [bits])

theorem swap (pb : BitVec 3) (n : BitVec 24) : Statement (.swap pb n) := fun _ =>
  toNat_and_of_word (packFields_and_8F 0x5 pb n) (by simp [mask]) (by simp [bits])

theorem rleDec (pb : BitVec 3) (n : BitVec 24) : Statement (.rleDec pb n) := fun _ =>
  toNat_and_of_word (packFields_and_8F 0x7 pb n) (by simp [mask]) (by simp [bits])

theorem rleEnc (pb : BitVec 3) (n : BitVec 24) : Statement (.rleEnc pb n) := fun _ =>
  toNat_and_of_word (packFields_and_8F 0x8 pb n) (by simp [mask]) (by simp [bits])

theorem le16Unpack (pb : BitVec 3) (n : BitVec 24) : Statement (.le16Unpack pb n) := fun h => by
  have h : pb = 0 ∧ n = 0 := by simpa [Instr.wf, Instr.pbLegal, Instr.nLegal] using h
  obtain ⟨rfl, rfl⟩ := h
  decide

/-- The bits 7:0 of a packed word with RSV clear. -/
theorem packFields_and_FF (op : BitVec 4) (pb : BitVec 3) (n : BitVec 24) :
    packFields op pb false n &&& 0xFF#32 = (pb ++ op).setWidth 32 := by
  apply BitVec.eq_of_getLsbD_eq
  intro i hi
  by_cases h : i < 8
  · have : i = 0 ∨ i = 1 ∨ i = 2 ∨ i = 3 ∨ i = 4 ∨ i = 5 ∨ i = 6 ∨ i = 7 := by omega
    rw [BitVec.getLsbD_and, getLsbD_packFields, BitVec.getLsbD_setWidth, BitVec.getLsbD_append]
    rcases this with rfl | rfl | rfl | rfl | rfl | rfl | rfl | rfl <;> simp
  · have h1 : (0xFF#32).getLsbD i = false := by
      rw [BitVec.getLsbD_ofNat]
      simp only [hi, decide_true, Bool.true_and]
      exact Nat.testBit_lt_two_pow (Nat.lt_of_lt_of_le (by omega) (Nat.pow_le_pow_right (by omega) (Nat.le_of_not_lt h)))
    have h2 : (pb ++ op).getLsbD i = false := BitVec.getLsbD_of_ge _ _ (by omega)
    simp only [BitVec.getLsbD_and, h1, Bool.and_false, BitVec.getLsbD_setWidth, h2]

theorem expand (pb : BitVec 3) (n : BitVec 24) : Statement (.expand pb n) := fun h => by
  have h : pb = 2 := by
    have := (Bool.and_eq_true _ _ ▸ h : _ ∧ _).1
    simpa [Instr.pbLegal] using this
  subst h
  exact toNat_and_of_word ((packFields_and_FF 0x6 2 n).trans (show BitVec.setWidth 32 (2#3 ++ 6#4) = 0x26#32 by decide)) (by simp [mask]) (by simp [bits])

/-- The high byte of a packed word is the high byte of N, and the low byte is PB and OP with RSV clear. -/
theorem packFields_and_FF0000FF (op : BitVec 4) (pb : BitVec 3) (n : BitVec 24) (hn : n.toNat < 65536) :
    packFields op pb false n &&& 0xFF0000FF#32 = (pb ++ op).setWidth 32 := by
  have split : (0xFF0000FF#32) = 0xFF000000#32 ||| 0xFF#32 := by decide
  have high : packFields op pb false n &&& 0xFF000000#32 = 0#32 := by
    apply BitVec.eq_of_getLsbD_eq
    intro i hi
    by_cases h : i < 24
    · have : (0xFF000000#32).getLsbD i = false := by
        have e : (0xFF000000#32) = 0xFF#32 <<< 24 := by decide
        rw [e, BitVec.getLsbD_shiftLeft]
        simp [h]
      simp [this]
    · have h1 : ¬ i < 4 := by omega
      have h2 : ¬ i - 4 < 3 := by omega
      have h3 : ¬ i - 4 - 3 < 1 := by omega
      have h4 : n.getLsbD (i - 4 - 3 - 1) = false := by
        simp only [BitVec.getLsbD]
        exact Nat.testBit_lt_two_pow
          (Nat.lt_of_lt_of_le hn (Nat.le_trans (by decide : 65536 ≤ 2 ^ 16) (Nat.pow_le_pow_right (by omega) (by omega))))
      simp [getLsbD_packFields, h1, h2, h3, h4]
  rw [split, BitVec.and_or_distrib_left, high, packFields_and_FF]
  simp

theorem le16Pack (pb : BitVec 3) (n : BitVec 24) : Statement (.le16Pack pb n) := fun h => by
  have h : pb = 0 ∧ n.toNat < 65536 := by simpa [Instr.wf, Instr.pbLegal, Instr.nLegal] using h
  obtain ⟨rfl, hn⟩ := h
  exact toNat_and_of_word ((packFields_and_FF0000FF 0x2 0 n hn).trans (show BitVec.setWidth 32 (0#3 ++ 2#4) = 2#32 by decide)) (by simp [mask]) (by simp [bits])

theorem pktRepeat (c : BitVec 7) : Statement (.pktRepeat c) := fun _ => by
  revert c
  decide

theorem pktDirect (c : BitVec 7) : Statement (.pktDirect c) := fun _ => by
  revert c
  decide

end Sys2Proof.Laws.TableRow
end

