-- ==== Sys2Proof/Machine/HostSide.lean ====
section
/-! DEFINITION. The host's side of the command set: the assembler forms and pseudo-instructions of spec 30_encoding R85
and R86 as events, and the pixel width a depth has (00_scope R7, D2). Nothing in the TSCU depends on these. -/

namespace Sys2Proof.Machine

/-- `SETBASE a`: a host write of BASE (R86). -/
def setBase (a : Word) : Event := .regWrite 0x08 4 a

/-- `.WORD v`: a host write of CMD (R85). -/
def writeCmd (v : Word) : Event := .regWrite 0x00 4 v

/-- `WAIT`: the TSCU runs, and the host reads STATUS (R86, R218). -/
def waitDone : List Event := [.run, .regRead 0x04 4]

/-- A command in assembler form, with the WAIT implied after it (R85, R86). A packet header is no command: no event. -/
def commandEvents (i : Instr) : List Event :=
  match encode i with
  | .cmd32 v => writeCmd v :: waitDone
  | .pkt8 _ => []

/-- `BGR2RGB.s len` (R86). -/
def bgr2rgb (stride : BitVec 3) (len : BitVec 24) : List Event := commandEvents (.swap stride len)

/-- `RGB2BGR.s len` (R86). -/
def rgb2bgr (stride : BitVec 3) (len : BitVec 24) : List Event := commandEvents (.swap stride len)

/-- `EXPAND24 len` (R86). -/
def expand24 (len : BitVec 24) : List Event := commandEvents (.expand 2 len)

/-- The pixel width P of a header pixel depth; none for a depth the format does not have (R7). -/
def widthOfDepth (depth : Nat) : Option (BitVec 3) :=
  match depth with
  | 8 => some 1
  | 15 => some 2
  | 16 => some 2
  | 24 => some 3
  | 32 => some 4
  | _ => none

end Sys2Proof.Machine
end

