-- ==== Sys2Proof/Tests/Slice0.lean ====
section
/-! SUPPORT. The model's own tests. Expected values come from the worked vectors of spec 95_test_vectors (the name V-… in
a docstring) or by hand from the encodings of 30_encoding. After them, a witness for the hypotheses of each
obligation that has any. -/

namespace Sys2Proof.Tests

open Sys2Proof Sys2Proof.Machine

/-- The next state of an outcome, if it is one. -/
def nextOf : Host.Outcome State Fault Refusal → Option State
  | .next t => some t
  | _ => none

/-- The fault of an outcome, if it is one. -/
def faultOf : Host.Outcome State Fault Refusal → Option Fault
  | .fault r => some r
  | _ => none

/-- The state a silent port makes a command wait in, if it does. -/
def waitingOf (o : Host.Outcome State Fault Refusal) : Option State :=
  match faultOf o with
  | some (.portSilent t) => some t
  | _ => none

/-- A machine after reset with `input` and then EOS on IN, `line` written from LB address 0 on, and OUT with `cap`. -/
def machine (input line : List Byte) (cap : Option Nat := none) : State :=
  { State.reset with
    inp := { bytes := input, eos := true }
    lb := cellsAt 0 line
    out := { sent := [], cap := cap, answers := none } }

/-- The state after the command word `v` has run. -/
def after (v : Nat) (s : State) : Option State := nextOf (step (s.withFetchWord 32 v))

/-! ## Decoding -/

/-- V-LE1: OP 1, PB 0, N 0. -/
theorem test_decode_le16_unpack : decodeTableWord 32 0x00000001 = some (.le16Unpack 0 0) := by decide
/-- V-LE8: OP 2, PB 0, N 480. -/
theorem test_decode_le16_pack : decodeTableWord 32 0x0001E002 = some (.le16Pack 0 480) := by decide
/-- V-RAW1: OP 3, PB 3, N 2. -/
theorem test_decode_raw_rd : decodeTableWord 32 0x00000233 = some (.rawRd 3 2) := by decide
/-- V-RAW7: OP 4, PB 1, N 3. -/
theorem test_decode_raw_wr : decodeTableWord 32 0x00000314 = some (.rawWr 1 3) := by decide
/-- V-SW1: OP 5, PB 3, N 6. -/
theorem test_decode_swap : decodeTableWord 32 0x00000635 = some (.swap 3 6) := by decide
/-- V-EX1: OP 6, PB 2, N 2. -/
theorem test_decode_expand : decodeTableWord 32 0x00000226 = some (.expand 2 2) := by decide
/-- V-DE1: OP 7, PB 3, N 2. -/
theorem test_decode_rle_dec : decodeTableWord 32 0x00000237 = some (.rleDec 3 2) := by decide
/-- V-EN1: OP 8, PB 3, N 3. -/
theorem test_decode_rle_enc : decodeTableWord 32 0x00000338 = some (.rleEnc 3 3) := by decide
/-- R81: T = 1, C = 1. -/
theorem test_decode_pkt_repeat : decodeTableWord 8 0x81 = some (.pktRepeat 1) := by decide
/-- R82: T = 0, C = 127. -/
theorem test_decode_pkt_direct : decodeTableWord 8 0x7F = some (.pktDirect 127) := by decide
/-- Every bit of PB and N set, RSV clear: 1111 1111 … 0 111 0111. -/
theorem test_decode_all_operand_bits : decodeTableWord 32 0xFFFFFF77 = some (.rleDec 7 16777215) := by decide
/-- R78: the reserved OPs, whatever RSV is. -/
theorem test_reserved_ops :
    [0x0, 0x9, 0xA, 0xB, 0xC, 0xD, 0xE, 0xF, 0x89].all (fun v => decodeTableWord 32 v == none) = true := by decide
/-- R75, V-W4: RSV = 1. -/
theorem test_reserved_bit : decodeCommand 0x00000197 = .error .reservedBit := rfl
/-- R87: a reserved OP is reported before RSV. -/
theorem test_reserved_op_first : decodeCommand 0x0000008B = .error (.reservedOp 0xB) := rfl
/-- R76: the encoding of `RLE_DEC.3 2` is the word V-DE1 gives. -/
theorem test_encode : (encode (.rleDec 3 2)).bits = 0x237 ∧ (encode (.pktRepeat 1)).bits = 0x81 := by decide

/-! ## Well-formedness: one ill-formed term for each check of R77 -/

theorem test_wf_le16_unpack_pb : (Instr.le16Unpack 1 0).wf = false := by decide
theorem test_wf_le16_unpack_n : (Instr.le16Unpack 0 1).wf = false := by decide
theorem test_wf_le16_pack_pb : (Instr.le16Pack 4 0).wf = false := by decide
theorem test_wf_le16_pack_n : (Instr.le16Pack 0 65536).wf = false ∧ (Instr.le16Pack 0 65535).wf = true := by decide
theorem test_wf_raw_rd_pb : (Instr.rawRd 0 1).wf = false ∧ (Instr.rawRd 5 1).wf = false := by decide
theorem test_wf_raw_rd_n : (Instr.rawRd 4 65536).wf = false ∧ (Instr.rawRd 4 65535).wf = true := by decide
theorem test_wf_raw_wr_pb : (Instr.rawWr 0 1).wf = false ∧ (Instr.rawWr 7 1).wf = false := by decide
theorem test_wf_raw_wr_n : (Instr.rawWr 1 65536).wf = false := by decide
theorem test_wf_swap_pb : (Instr.swap 2 4).wf = false := by decide
theorem test_wf_swap_n : (Instr.swap 3 4).wf = false ∧ (Instr.swap 4 6).wf = false := by decide
theorem test_wf_expand_pb : (Instr.expand 3 2).wf = false := by decide
theorem test_wf_expand_n : (Instr.expand 2 3).wf = false := by decide
theorem test_wf_rle_dec_pb : (Instr.rleDec 0 1).wf = false ∧ (Instr.rleDec 6 1).wf = false := by decide
theorem test_wf_rle_dec_n : (Instr.rleDec 2 65536).wf = false := by decide
theorem test_wf_rle_enc_pb : (Instr.rleEnc 0 1).wf = false ∧ (Instr.rleEnc 5 1).wf = false := by decide
theorem test_wf_rle_enc_n : (Instr.rleEnc 3 16777215).wf = false := by decide

/-! ## One step of each instruction -/

/-- V-LE1: 0x80 0x02 is 640. -/
theorem test_le16_unpack : (after 0x00000001 (machine [0x80, 0x02] [])).map
    (fun t => (t.result, t.incnt, t.status.word)) = some (640, 2, 0x00000102) := by decide
/-- V-LE4: EOS after one byte. -/
theorem test_le16_unpack_eos : (after 0x00000001 (machine [0x11] [])).map
    (fun t => (t.result, t.incnt, t.status.word)) = some (0, 1, 0x00000146) := by decide
/-- V-LE8: 480 is 0xE0 0x01. -/
theorem test_le16_pack : (after 0x0001E002 (machine [] [])).map
    (fun t => (t.out.sent, t.outcnt, t.status.word)) = some ([0xE0, 0x01], 2, 0x00000202) := by decide
/-- V-LE11: OUT refuses the second byte. -/
theorem test_le16_pack_refused : (after 0x00123402 (machine [] [] (some 1))).map
    (fun t => (t.out.sent, t.outcnt, t.status.word)) = some ([0x34], 1, 0x00000256) := by decide
/-- V-RAW1. -/
theorem test_raw_rd : (after 0x00000233 (machine [10, 20, 30, 40, 50, 60] [])).map
    (fun t => (t.lb, t.incnt, t.pixcnt, t.status.word)) = some (cellsAt 0 [10, 20, 30, 40, 50, 60], 6, 2, 0x00000302) := by
  decide
/-- V-RAW2: EOS inside the third pixel. -/
theorem test_raw_rd_eos : (after 0x00000323 (machine [1, 2, 3, 4, 5] [])).map
    (fun t => (t.lb.take 4, t.incnt, t.pixcnt, t.status.word)) = some (cellsAt 0 [1, 2, 3, 4], 5, 2, 0x00000346) := by
  decide
/-- V-RAW7. -/
theorem test_raw_wr : (after 0x00000314 (machine [] [1, 2, 3])).map
    (fun t => (t.out.sent, t.outcnt, t.pixcnt, t.status.word)) = some ([1, 2, 3], 3, 3, 0x00000402) := by decide
/-- V-RAW8: OUT refuses the fifth byte. -/
theorem test_raw_wr_refused : (after 0x00000234 (machine [] [1, 2, 3, 4, 5, 6] (some 4))).map
    (fun t => (t.out.sent, t.outcnt, t.pixcnt, t.status.word)) = some ([1, 2, 3, 4], 4, 1, 0x00000456) := by decide
/-- V-SW2: stride 4 keeps bytes 1 and 3. -/
theorem test_swap : (after 0x00000845 (machine [] [1, 2, 3, 4, 5, 6, 7, 8])).map
    (fun t => (t.lb, t.pixcnt, t.status.word)) = some (cellsAt 0 [3, 2, 1, 4, 7, 6, 5, 8], 2, 0x00000502) := by decide
/-- R229: a byte of the region is UNWRITTEN. -/
theorem test_swap_unwritten : faultOf (step ((machine [] [1, 2]).withFetchWord 32 0x00000335)) =
    some (.modelUnwrittenRead 2) := by decide
/-- V-EX1: 0x7FFF. -/
theorem test_expand : (after 0x00000226 (machine [] [0xFF, 0x7F])).map
    (fun t => (t.lb, t.pixcnt, t.status.word)) = some (cellsAt 0 [31, 31, 31], 1, 0x00000602) := by decide
/-- R126 by hand: 0x1234 is 0 00100 10001 10100; the byte behind the output stays. -/
theorem test_expand_fields : (after 0x00000226 (machine [] [0x34, 0x12, 9, 9])).map (fun t => t.lb) =
    some (cellsAt 0 [20, 17, 4, 9]) := by decide
/-- V-DE1. -/
theorem test_rle_dec : (after 0x00000237 (machine [0x81, 10, 20, 30] [])).map
    (fun t => (t.lb, t.incnt, t.pixcnt, t.status.word)) = some (cellsAt 0 [10, 20, 30, 10, 20, 30], 4, 2, 0x00000702) := by
  decide
/-- V-DE4: a direct packet of four for a line of two: its last two pixels stay on IN. -/
theorem test_rle_dec_overrun : (after 0x00000217 (machine [3, 1, 2, 3, 4] [])).map
    (fun t => (t.lb, t.incnt, t.inp.bytes, t.status.word)) = some (cellsAt 0 [1, 2], 3, [3, 4], 0x00000702) := by decide
/-- V-EN1. -/
theorem test_rle_enc : (after 0x00000338 (machine [] [10, 20, 30, 10, 20, 30, 40, 50, 60])).map
    (fun t => (t.out.sent, t.outcnt, t.pixcnt, t.status.word)) =
    some ([0x81, 10, 20, 30, 0x00, 40, 50, 60], 8, 3, 0x00000802) := by decide
/-- V-EN3: the direct run stops before the pixel that equals its successor. -/
theorem test_rle_enc_runs : (after 0x00000418 (machine [] [1, 2, 3, 3])).map (fun t => t.out.sent) =
    some [0x01, 1, 2, 0x81, 3] := by decide

/-- A `RLE_DEC.1 4` at its first header, with two bytes on IN behind it. -/
def atFirstHeader : State := (machine [7, 8] []).issue 0x00000417

/-- R81, R152: a repeat packet of two. -/
theorem test_pkt_repeat : (nextOf (exec (.pktRepeat 1) atFirstHeader)).map
    (fun t => (t.lb, t.inp.bytes, t.x, t.status.busy)) = some (cellsAt 0 [7, 7], [8], 2, true) := by decide
/-- R153: a repeat packet longer than the line ends it. -/
theorem test_pkt_repeat_overrun : (nextOf (exec (.pktRepeat 127) atFirstHeader)).map
    (fun t => (t.lb, t.rep, t.x, t.status.word)) = some (cellsAt 0 [7, 7, 7, 7], 0, 4, 0x00000702) := by decide
/-- R82, R152: a direct packet of two. -/
theorem test_pkt_direct : (nextOf (exec (.pktDirect 1) atFirstHeader)).map
    (fun t => (t.lb, t.inp.bytes, t.x, t.status.busy)) = some (cellsAt 0 [7, 8], [], 2, true) := by decide
/-- R156: EOS inside a direct packet of three: the rest of the line is spoiled (93 item 3). -/
theorem test_pkt_direct_eos : (nextOf (exec (.pktDirect 2) atFirstHeader)).map
    (fun t => (t.lb.map (fun c => c.1), t.pixcnt, t.status.word)) = some ([0, 1, 2, 3], 2, 0x00000746) := by decide

/-! ## The machine around the instructions -/

/-- V-W1: a reserved OP. -/
theorem test_reserved_word : (after 0x000000F9 (machine [] [])).map (fun t => t.status.word) = some 0x00000976 := by decide
/-- R240: a reset in the middle of an RLE_DEC makes its range UNWRITTEN and keeps the rest. -/
theorem test_reset_abandons : (nextOf (step { (machine [] [1, 2, 3, 4, 5]).issue 0x00000417 with agenda := [.reset] })).map
    (fun t => (t.lb, t.status.word)) = some ([(4, 5)], 0) := by decide
/-- R29. -/
theorem test_id : (nextOf (step { State.reset with agenda := [.regRead 0x1C 4] })).map (fun t => t.reads) =
    some [0x54534301] := by decide
/-- R52, R57: a command that waits takes the byte IN has and stays BUSY; with the second byte it ends. -/
theorem test_transfer : (nextOf (step { (machine [] []).issue 1 with
      inp := { bytes := [0x80], eos := false }, agenda := [.transfer, .inArrive [0x02]] })).map
    (fun t => (t.incnt, t.result, t.status.word, (step t |> nextOf).map fun u => (step u |> nextOf).map fun v => v.result)) =
    some (1, 0, 0x00000101, some (some 640)) := by decide
/-- R249: BUSY, nothing scheduled, nothing on IN: no step, a hang. -/
theorem test_hang : ({ (machine [] []).issue 1 with inp := { bytes := [], eos := false } } : State).observe = .hang := by decide
/-- R253: after the host's read of STATUS the run of V-LE8 has ended and shows ID. -/
theorem test_run_end : ((nextOf (step (State.reset.withFetchWord 32 0x0001E002))).bind fun t =>
      nextOf (step { t with agenda := [.regRead 0x04 4] })).map
    (fun t => (t.observe, t.visible.id, t.visible.outSent)) =
    ((nextOf (step (State.reset.withFetchWord 32 0x0001E002))).bind fun t =>
      nextOf (step { t with agenda := [.regRead 0x04 4] })).map
    (fun t => (RunStatus.ended t.visible, 0x54534301, [0xE0, 0x01])) := by decide
/-- withFetchWord puts a packet header where the next step takes it, also from reset. -/
theorem test_fetch_packet : (nextOf (step (State.reset.withFetchWord 8 0x82))).map
    (fun t => (t.lb, t.x, t.status.busy)) = some (cellsAt 0 [0, 0, 0], 3, true) := by decide

/-! ## Witnesses: states and operands that meet the hypotheses of the obligations, clause by clause -/

/-- An idle machine with these events scheduled. -/
def scheduled (events : List Event) : State := { State.reset with agenda := events }

/-- A machine whose host has just issued the command word `v`, with these events scheduled. -/
def issued (v : Word) (events : List Event) : State := { State.reset.issue v with agenda := events }

theorem unbounded_accepts (sent : List Byte) (k : Nat) : ({ sent := sent, cap := none, answers := none } : OutPort).accepts k :=
  ⟨(fun _ h => nomatch h), (fun _ h => nomatch h)⟩

theorem capacity_refuses (sent : List Byte) (c k : Nat) (h : c < k) :
    ({ sent := sent, cap := some c, answers := none } : OutPort).refusesAfter c k :=
  ⟨rfl, h, (fun _ h => nomatch h)⟩

theorem witness_EncodeDecodeAgree : decode (.cmd32 0xFFFF0048) = .ok (.rleEnc 4 16776960) := rfl

theorem witness_ReservedWordsFaultGeneric :
    ((issued 0x00000000 []).status.busy = true ∧ (issued 0x00000000 []).agenda = [] ∧ (issued 0x00000000 []).lat.op = 0) ∧
    ((issued 0x00000009 []).status.busy = true ∧ (issued 0x00000009 []).agenda = [] ∧
      9 ≤ (issued 0x00000009 []).lat.op.toNat) ∧
    ((issued 0x00000197 []).status.busy = true ∧ (issued 0x00000197 []).agenda = [] ∧
      (issued 0x00000197 []).lat.rsv = true) := by decide

theorem witness_StepRunsLatchedCommand :
    ((issued 0x00000001 []).status.busy = true ∧ decodeTableWord 32 (issued 0x00000001 []).lat.word.toNat = some (.le16Unpack 0 0) ∧
      (issued 0x00000001 []).agenda = []) ∧
    ((issued 0x00000001 [.run]).status.busy = true ∧ (issued 0x00000001 [.run]).agenda = [.run]) := by decide

theorem witness_StepRunsPacketHeader :
    ({ atFirstHeader with agenda := [.packet] } : State).atHeader = true ∧
    ({ atFirstHeader with agenda := [.packet] } : State).agenda = [.packet] ∧
    ({ atFirstHeader with agenda := [.packet] } : State).inp.bytes = [7, 8] := by decide

theorem witness_PlacedCommandRunsNext : decodeCommand 0x00FFFF02 = .ok (.le16Pack 0 65535) := rfl

theorem witness_IdleStepChangesNothing : State.reset.status.busy = false ∧ State.reset.agenda = [] := by decide

theorem witness_CmdWriteIssuesCommand :
    ((scheduled [writeCmd 0x237]).agenda = [.regWrite 0x00 4 0x237] ∧ (scheduled [writeCmd 0x237]).status.busy = false) ∧
    ((issued 1 [writeCmd 0x237]).agenda = [.regWrite 0x00 4 0x237] ∧ (issued 1 [writeCmd 0x237]).status.busy = true) ∧
    (issued 1 [.regRead 0x00 4]).agenda = [.regRead 0x00 4] := by decide

theorem witness_BaseIsReadWrite :
    ((scheduled [setBase 0xFFFFFFFF]).agenda = [.regWrite 0x08 4 0xFFFFFFFF] ∧
      (scheduled [setBase 0xFFFFFFFF]).status.busy = false) ∧
    ((issued 1 [setBase 0]).agenda = [.regWrite 0x08 4 0] ∧ (issued 1 [setBase 0]).status.busy = true) ∧
    (issued 1 [.regRead 0x08 4]).agenda = [.regRead 0x08 4] := by decide

theorem witness_IdIsHardwired :
    (scheduled [.regRead 0x1C 4]).agenda = [.regRead 0x1C 4] ∧
    (scheduled [.regWrite 0x1C 4 0]).agenda = [.regWrite 0x1C 4 0] := by decide

theorem witness_OtherRegistersIgnoreWrites :
    (scheduled [.regWrite 0x04 4 7]).agenda = [.regWrite 0x04 4 7] ∧
    (scheduled [.regWrite 0x3C 4 7]).agenda = [.regWrite 0x3C 4 7] ∧
    (scheduled [.regRead 0x20 4]).agenda = [.regRead 0x20 4] ∧
    (scheduled [.regRead 0x3C 4]).agenda = [.regRead 0x3C 4] := by decide

theorem witness_StatusReadShowsItsFields : (issued 1 [.regRead 0x04 4]).agenda = [.regRead 0x04 4] := by decide

theorem witness_ResultAndCounterReads :
    ((scheduled [.regRead 0x18 4]).status.busy = false ∧ (scheduled [.regRead 0x18 4]).agenda = [.regRead 0x18 4]) ∧
    ((issued 1 [.regRead 0x0C 4]).status.busy = true ∧ (issued 1 [.regRead 0x0C 4]).agenda = [.regRead 0x0C 4]) := by decide

theorem witness_HostDutiesHaveNoMove :
    (issued 1 [.regWrite 0x00 4 1]).status.busy = true ∧ (issued 1 [.regWrite 0x08 4 1]).status.busy = true ∧
    (issued 1 [.lbRead 0]).status.busy = true ∧ (issued 1 [.lbWrite 0 0]).status.busy = true ∧
    (scheduled [.regRead 0x02 4]).agenda = [.regRead 0x02 4] ∧
    (scheduled [.regWrite 0x00 2 0]).agenda = [.regWrite 0x00 2 0] := by decide

theorem witness_HostLbWriteThenRead :
    (scheduled [.lbWrite 262139 9, .lbRead 262139]).status.busy = false ∧
    262139 < (scheduled [.lbWrite 262139 9, .lbRead 262139]).cfg.lbSize ∧
    (scheduled [.lbWrite 262139 9, .lbRead 262139]).agenda = [.lbWrite 262139 9, .lbRead 262139] ∧
    (scheduled [.lbWrite 262139 9, .lbRead 0]).agenda = [.lbWrite 262139 9, .lbRead 0] ∧
    lbGet (scheduled [.lbWrite 262139 9, .lbRead 0]).lb 0 = none ∧
    lbGet ({ machine [] [5] with agenda := [.lbWrite 1 9, .lbRead 0] } : State).lb 0 = some 5 := by decide

theorem witness_ResetWhilePowered :
    ((scheduled [.reset]).agenda = [.reset] ∧ (scheduled [.reset]).status.busy = false) ∧
    ((issued 0x00000417 [.reset]).agenda = [.reset] ∧ (issued 0x00000417 [.reset]).status.busy = true ∧
      opTable (issued 0x00000417 [.reset]).lat.op (issued 0x00000417 [.reset]).lat.pb (issued 0x00000417 [.reset]).lat.n =
        some (.rleDec 1 4) ∧
      lbLength (.rleDec 1 4) = some 4) ∧
    ((issued 0x00000001 [.reset]).status.busy = true ∧
      opTable (issued 0x00000001 [.reset]).lat.op (issued 0x00000001 [.reset]).lat.pb (issued 0x00000001 [.reset]).lat.n =
        some (.le16Unpack 0 0) ∧ lbLength (.le16Unpack 0 0) = none) ∧
    ((issued 0x0000000F [.reset]).status.busy = true ∧
      opTable (issued 0x0000000F [.reset]).lat.op (issued 0x0000000F [.reset]).lat.pb (issued 0x0000000F [.reset]).lat.n = none) ∧
    ((issued 0x00000197 [.reset]).status.busy = true ∧ (issued 0x00000197 [.reset]).lat.rsv = true ∧
      opTable (issued 0x00000197 [.reset]).lat.op (issued 0x00000197 [.reset]).lat.pb (issued 0x00000197 [.reset]).lat.n =
        some (.rleDec 1 1) ∧ lbLength (.rleDec 1 1) = some 1) := by decide

theorem witness_PowerOnResetValues : (scheduled [.powerOn]).agenda = [.powerOn] := by decide

theorem atFirstHeader_inv : atFirstHeader.Inv where
  canonical := List.Pairwise.nil
  bounded := fun _ h => nomatch h
  consistent := by decide
  ranges := by unfold State.countersInRange; decide
  encoder := by unfold State.encoderInRange; decide

theorem witness_StepKeepsInv : atFirstHeader.Inv ∧ (nextOf (step atFirstHeader)).isSome = true :=
  ⟨atFirstHeader_inv, by decide⟩

theorem witness_NormalCompletion : atFirstHeader.Inv ∧ atFirstHeader.status.busy = true := ⟨atFirstHeader_inv, rfl⟩

theorem witness_StepKeepsConfig : (nextOf (step atFirstHeader)).isSome = true := by decide

theorem witness_StatusChangesOnlyByIssueEndReset :
    (nextOf (step (scheduled [.reset]))).isSome = true ∧ (nextOf (step (issued 0x00000002 []))).isSome = true := by decide

/-- One run of each instruction that answers a next state: the premise of ExecFrame, StoresStayInRange and
PortBytesAreCounted. -/
theorem witness_ExecFrame :
    ((nextOf (exec (.le16Unpack 0 0) (machine [1, 2] []))).isSome && (nextOf (exec (.le16Pack 0 65535) (machine [] []))).isSome &&
    (nextOf (exec (.rawRd 4 1) (machine [1, 2, 3, 4] []))).isSome && (nextOf (exec (.rawWr 4 1) (machine [] [1, 2, 3, 4]))).isSome &&
    (nextOf (exec (.swap 4 4) (machine [] [1, 2, 3, 4]))).isSome && (nextOf (exec (.expand 2 2) (machine [] [1, 2]))).isSome &&
    (nextOf (exec (.rleDec 1 1) (machine [0, 1] []))).isSome && (nextOf (exec (.rleEnc 1 1) (machine [] [1]))).isSome &&
    (nextOf (exec (.pktRepeat 0) atFirstHeader)).isSome && (nextOf (exec (.pktDirect 0) atFirstHeader)).isSome) = true := by
  decide

/-- The boundary values of the operand checks. -/
theorem witness_OperandFaults :
    ((0 : BitVec 3).toNat < 1 ∧ 4 < (5 : BitVec 3).toNat ∧ 1 ≤ (4 : BitVec 3).toNat ∧ (4 : BitVec 3).toNat ≤ 4 ∧
      65535 < (65536 : BitVec 24).toNat ∧ (65535 : BitVec 24).toNat ≤ 65535) ∧
    ({ State.reset with lat := { State.reset.lat with base := 1 } } : State).cfg.lbSize <
      ({ State.reset with lat := { State.reset.lat with base := 1 } } : State).lat.base.toNat +
        (65535 : BitVec 24).toNat * (4 : BitVec 3).toNat ∧
    ((2 : BitVec 3) ≠ 3 ∧ (2 : BitVec 3) ≠ 4 ∧ (4 : BitVec 24).toNat % (3 : BitVec 3).toNat ≠ 0 ∧
      (262144 : BitVec 24).toNat % (4 : BitVec 3).toNat = 0 ∧
      State.reset.cfg.lbSize < State.reset.lat.base.toNat + (262144 : BitVec 24).toNat) ∧
    ((3 : BitVec 3) ≠ 2 ∧ (3 : BitVec 24).toNat % 2 ≠ 0 ∧ (174762 : BitVec 24).toNat % 2 = 0 ∧
      State.reset.cfg.lbSize < State.reset.lat.base.toNat + 3 * (174762 : BitVec 24).toNat / 2) ∧
    ((1 : BitVec 3) ≠ 0 ∧ (1 : BitVec 24) ≠ 0 ∧ 65536 ≤ (65536 : BitVec 24).toNat) := by decide

theorem witness_Le16CodecFunctions : le16Pack 0xFF00 = [0x00, 0xFF] := by decide

theorem witness_Le16UnpackResult :
    (Instr.le16Unpack 0 0).wf = true ∧
    (((machine [1, 2, 3] []).issue 1).Fresh ∧ ((machine [1, 2, 3] []).issue 1).inp.bytes = [1, 2, 3]) ∧
    (((machine [] []).issue 1).Fresh ∧ ((machine [] []).issue 1).inp.eos = true ∧ ((machine [] []).issue 1).inp.bytes = []) ∧
    (((machine [1] []).issue 1).Fresh ∧ ((machine [1] []).issue 1).inp.eos = true ∧ ((machine [1] []).issue 1).inp.bytes = [1]) ∧
    ((1 : BitVec 3) ≠ 0 ∧ (1 : BitVec 24) ≠ 0) :=
  ⟨by decide, ⟨State.fresh_issue _ _, rfl⟩, ⟨State.fresh_issue _ _, rfl, rfl⟩, ⟨State.fresh_issue _ _, rfl, rfl⟩, by decide⟩

theorem witness_Le16PackResult :
    (((machine [] []).issue 2).Fresh ∧ ((machine [] []).issue 2).out.accepts 2) ∧
    (((machine [] [] (some 0)).issue 2).Fresh ∧ ((machine [] [] (some 0)).issue 2).out.refusesAfter 0 2) ∧
    (((machine [] [] (some 1)).issue 2).Fresh ∧ ((machine [] [] (some 1)).issue 2).out.refusesAfter 1 2) ∧
    ((1 : BitVec 3) ≠ 0 ∧ 65536 ≤ (65536 : BitVec 24).toNat) :=
  ⟨⟨State.fresh_issue _ _, unbounded_accepts _ _⟩, ⟨State.fresh_issue _ _, capacity_refuses _ _ _ (by decide)⟩,
    ⟨State.fresh_issue _ _, capacity_refuses _ _ _ (by decide)⟩, by decide⟩

/-- `RAW_RD.4 65535` at 0 fills LB exactly; `RAW_RD.3 1` with its three bytes. -/
theorem witness_RawRdCopies :
    ((machine [1, 2, 3] []).issue 0x133).Fresh ∧ ((machine [1, 2, 3] []).issue 0x133).lb.wf ∧ (Instr.rawRd 3 1).wf = true ∧
    ((machine [1, 2, 3] []).issue 0x133).lat.base.toNat + (1 : BitVec 24).toNat * (3 : BitVec 3).toNat ≤
      ((machine [1, 2, 3] []).issue 0x133).cfg.lbSize ∧
    (1 : BitVec 24).toNat * (3 : BitVec 3).toNat ≤ ((machine [1, 2, 3] []).issue 0x133).inp.bytes.length ∧
    (Instr.rawRd 4 65535).wf = true ∧ 0 + (65535 : BitVec 24).toNat * (4 : BitVec 3).toNat ≤ Config.standard.lbSize :=
  ⟨State.fresh_issue _ _, List.Pairwise.nil, by decide⟩

theorem witness_RawRdAtEndOfStream :
    ((machine [1, 2, 3] []).issue 0x223).Fresh ∧ (Instr.rawRd 2 2).wf = true ∧
    ((machine [1, 2, 3] []).issue 0x223).lat.base.toNat + (2 : BitVec 24).toNat * (2 : BitVec 3).toNat ≤
      ((machine [1, 2, 3] []).issue 0x223).cfg.lbSize ∧
    ((machine [1, 2, 3] []).issue 0x223).inp.eos = true ∧
    ((machine [1, 2, 3] []).issue 0x223).inp.bytes.length < (2 : BitVec 24).toNat * (2 : BitVec 3).toNat :=
  ⟨State.fresh_issue _ _, by decide⟩

theorem witness_RawWrCopies :
    ((machine [] [1, 2, 3]).issue 0x314).Fresh ∧ ((machine [] [1, 2, 3]).issue 0x314).out.accepts 3 ∧
    (Instr.rawWr 1 3).wf = true ∧
    ((machine [] [1, 2, 3]).issue 0x314).lat.base.toNat + 3 ≤ ((machine [] [1, 2, 3]).issue 0x314).cfg.lbSize ∧
    lbRead ((machine [] [1, 2, 3]).issue 0x314).lb ((machine [] [1, 2, 3]).issue 0x314).lat.base.toNat
      ((3 : BitVec 24).toNat * (1 : BitVec 3).toNat) = .ok [1, 2, 3] :=
  ⟨State.fresh_issue _ _, unbounded_accepts _ _, by decide, by decide, rfl⟩

theorem witness_RawWrRefused :
    ((machine [] [1, 2, 3] (some 2)).issue 0x314).Fresh ∧ ((machine [] [1, 2, 3] (some 2)).issue 0x314).out.refusesAfter 2 3 ∧
    (Instr.rawWr 1 3).wf = true ∧
    lbRead ((machine [] [1, 2, 3] (some 2)).issue 0x314).lb 0 ((3 : BitVec 24).toNat * (1 : BitVec 3).toNat) = .ok [1, 2, 3] :=
  ⟨State.fresh_issue _ _, capacity_refuses _ _ _ (by decide), by decide, rfl⟩

theorem witness_SwapExchangesBytes0And2 :
    (([1, 2, 3, 4, 5, 6] : List Byte).length % 3 = 0 ∧ 1 * 3 < ([1, 2, 3, 4, 5, 6] : List Byte).length) ∧
    (([1, 2, 3, 4] : List Byte).length % 4 = 0 ∧ 0 * 4 < ([1, 2, 3, 4] : List Byte).length) := by decide

theorem witness_SwapSwapsRegion :
    (Instr.swap 4 4).wf = true ∧ (machine [] [1, 2, 3, 4]).lat.base.toNat + 4 ≤ (machine [] [1, 2, 3, 4]).cfg.lbSize ∧
    lbRead (machine [] [1, 2, 3, 4]).lb (machine [] [1, 2, 3, 4]).lat.base.toNat (4 : BitVec 24).toNat = .ok [1, 2, 3, 4] :=
  ⟨by decide, by decide, rfl⟩

/-- The state after one `SWAP.3 3`. -/
def swappedOnce : State := (nextOf (exec (.swap 3 3) (machine [] [1, 2, 3]))).getD State.reset

theorem witness_SwapIsSelfInverse :
    (machine [] [1, 2, 3]).lb.wf ∧ exec (.swap 3 3) (machine [] [1, 2, 3]) = .next swappedOnce ∧
    swappedOnce.lat.base = (machine [] [1, 2, 3]).lat.base ∧ swappedOnce.cfg = (machine [] [1, 2, 3]).cfg ∧
    (nextOf (exec (.swap 3 3) swappedOnce)).isSome = true :=
  ⟨by decide, rfl, by decide, by decide, by decide⟩

theorem witness_ExpandSizeLaw :
    ([0xFF, 0x7F] : List Byte).length % 2 = 0 ∧ (2 : BitVec 24).toNat % 2 = 0 ∧
    (machine [] [1, 2]).lat.base.toNat + 3 * (2 : BitVec 24).toNat / 2 ≤ (machine [] [1, 2]).cfg.lbSize ∧
    lbRead (machine [] [1, 2]).lb (machine [] [1, 2]).lat.base.toNat (2 : BitVec 24).toNat = .ok [1, 2] :=
  ⟨by decide, by decide, by decide, rfl⟩

theorem witness_ExpandValues :
    ([9, 9, 0x34, 0x12] : List Byte)[2 * 1]? = some 0x34 ∧ ([9, 9, 0x34, 0x12] : List Byte)[2 * 1 + 1]? = some 0x12 := by decide

theorem witness_ExpandExpandsRegion :
    (2 : BitVec 24).toNat % 2 = 0 ∧
    (machine [] [1, 2]).lat.base.toNat + 3 * (2 : BitVec 24).toNat / 2 ≤ (machine [] [1, 2]).cfg.lbSize ∧
    lbRead (machine [] [1, 2]).lb (machine [] [1, 2]).lat.base.toNat (2 : BitVec 24).toNat = .ok [1, 2] :=
  ⟨by decide, by decide, rfl⟩

theorem witness_UnwrittenReadStops :
    ((Instr.swap 3 3).wf = true ∧ lbRead (machine [] [1, 2]).lb 0 (3 : BitVec 24).toNat = .error 2) ∧
    ((Instr.expand 2 4).wf = true ∧ lbRead (machine [] [1, 2]).lb 0 (4 : BitVec 24).toNat = .error 2) ∧
    (((machine [] [1, 2]).issue 0x314).Fresh ∧ (Instr.rawWr 1 3).wf = true ∧ ((machine [] [1, 2]).issue 0x314).out.accepts 3 ∧
      lbRead ((machine [] [1, 2]).issue 0x314).lb 0 3 = .error 2) ∧
    ((Instr.rleEnc 1 3).wf = true ∧ ((machine [] [1, 2]).issue 0x318).out.accepts (3 * (1 + 1)) ∧
      ((machine [] [1, 2]).issue 0x318).lat.base.toNat + 3 ≤ ((machine [] [1, 2]).issue 0x318).cfg.lbSize) :=
  ⟨⟨by decide, rfl⟩, ⟨by decide, rfl⟩, ⟨State.fresh_issue _ _, by decide, unbounded_accepts _ _, rfl⟩, by decide,
    unbounded_accepts _ _, by decide⟩

/-- A packet within the line, and one that fills it. -/
theorem witness_RepeatPacketEmitsCopies :
    atFirstHeader.atHeader = true ∧ atFirstHeader.lb.wf ∧ atFirstHeader.lat.pb.toNat ≤ atFirstHeader.inp.bytes.length ∧
    atFirstHeader.x + min ((2 : BitVec 7).toNat + 1) (atFirstHeader.lat.n.toNat - atFirstHeader.x) < atFirstHeader.lat.n.toNat ∧
    ¬ atFirstHeader.x + min ((3 : BitVec 7).toNat + 1) (atFirstHeader.lat.n.toNat - atFirstHeader.x) <
      atFirstHeader.lat.n.toNat := by decide

theorem witness_DirectPacketCopiesPixels :
    atFirstHeader.atHeader = true ∧ atFirstHeader.lb.wf ∧
    min ((1 : BitVec 7).toNat + 1) (atFirstHeader.lat.n.toNat - atFirstHeader.x) * atFirstHeader.lat.pb.toNat ≤
      atFirstHeader.inp.bytes.length := by decide

theorem witness_PacketOutsideDecodeRefused : State.reset.atHeader = false := by decide

theorem witness_DecodePacketByPacket : atFirstHeader.atHeader = true ∧ atFirstHeader.inp.bytes = [7, 8] := by decide

theorem witness_RleDecIsRleDecode :
    ((machine [0x81, 10, 20, 30, 9] []).issue 0x237).Fresh ∧ ((machine [0x81, 10, 20, 30, 9] []).issue 0x237).lb.wf ∧
    (Instr.rleDec 3 2).wf = true ∧
    ((machine [0x81, 10, 20, 30, 9] []).issue 0x237).lat.base.toNat + (2 : BitVec 24).toNat * (3 : BitVec 3).toNat ≤
      ((machine [0x81, 10, 20, 30, 9] []).issue 0x237).cfg.lbSize ∧
    rleDecode (3 : BitVec 3).toNat (2 : BitVec 24).toNat ((machine [0x81, 10, 20, 30, 9] []).issue 0x237).inp.bytes =
      .ok [10, 20, 30, 10, 20, 30] 4 :=
  ⟨State.fresh_issue _ _, List.Pairwise.nil, by decide⟩

theorem witness_RleDecAtEndOfStream :
    ((machine [2, 1, 2, 3] []).issue 0x327).Fresh ∧ (Instr.rleDec 2 3).wf = true ∧
    ((machine [2, 1, 2, 3] []).issue 0x327).inp.eos = true ∧
    ((machine [2, 1, 2, 3] []).issue 0x327).lat.base.toNat + (3 : BitVec 24).toNat * (2 : BitVec 3).toNat ≤
      ((machine [2, 1, 2, 3] []).issue 0x327).cfg.lbSize ∧
    rleDecode (2 : BitVec 3).toNat (3 : BitVec 24).toNat ((machine [2, 1, 2, 3] []).issue 0x327).inp.bytes =
      .readFailure [1, 2] 4 :=
  ⟨State.fresh_issue _ _, by decide⟩

theorem witness_ZeroWidthDoesNothing :
    ((machine [] []).issue 0x17).Fresh ∧ 1 ≤ (1 : BitVec 3).toNat ∧ (1 : BitVec 3).toNat ≤ 4 ∧
    ((machine [] []).issue 0x17).lat.base.toNat ≤ ((machine [] []).issue 0x17).cfg.lbSize :=
  ⟨State.fresh_issue _ _, by decide⟩

theorem witness_DecodeConsumesWholePackets :
    ((machine [0x81, 7, 0x00, 9, 5] []).issue 0x317).Fresh ∧ (Instr.rleDec 1 3).wf = true ∧
    (∀ kind run, (kind, run) ∈ [(RunKind.repeated, [[7], [7]]), (RunKind.direct, [[9]])] →
      1 ≤ run.length ∧ run.length ≤ 128 ∧ (∀ px ∈ run, px.length = (1 : BitVec 3).toNat) ∧
      (kind = .repeated → ∀ px ∈ run, run.head? = some px)) ∧
    ([(RunKind.repeated, [[7], [7]]), (RunKind.direct, [([9] : Pixel)])].map fun k => k.2.length).sum = (3 : BitVec 24).toNat ∧
    ((machine [0x81, 7, 0x00, 9, 5] []).issue 0x317).inp.bytes =
      [(RunKind.repeated, [[7], [7]]), (RunKind.direct, [([9] : Pixel)])].flatMap streamBytes ++ [5] := by
  refine ⟨State.fresh_issue _ _, by decide, fun kind run h => ?_, by decide, by decide⟩
  simp only [List.mem_cons, Prod.mk.injEq, List.not_mem_nil, or_false] at h
  rcases h with ⟨rfl, rfl⟩ | ⟨rfl, rfl⟩ <;> simp

theorem witness_RleEncIsRleEncode :
    ((machine [] [7, 7, 9]).issue 0x318).Fresh ∧ (Instr.rleEnc 1 3).wf = true ∧
    ((machine [] [7, 7, 9]).issue 0x318).lat.base.toNat + 3 ≤ ((machine [] [7, 7, 9]).issue 0x318).cfg.lbSize ∧
    ([[7], [7], [9]] : List Pixel).length = (3 : BitVec 24).toNat ∧ (∀ px ∈ ([[7], [7], [9]] : List Pixel), px.length = 1) ∧
    lbRead ((machine [] [7, 7, 9]).issue 0x318).lb 0 3 = .ok ([[7], [7], [9]] : List Pixel).flatten ∧
    ((machine [] [7, 7, 9]).issue 0x318).out.accepts (rleEncode [[7], [7], [9]]).length :=
  ⟨State.fresh_issue _ _, by decide, by decide, by decide, by decide, rfl, unbounded_accepts _ _⟩

theorem witness_RleEncRefused :
    ((machine [] [7, 7, 9] (some 3)).issue 0x318).Fresh ∧ (Instr.rleEnc 1 3).wf = true ∧
    lbRead ((machine [] [7, 7, 9] (some 3)).issue 0x318).lb 0 3 = .ok ([[7], [7], [9]] : List Pixel).flatten ∧
    ((machine [] [7, 7, 9] (some 3)).issue 0x318).out.refusesAfter 3 (rleEncode [[7], [7], [9]]).length :=
  ⟨State.fresh_issue _ _, by decide, rfl, capacity_refuses _ _ _ (by decide)⟩

theorem witness_EncodingProperties :
    (∀ px ∈ ([[7], [7], [9]] : List Pixel), px.length = 1) ∧
    rlePackets [[7], [7], [9]] = [] ++ (.repeated, [[7], [7]]) :: [(.direct, [[9]])] ∧
    rlePackets [[7], [7], [9]] = [(.repeated, [[7], [7]])] ++ (.direct, [[9]]) :: [] := by decide

/-- A `RLE_ENC.1 3` and the state it ends in. -/
def encoding : State := (machine [] [7, 7, 9]).issue 0x318
def encoded : State := (nextOf (exec (.rleEnc 1 3) encoding)).getD State.reset

theorem witness_EncodeDecodeRoundTrip :
    encoding.Fresh ∧ lbRead encoding.lb encoding.lat.base.toNat ((3 : BitVec 24).toNat * (1 : BitVec 3).toNat) = .ok [7, 7, 9] ∧
    exec (.rleEnc 1 3) encoding = .next encoded ∧ encoded.status = encoding.status.finished ∧
    encoded.out.sent = encoding.out.sent ++ [0x81, 7, 0x00, 9] ∧
    ((machine ([0x81, 7, 0x00, 9] ++ [5]) []).issue 0x317).Fresh ∧
    ((machine ([0x81, 7, 0x00, 9] ++ [5]) []).issue 0x317).lat.base.toNat + (3 : BitVec 24).toNat * (1 : BitVec 3).toNat ≤
      ((machine ([0x81, 7, 0x00, 9] ++ [5]) []).issue 0x317).cfg.lbSize :=
  ⟨State.fresh_issue _ _, rfl, rfl, by decide, by decide, State.fresh_issue _ _, by decide⟩

/-- A machine with `input` on IN, EOS not presented, and a sink that answers `a` bytes. -/
def silent (input line : List Byte) (a : Nat) : State :=
  { machine input line with inp := { bytes := input, eos := false }, out := { sent := [], cap := none, answers := some a } }

theorem witness_SilentPortMakesCommandWait :
    (((silent [1] [] 0).issue 1).Fresh ∧ (silent [1] [] 0).inp.eos = false ∧ (silent [1] [] 0).inp.bytes.length < 2) ∧
    ((Instr.rawRd 1 2).wf = true ∧ (silent [1] [] 0).inp.bytes.length < (2 : BitVec 24).toNat * (1 : BitVec 3).toNat) ∧
    ((Instr.rleDec 1 2).wf = true ∧ rleDecode 1 2 (silent [0x01, 5] [] 0).inp.bytes = .readFailure [5] 2) ∧
    ((silent [] [] 1).out.answers = some 1 ∧ (∀ c, (silent [] [] 1).out.cap = some c → 1 ≤ c) ∧ (Instr.le16Pack 0 5).wf = true) ∧
    ((Instr.rawWr 1 2).wf = true ∧ lbRead (silent [] [1, 2] 1).lb 0 2 = .ok [1, 2] ∧
      1 < (2 : BitVec 24).toNat * (1 : BitVec 3).toNat) ∧
    ((Instr.rleEnc 1 2).wf = true ∧ lbRead (silent [] [1, 2] 1).lb 0 2 = .ok ([[1], [2]] : List Pixel).flatten ∧
      1 < (rleEncode [[1], [2]]).length) ∧
    ({ atFirstHeader with inp := { bytes := [], eos := false } } : State).atHeader = true ∧
    0 < ({ atFirstHeader with inp := { bytes := [], eos := false } } : State).lat.pb.toNat ∧
    ({ atFirstHeader with inp := { bytes := [9], eos := false } } : State).inp.bytes.length <
      min ((127 : BitVec 7).toNat + 1) (atFirstHeader.lat.n.toNat - atFirstHeader.x) * atFirstHeader.lat.pb.toNat :=
  ⟨⟨State.fresh_issue _ _, by decide⟩, by decide, by decide, ⟨rfl, (fun _ h => nomatch h), by decide⟩,
    ⟨by decide, rfl, by decide⟩, ⟨by decide, rfl, by decide⟩, by decide⟩

/-- A LE16_UNPACK that lacks its second byte: nothing scheduled, a run scheduled, the progress scheduled. -/
theorem witness_CommandIsOneTransition :
    ((silent [1] [] 0).issue 1).status.busy = true ∧ decodeTableWord 32 ((silent [1] [] 0).issue 1).lat.word.toNat =
      some (.le16Unpack 0 0) ∧ ((silent [1] [] 0).issue 1).agenda = [] ∧
    (waitingOf (exec (.le16Unpack 0 0) ((silent [1] [] 0).issue 1))).isSome = true ∧
    (waitingOf (exec (.le16Unpack 0 0) ((silent [1, 2] [] 0).issue 1))).isNone = true ∧
    (nextOf (exec (.le16Unpack 0 0) ((silent [1, 2] [] 0).issue 1))).isSome = true := by decide

/-- A run whose host has read STATUS after its command, one whose host has not, and one that read an UNWRITTEN byte. -/
theorem witness_RunEndsWhenOutcomeIsRead :
    (({ State.reset with outcomeRead := true } : State).observe = .ended ({ State.reset with outcomeRead := true } : State).visible) ∧
    State.reset.observe = .running ∧
    faultOf (step ((machine [] [1, 2]).withFetchWord 32 0x00000335)) = some (.modelUnwrittenRead 2) ∧
    (nextOf (step (scheduled [.regRead 0x04 4]))).map (fun t => t.outcomeRead) = some true := by decide

/-- One waiting run of each of the three commands that read IN. -/
theorem witness_InputWaitResumesExactly :
    ((waitingOf (exec (.le16Unpack 0 0) ((silent [1] [] 0).issue 1))).map (fun t => t.status.busy) = some true) ∧
    ((waitingOf (exec (.rawRd 2 2) ((silent [1, 2, 3] [] 0).issue 0x223))).map (fun t => t.status.busy) = some true) ∧
    ((waitingOf (exec (.rleDec 2 2) ((silent [0x81, 2] [] 0).issue 0x227))).map (fun t => t.status.busy) = some true) := by decide

/-- One waiting run of each of the three commands that write OUT. -/
theorem witness_OutputWaitResumesExactly :
    ((silent [] [7, 7, 9] 1).issue 2).pend = [] ∧ ((silent [] [7, 7, 9] 1).issue 2).out.answers = some 1 ∧
    ((waitingOf (exec (.le16Pack 0 5) ((silent [] [7, 7, 9] 1).issue 2))).map (fun t => t.status.busy) = some true) ∧
    ((waitingOf (exec (.rawWr 1 3) ((silent [] [7, 7, 9] 1).issue 2))).map (fun t => t.status.busy) = some true) ∧
    ((waitingOf (exec (.rleEnc 1 3) ((silent [] [7, 7, 9] 1).issue 2))).map
      (fun t => (t.status.busy, t.pend, decide (0 < t.enc.n))) = some (true, [7], true)) := by decide

end Sys2Proof.Tests
end

section
/-! PROOFS. Scope (spec 00_scope): what every step keeps.

A predicate that each small update of a command keeps holds wherever running a command leads (`exec_keeps`), and so
wherever the latched command or one packet of it leads. What a host or environment event can do is said once per
event, guards included. O21 takes `t.cfg = s.cfg` for the predicate. -/

namespace Sys2Proof.Machine

/-! ## The rule for every instruction -/

/-- `P` survives every small update that a command's body, its end and its fault are made of. -/
structure KeptByCommands (P : State → Prop) : Prop where
  taking    : KeptByTaking P
  giving    : KeptByGiving P
  storing   : ∀ p w, KeptByStoring p w P
  decoder   : ∀ p, KeptByDecoder p P
  encoder   : KeptByEncoder P
  pixelSent : ∀ s, P s → P s.pixelSent
  result    : ∀ s r, P s → P { s with result := r }
  rewritten : ∀ s lb k, P s → P { s with lb := lb, pixcnt := k }
  spoilt    : ∀ s p w, P s → P (s.spoilLine p w)
  runClosed : ∀ s, P s → P { s with rep := 0, dir := 0 }
  finished  : ∀ s, P s → P s.finish
  faulted   : ∀ k s, P s → P (s.raiseFault k)

theorem storeResult_keeps {P : State → Prop} (hk : KeptByCommands P) (bs : List Byte) {s : State} (h : P s) :
    P (storeResult bs s) := by
  unfold storeResult
  split
  · exact hk.result s _ h
  · exact h

theorem memRead_all {P : State → Prop} {s : State} {a n : Nat} {f : List Byte → Flow} (hf : ∀ bs, (f bs).All P) :
    (s.memRead a n f).All P := by
  unfold State.memRead
  split
  · trivial
  · exact hf _

/-- A checked command keeps what its body, its end and its fault keep. -/
theorem checked_keeps {P : State → Prop} (hk : KeptByCommands P) {i : Instr} {s t : State} {body : State → Flow}
    (h : P s) (ht : reaches (checked i s body) t) (hb : (body s).All P) : P t := by
  obtain ⟨k, -, rfl⟩ | ⟨-, hr⟩ := checked_reaches ht
  · exact hk.faulted k s h
  · exact hb.settle hk.finished (fun _ => id) hk.faulted hr

/-- A packet whose run has been opened keeps what the decoder, the end of the line and a fault keep. -/
theorem runOpened_keeps {P : State → Prop} (hk : KeptByCommands P) {s t : State} (h : P s)
    (ht : reaches (runOpened s) t) : P t := by
  have hrun := emitRun_all (w := s.lat.n.toNat) hk.taking (hk.storing s.lat.pb.toNat _) (hk.decoder _) h
  refine (hrun.onRaise fun u hu => hk.spoilt u _ _ hu).settle (fun u hu => ?_) (fun _ => id) hk.faulted ht
  split
  · exact hu
  · exact hk.finished _ (hk.runClosed u hu)

theorem not_reaches_refused (r : Refusal) (t : State) : ¬ reaches (.refused r) t := by
  rintro (h | h) <;> cases h

/-- Wherever running an instruction leads, to its end, a fault or a wait, what the small updates keep still holds. -/
theorem exec_keeps {P : State → Prop} (hk : KeptByCommands P) (i : Instr) {s t : State} (h : P s)
    (ht : reaches (exec i s) t) : P t := by
  cases i with
  | le16Unpack pb n =>
    rw [exec, execLe16Unpack] at ht
    exact checked_keeps hk h ht (inRead_all hk.taking h fun _ bs hu _ _ _ _ => storeResult_keeps hk bs hu)
  | le16Pack pb n =>
    rw [exec, execLe16Pack] at ht
    exact checked_keeps hk h ht (outWrite_all hk.giving _ h)
  | rawRd pb n =>
    rw [exec, execRawRd] at ht
    have hloop := rawRdLoop_all hk.taking (hk.storing pb.toNat n.toNat) _ (Nat.le_refl _) h
    exact checked_keeps hk h ht (hloop.onRaise fun u hu => hk.spoilt u _ _ hu)
  | rawWr pb n =>
    rw [exec, execRawWr] at ht
    exact checked_keeps hk h ht (rawWrLoop_all hk.giving (fun u hu _ => hk.pixelSent u hu) _ (Nat.le_refl _) h)
  | swap pb n =>
    rw [exec, execSwap] at ht
    exact checked_keeps hk h ht (memRead_all fun _ => hk.rewritten s _ _ h)
  | expand pb n =>
    rw [exec, execExpand] at ht
    exact checked_keeps hk h ht (memRead_all fun _ => hk.rewritten s _ _ h)
  | rleDec pb n =>
    rw [exec, execRleDec] at ht
    have hloop := decodeLoop_all hk.taking (hk.storing pb.toNat n.toNat) (hk.decoder _) (n.toNat - s.x) h
    have hspoilt := hloop.onRaise fun u hu => hk.spoilt u pb.toNat n.toNat hu
    exact checked_keeps hk h ht (hspoilt.andThen fun u hu => hk.runClosed u hu)
  | rleEnc pb n =>
    rw [exec, execRleEnc] at ht
    exact checked_keeps hk h ht (encodeLoop_all hk.giving hk.encoder _ h)
  | pktRepeat c =>
    rw [exec, execPktRepeat] at ht
    split at ht
    · exact runOpened_keeps hk ((hk.decoder s.lat.pb.toNat).openRepeat s c h) ht
    · exact absurd ht (not_reaches_refused _ t)
  | pktDirect c =>
    rw [exec, execPktDirect] at ht
    split at ht
    · exact runOpened_keeps hk ((hk.decoder s.lat.pb.toNat).openDirect s c h) ht
    · exact absurd ht (not_reaches_refused _ t)

/-- The latched word either is an instruction, which runs, or raises the fault of a word that is none (R87). -/
theorem runLatched_keeps {P : State → Prop} (hk : KeptByCommands P) {s t : State} (h : P s)
    (ht : reaches (runLatched s) t) : P t := by
  unfold runLatched at ht
  split at ht
  · exact exec_keeps hk _ h ht
  · obtain hf | hf := ht <;> cases hf
    exact hk.faulted _ s h

/-- Taking a packet header is one byte taken from IN, so it keeps what those keep (R52, R152). -/
theorem tookHeader_keeps {P : State → Prop} (hk : KeptByTaking P) {s : State} {b : Byte} {rest : List Byte} (h : P s)
    (hb : s.inp.bytes = b :: rest) : P (s.tookHeader rest) :=
  hk s [b] rest s.part h hb

theorem runPacket_keeps {P : State → Prop} (hk : KeptByCommands P) {s t : State} (h : P s)
    (ht : reaches (runPacket s) t) : P t := by
  unfold runPacket at ht
  split at ht
  · split at ht
    · exact exec_keeps hk _ (tookHeader_keeps hk.taking h ‹_›) ht
    · exact runLatched_keeps hk h ht
  · exact runLatched_keeps hk h ht

/-! ## What a host or environment event can do -/

/-- A move guarded by a refusal has a next state only where its guard lets it through. -/
theorem eq_next_of_refusedIf {c : Prop} [Decidable c] {r : Refusal} {o : Host.Outcome State Fault Refusal} {t : State}
    (h : (if c then .refused r else o) = .next t) : ¬ c ∧ o = .next t := by
  by_cases hc : c
  · rw [if_pos hc] at h
    cases h
  · exact ⟨hc, by rwa [if_neg hc] at h⟩

/-- A move guarded by a fault has a next state only where its guard lets it through. -/
theorem eq_next_of_faultIf {c : Prop} [Decidable c] {r : Fault} {o : Host.Outcome State Fault Refusal} {t : State}
    (h : (if c then .fault r else o) = .next t) : ¬ c ∧ o = .next t := by
  by_cases hc : c
  · rw [if_pos hc] at h
    cases h
  · exact ⟨hc, by rwa [if_neg hc] at h⟩

/-- A REG read that has a next state is of a register, 32 bits wide (R51, R56); it returned a draw while BUSY = 1 (R248),
or the register's value (R21). -/
theorem hostRegRead_eq_next {offset width : Nat} {s t : State} (h : hostRegRead offset width s = .next t) :
    regAccessOk offset width = true ∧ offset < 0x40 ∧
      (((s.status.busy = true ∧ unspecifiedWhileBusy offset = true) ∧
        t = { s with reads := s.reads ++ [drawRegister s offset], draws := s.draws + 1 }) ∨
      (¬ (s.status.busy = true ∧ unspecifiedWhileBusy offset = true) ∧
        t = { s with
          reads := s.reads ++ [regValue s offset]
          outcomeRead := s.outcomeRead || s.seesOutcome offset })) := by
  unfold hostRegRead at h
  obtain ⟨hok, h⟩ := eq_next_of_refusedIf h
  obtain ⟨hspace, h⟩ := eq_next_of_faultIf h
  refine ⟨Decidable.not_not.mp hok, Nat.lt_of_not_le hspace, ?_⟩
  by_cases hbusy : s.status.busy = true ∧ unspecifiedWhileBusy offset = true
  · rw [if_pos hbusy] at h
    cases h
    exact .inl ⟨hbusy, rfl⟩
  · rw [if_neg hbusy] at h
    cases h
    exact .inr ⟨hbusy, rfl⟩

/-- A REG write that has a next state is of a register, 32 bits wide (R51, R56); it issued a command (R22), stored BASE
(R23), or was ignored (R56). -/
theorem hostRegWrite_eq_next {offset width : Nat} {v : Word} {s t : State}
    (h : hostRegWrite offset width v s = .next t) :
    regAccessOk offset width = true ∧ offset < 0x40 ∧
      ((offset = 0x00 ∧ s.status.busy = false ∧ t = s.issue v) ∨
      (offset = 0x08 ∧ s.status.busy = false ∧ t = { s with base := v }) ∨
      (offset ≠ 0x00 ∧ offset ≠ 0x08 ∧ t = s)) := by
  unfold hostRegWrite at h
  obtain ⟨hok, h⟩ := eq_next_of_refusedIf h
  obtain ⟨hspace, h⟩ := eq_next_of_faultIf h
  refine ⟨Decidable.not_not.mp hok, Nat.lt_of_not_le hspace, ?_⟩
  by_cases hcmd : offset = 0x00
  · rw [if_pos hcmd] at h
    obtain ⟨hbusy, h⟩ := eq_next_of_refusedIf h
    cases h
    exact .inl ⟨hcmd, Bool.eq_false_iff.mpr hbusy, rfl⟩
  · rw [if_neg hcmd] at h
    by_cases hbase : offset = 0x08
    · rw [if_pos hbase] at h
      obtain ⟨hbusy, h⟩ := eq_next_of_refusedIf h
      cases h
      exact .inr (.inl ⟨hbase, Bool.eq_false_iff.mpr hbusy, rfl⟩)
    · rw [if_neg hbase] at h
      cases h
      exact .inr (.inr ⟨hcmd, hbase, rfl⟩)

/-- An LB read that has a next state was of an idle TSCU and within LB; it returned the byte, or a draw (R50, R67). -/
theorem hostLbRead_eq_next {a : Nat} {s t : State} (h : hostLbRead a s = .next t) :
    s.status.busy = false ∧ a < s.cfg.lbSize ∧
      ((∃ b, lbGet s.lb a = some b ∧ t = { s with reads := s.reads ++ [b.setWidth 32] }) ∨
        (lbGet s.lb a = none ∧
          t = { s with reads := s.reads ++ [(Config.drawByte s.draws).setWidth 32], draws := s.draws + 1 })) := by
  unfold hostLbRead at h
  obtain ⟨hbusy, h⟩ := eq_next_of_refusedIf h
  obtain ⟨hspace, h⟩ := eq_next_of_faultIf h
  refine ⟨Bool.eq_false_iff.mpr hbusy, Nat.lt_of_not_le hspace, ?_⟩
  cases hb : lbGet s.lb a with
  | some b =>
    rw [hb] at h
    cases h
    exact .inl ⟨b, rfl, rfl⟩
  | none =>
    rw [hb] at h
    cases h
    exact .inr ⟨rfl, rfl⟩

/-- An LB write that has a next state was to an idle TSCU and within LB (R50, R246). -/
theorem hostLbWrite_eq_next {a : Nat} {b : Byte} {s t : State} (h : hostLbWrite a b s = .next t) :
    s.status.busy = false ∧ a < s.cfg.lbSize ∧ t = { s with lb := lbWrite s.lb a [b] } := by
  unfold hostLbWrite at h
  obtain ⟨hbusy, h⟩ := eq_next_of_refusedIf h
  obtain ⟨hspace, h⟩ := eq_next_of_faultIf h
  cases h
  exact ⟨Bool.eq_false_iff.mpr hbusy, Nat.lt_of_not_le hspace, rfl⟩

/-- Bytes arrive only before EOS (R52). -/
theorem inputArrives_eq_next {bs : List Byte} {s t : State} (h : inputArrives bs s = .next t) :
    s.inp.eos = false ∧ t = { s with inp := { s.inp with bytes := s.inp.bytes ++ bs } } := by
  unfold inputArrives at h
  obtain ⟨heos, h⟩ := eq_next_of_refusedIf h
  cases h
  exact ⟨Bool.eq_false_iff.mpr heos, rfl⟩

/-- The capacity of OUT is set only between commands (R53). -/
theorem outputCapacity_eq_next {cap : Option Nat} {s t : State} (h : outputCapacity cap s = .next t) :
    s.status.busy = false ∧ t = { s with out := { s.out with cap := cap } } := by
  unfold outputCapacity at h
  obtain ⟨hbusy, h⟩ := eq_next_of_refusedIf h
  cases h
  exact ⟨Bool.eq_false_iff.mpr hbusy, rfl⟩

/-! ## LB_SIZE -/

/-- No small update of a command touches the configuration. -/
theorem cfg_keptByCommands (c : Config) : KeptByCommands fun s => s.cfg = c where
  taking _ _ _ _ h _ := h
  giving _ _ _ _ _ h := h
  storing _ _ _ _ h _ _ := h
  decoder _ :=
    { openRepeat := fun _ _ h => h
      openDirect := fun _ _ h => h
      sample := fun _ _ h _ => h
      rep := fun _ h => h
      dir := fun _ h => h }
  encoder :=
    { chosen := fun _ _ _ h => h
      sent := fun _ h => h }
  pixelSent _ h := h
  result _ _ h := h
  rewritten _ _ _ h := h
  spoilt _ _ _ h := h
  runClosed _ h := h
  finished _ h := h
  faulted _ _ h := h

/-- What the TSCU does only while BUSY = 1 keeps the configuration, if its busy move does (R241). -/
theorem busyMove_cfg {move : State → Host.Outcome State Fault Refusal} {s t : State}
    (hm : move s = .next t → t.cfg = s.cfg) (h : (if s.status.busy then move s else .next s) = .next t) :
    t.cfg = s.cfg := by
  split at h
  · exact hm h
  · cases h
    rfl

theorem handleEvent_cfg {e : Event} {s t : State} (h : handleEvent e s = .next t) : t.cfg = s.cfg := by
  have hk := cfg_keptByCommands s.cfg
  cases e with
  | run => exact busyMove_cfg (fun hr => runLatched_keeps hk rfl (.inl hr)) h
  | transfer => exact busyMove_cfg (fun hr => runLatched_keeps hk rfl (transferLatched_eq_next.mp hr)) h
  | packet => exact busyMove_cfg (fun hr => runPacket_keeps hk rfl (.inl hr)) h
  | regWrite offset width v => obtain ⟨-, -, ⟨-, -, rfl⟩ | ⟨-, -, rfl⟩ | ⟨-, -, rfl⟩⟩ := hostRegWrite_eq_next h <;> rfl
  | regRead offset width => obtain ⟨-, -, ⟨-, rfl⟩ | ⟨-, rfl⟩⟩ := hostRegRead_eq_next h <;> rfl
  | lbWrite a b => obtain ⟨-, -, rfl⟩ := hostLbWrite_eq_next h; rfl
  | lbRead a => obtain ⟨-, -, ⟨b, -, rfl⟩ | ⟨-, rfl⟩⟩ := hostLbRead_eq_next h <;> rfl
  | inArrive bs => obtain ⟨-, rfl⟩ := inputArrives_eq_next h; rfl
  | outCapacity cap => obtain ⟨-, rfl⟩ := outputCapacity_eq_next h; rfl
  | reset => cases h; rfl
  | powerOn => cases h; rfl
  | inEos => cases h; rfl
  | inPlace bs eos => cases h; rfl
  | outAnswers k => cases h; rfl

/-- Settles O21: a step is one event on the state with that event taken off the agenda, and no event changes the
configuration. -/
theorem stepKeepsConfig : Obligations.StepKeepsConfig := by
  unfold Obligations.StepKeepsConfig
  intro s t h
  unfold step advance at h
  split at h
  case h_1 => exact handleEvent_cfg h
  case h_2 e rest _ => exact handleEvent_cfg (s := { s with agenda := rest }) h

end Sys2Proof.Machine
end

section
/-! PROOFS. State (spec 10_state): the invariant, STATUS, the frames of the instructions, the register file and reset.

What one event can do is said once (`EventEffect`), and what every step keeps, or does to STATUS, is read off it. Where a
command leads follows from the rules of Laws/Flows with the predicate chosen per instruction: the invariant with the LB
range its operand check let through (O20), its STATUS (O22), or the view of the state it has no use for (O23). O26 goes
through each command's body once more, with other values in REG.CMD and REG.BASE. -/

namespace Sys2Proof.Machine

/-! ## What one event can do -/

/-- All an event that has a next state can do to the state: run the command in flight, or be one move of the host or the
environment. What the small moves at the registers and the ports write is left open. -/
inductive EventEffect (e : Event) (s : State) : State → Prop where
  | ran (t : State) (busy : s.status.busy = true) (led : reaches (runLatched s) t ∨ reaches (runPacket s) t) :
      EventEffect e s t
  | issued (v : Word) (write : e = .regWrite 0x00 4 v) (idle : s.status.busy = false) : EventEffect e s (s.issue v)
  | stored (a : Nat) (b : Byte) (inside : a < s.cfg.lbSize) : EventEffect e s { s with lb := lbWrite s.lb a [b] }
  | reset (lb : Memory) (input : e = .reset ∧ lb = s.lbAfterReset ∨ e = .powerOn ∧ lb = []) :
      EventEffect e s (s.resetTo lb)
  | moved (base : Word) (inp : InPort) (out : OutPort) (reads : List Word) (draws : Nat) (seen : Bool) :
      EventEffect e s
        { s with base := base, inp := inp, out := out, reads := reads, draws := draws, outcomeRead := seen }

/-- A state is one that a move at the registers and the ports leaves, changing nothing. -/
theorem EventEffect.unchanged (e : Event) (s : State) : EventEffect e s s :=
  .moved s.base s.inp s.out s.reads s.draws s.outcomeRead

/-- What the TSCU does only while BUSY = 1 runs the command in flight or changes nothing (R241). -/
theorem busyMove_effect {e : Event} {move : State → Host.Outcome State Fault Refusal} {s t : State}
    (hm : move s = .next t → reaches (runLatched s) t ∨ reaches (runPacket s) t)
    (h : (if s.status.busy then move s else .next s) = .next t) : EventEffect e s t := by
  split at h
  · exact .ran t ‹_› (hm h)
  · cases h
    exact .unchanged e s

theorem handleEvent_effect {e : Event} {s t : State} (h : handleEvent e s = .next t) : EventEffect e s t := by
  cases e with
  | run => exact busyMove_effect (fun hr => .inl (.inl hr)) h
  | transfer => exact busyMove_effect (fun hr => .inl (transferLatched_eq_next.mp hr)) h
  | packet => exact busyMove_effect (fun hr => .inr (.inl hr)) h
  | regWrite offset width v =>
    obtain ⟨hok, -, ⟨rfl, hidle, rfl⟩ | ⟨-, -, rfl⟩ | ⟨-, -, rfl⟩⟩ := hostRegWrite_eq_next h
    · have hwidth : width = 4 := by simpa [regAccessOk] using hok
      exact .issued v (by rw [hwidth]) hidle
    · exact .moved v ..
    · exact .unchanged ..
  | regRead offset width => obtain ⟨-, -, ⟨-, rfl⟩ | ⟨-, rfl⟩⟩ := hostRegRead_eq_next h <;> exact .moved ..
  | lbWrite a b =>
    obtain ⟨-, hin, rfl⟩ := hostLbWrite_eq_next h
    exact .stored a b hin
  | lbRead a => obtain ⟨-, -, ⟨b, -, rfl⟩ | ⟨-, rfl⟩⟩ := hostLbRead_eq_next h <;> exact .moved ..
  | reset => cases h; exact .reset _ (.inl ⟨rfl, rfl⟩)
  | powerOn => cases h; exact .reset _ (.inr ⟨rfl, rfl⟩)
  | inArrive bs => obtain ⟨-, rfl⟩ := inputArrives_eq_next h; exact .moved ..
  | inEos => cases h; exact .moved ..
  | inPlace bs eos => cases h; exact .moved ..
  | outCapacity cap => obtain ⟨-, rfl⟩ := outputCapacity_eq_next h; exact .moved ..
  | outAnswers k => cases h; exact .moved ..

/-- A step is one event on the state with that event taken off the agenda; with none scheduled, the TSCU runs. -/
theorem step_effect {s t : State} (h : step s = .next t) :
    ∃ e rest, (e = .run ∨ s.agenda = e :: rest) ∧ EventEffect e { s with agenda := rest } t := by
  unfold step advance at h
  split at h
  case h_1 => exact ⟨.run, s.agenda, .inl rfl, handleEvent_effect h⟩
  case h_2 e rest hsome => exact ⟨e, rest, .inr hsome, handleEvent_effect h⟩

/-- A predicate that the end of a command, a fault, and the body of one whose operands pass keep holds wherever the command
leads. -/
theorem checked_leads {P : State → Prop} (hfin : ∀ u, P u → P u.finish) (hflt : ∀ k u, P u → P (u.raiseFault k))
    {i : Instr} {s t : State} {body : State → Flow} (h : P s) (ht : reaches (checked i s body) t)
    (hbody : i.wf = true → (∀ len, lbLength i = some len → s.lineBase + len ≤ s.cfg.lbSize) → (body s).All P) : P t := by
  obtain ⟨k, -, rfl⟩ | ⟨⟨hwf, hrange⟩, hr⟩ := checked_reaches ht
  · exact hflt k s h
  · exact (hbody hwf hrange).settle hfin (fun _ => id) hflt hr

/-- PKT_REPEAT leads anywhere only where the decoder is at a header, and then it runs its opened run (R81, R152). -/
theorem pktRepeat_reaches {c : BitVec 7} {s t : State} (ht : reaches (exec (.pktRepeat c) s) t) :
    s.atHeader = true ∧ reaches (runOpened (s.openRepeat c)) t := by
  rw [exec, execPktRepeat] at ht
  split at ht
  · exact ⟨‹_›, ht⟩
  · exact absurd ht (not_reaches_refused _ t)

/-- PKT_DIRECT leads anywhere only where the decoder is at a header, and then it runs its opened run (R82, R152). -/
theorem pktDirect_reaches {c : BitVec 7} {s t : State} (ht : reaches (exec (.pktDirect c) s) t) :
    s.atHeader = true ∧ reaches (runOpened (s.openDirect c)) t := by
  rw [exec, execPktDirect] at ht
  split at ht
  · exact ⟨‹_›, ht⟩
  · exact absurd ht (not_reaches_refused _ t)

/-! ## The invariant under the small updates -/

/-- Normal completion sets DONE with BUSY cleared, and leaves ERR and ECODE to each other (R214). -/
theorem Status.consistent_finished {f : Status} (h : f.consistent = true) : f.finished.consistent = true := by
  simp only [Status.consistent, Status.finished, Bool.and_eq_true] at h ⊢
  exact ⟨⟨by simp, by simp⟩, h.2⟩

/-- No error kind has the code 0 (R211). -/
theorem ErrorKind.code_ne_zero (k : ErrorKind) : k.code ≠ 0 := by cases k <;> decide

theorem Status.consistent_failed (k : ErrorKind) (f : Status) : (f.failed k).consistent = true := by
  simpa [Status.consistent, Status.failed] using k.code_ne_zero

theorem State.Inv.finish {s : State} (h : s.Inv) : s.finish.Inv :=
  ⟨h.canonical, h.bounded, Status.consistent_finished h.consistent, h.ranges, h.encoder⟩

theorem State.Inv.raiseFault {s : State} (h : s.Inv) (k : ErrorKind) : (s.raiseFault k).Inv :=
  ⟨h.canonical, h.bounded, Status.consistent_failed k s.status, h.ranges, h.encoder⟩

/-- A CMD write clears the run counters, the position, the encoder's state and what was pending (R22, R34). -/
theorem State.Inv.issue {s : State} (h : s.Inv) (v : Word) : (s.issue v).Inv := by
  obtain ⟨-, -, -, -, hsample⟩ := h.ranges
  exact ⟨h.canonical, h.bounded, rfl, ⟨Nat.zero_le _, Nat.zero_le _, .inl rfl, Nat.zero_le _, hsample⟩,
    ⟨Nat.zero_le _, Nat.zero_le _, fun _ hp => absurd rfl hp⟩⟩

/-- The TSCU's own state at reset is in range, over any LB that is (R40). -/
theorem State.inv_resetTo {s : State} {lb : Memory} (hwf : lb.wf) (hin : lb.within s.cfg.lbSize) :
    (s.resetTo lb).Inv where
  canonical := hwf
  bounded := hin
  consistent := rfl
  ranges := ⟨Nat.zero_le _, Nat.zero_le _, .inl rfl, Nat.zero_le _, Nat.le_refl 4⟩
  encoder := ⟨Nat.zero_le _, Nat.zero_le _, fun _ hp => absurd rfl hp⟩

theorem State.Inv.lbAfterReset {s : State} (h : s.Inv) :
    s.lbAfterReset.wf ∧ s.lbAfterReset.within s.cfg.lbSize := by
  unfold State.lbAfterReset
  split
  · exact ⟨wf_lbErase h.canonical _ _, within_lbErase h.bounded _ _⟩
  · exact ⟨h.canonical, h.bounded⟩

/-- A write of bytes that lie below LB_SIZE keeps the invariant (R50). -/
theorem State.Inv.after_lbWrite {s : State} (h : s.Inv) {a : Nat} {bs : List Byte}
    (hin : ∀ j, j < bs.length → a + j < s.cfg.lbSize) : ({ s with lb := lbWrite s.lb a bs } : State).Inv :=
  ⟨wf_lbWrite h.canonical a bs, within_lbWrite h.bounded hin, h.consistent, h.ranges, h.encoder⟩

/-- The bytes taken from IN are not part of what the invariant speaks of. -/
theorem inv_keptByTaking : KeptByTaking State.Inv :=
  fun _ _ _ _ h _ => ⟨h.canonical, h.bounded, h.consistent, h.ranges, h.encoder⟩

theorem storeResult_inv (bs : List Byte) {s : State} (h : s.Inv) : (storeResult bs s).Inv := by
  unfold storeResult
  split
  · exact ⟨h.canonical, h.bounded, h.consistent, h.ranges, h.encoder⟩
  · exact h

/-! ## The invariant along a line of pixels -/

/-- The invariant, and a line of `w` pixels of `p` bytes from the latched base fits in LB (R58). -/
def State.LineInv (p w : Nat) (s : State) : Prop := s.Inv ∧ s.lineBase + w * p ≤ s.cfg.lbSize

theorem lineInv_keptByTaking (p w : Nat) : KeptByTaking (State.LineInv p w) :=
  fun s taken rest q ⟨h, hfit⟩ hb => ⟨inv_keptByTaking s taken rest q h hb, hfit⟩

/-- Pixels `x` up to `w` of a line that fits end below LB_SIZE. -/
theorem line_offset_lt {base x w p len size j : Nat} (hfit : base + w * p ≤ size) (hlen : len ≤ (w - x) * p)
    (hj : j < len) : base + x * p + j < size := by
  have hx : x ≤ w := by
    refine Nat.le_of_not_lt fun hwx => ?_
    rw [Nat.sub_eq_zero_of_le (Nat.le_of_lt hwx), Nat.zero_mul] at hlen
    omega
  have hsplit : x * p + (w - x) * p = w * p := by rw [← Nat.add_mul, Nat.add_sub_cancel' hx]
  omega

theorem lineInv_keptByStoring {p w : Nat} (hw : w ≤ maxWidth) : KeptByStoring p w (State.LineInv p w) := by
  rintro s px ⟨h, hfit⟩ hpx hx
  obtain ⟨hrep, hdir, hone, -, hsample⟩ := h.ranges
  have hlen : px.length ≤ (w - s.x) * p := Nat.le_trans hpx (Nat.le_mul_of_pos_left p (by omega))
  have hlb := h.after_lbWrite fun j hj => line_offset_lt hfit hlen hj
  exact ⟨⟨hlb.canonical, hlb.bounded, h.consistent, ⟨hrep, hdir, hone, by simp; omega, hsample⟩, h.encoder⟩, hfit⟩

/-- After a ReadFailure the free bytes go to the rest of the line only (R157). -/
theorem State.LineInv.spoilLine {p w : Nat} {s : State} (h : s.LineInv p w) : (s.spoilLine p w).LineInv p w := by
  obtain ⟨h, hfit⟩ := h
  have hlb := h.after_lbWrite (bs := drawBytes s.draws ((w - s.x) * p)) fun j hj =>
    line_offset_lt (x := s.x) hfit (by simp [drawBytes]) hj
  exact ⟨⟨hlb.canonical, hlb.bounded, h.consistent, h.ranges, h.encoder⟩, hfit⟩

/-- A pixel in the sample register has at most 4 bytes, and a run counter is at most 128 (R30, R31). -/
theorem lineInv_keptByDecoder {p : Nat} (w : Nat) (hp : p ≤ 4) : KeptByDecoder p (State.LineInv p w) where
  openRepeat := fun s c ⟨h, hfit⟩ => by
    obtain ⟨-, -, -, hrest⟩ := h.ranges
    have hc : c.toNat + 1 ≤ maxRun := c.isLt
    exact ⟨⟨h.canonical, h.bounded, h.consistent, ⟨hc, Nat.zero_le _, .inr rfl, hrest⟩, h.encoder⟩, hfit⟩
  openDirect := fun s c ⟨h, hfit⟩ => by
    obtain ⟨-, -, -, hrest⟩ := h.ranges
    have hc : c.toNat + 1 ≤ maxRun := c.isLt
    exact ⟨⟨h.canonical, h.bounded, h.consistent, ⟨Nat.zero_le _, hc, .inl rfl, hrest⟩, h.encoder⟩, hfit⟩
  sample := fun s px ⟨h, hfit⟩ hpx => by
    obtain ⟨hrep, hdir, hone, hx, -⟩ := h.ranges
    exact ⟨⟨h.canonical, h.bounded, h.consistent, ⟨hrep, hdir, hone, hx, Nat.le_trans hpx hp⟩, h.encoder⟩, hfit⟩
  rep := fun s ⟨h, hfit⟩ => by
    obtain ⟨hrep, hdir, hone, hrest⟩ := h.ranges
    exact ⟨⟨h.canonical, h.bounded, h.consistent, ⟨by simp; omega, hdir, by simp; omega, hrest⟩, h.encoder⟩, hfit⟩
  dir := fun s ⟨h, hfit⟩ => by
    obtain ⟨hrep, hdir, hone, hrest⟩ := h.ranges
    exact ⟨⟨h.canonical, h.bounded, h.consistent, ⟨hrep, by simp; omega, by simp; omega, hrest⟩, h.encoder⟩, hfit⟩

/-- The runs are closed at the end of a line (R153). -/
theorem State.Inv.runClosed {s : State} (h : s.Inv) : ({ s with rep := 0, dir := 0 } : State).Inv := by
  obtain ⟨-, -, -, hrest⟩ := h.ranges
  exact ⟨h.canonical, h.bounded, h.consistent, ⟨Nat.zero_le _, Nat.zero_le _, .inl rfl, hrest⟩, h.encoder⟩

/-! ## The invariant along the bytes of a command that writes OUT -/

/-- The invariant for a command other than RLE_ENC: what is pending on OUT is then no packet (R33). -/
def State.PlainInv (s : State) : Prop := s.Inv ∧ s.lat.op ≠ 8

theorem plainInv_keptByGiving : KeptByGiving State.PlainInv := by
  rintro s given cap answers q ⟨h, hop⟩
  obtain ⟨hi, hrun, -⟩ := h.encoder
  exact ⟨⟨h.canonical, h.bounded, h.consistent, h.ranges, hi, hrun, fun h8 => absurd h8 hop⟩, hop⟩

theorem State.PlainInv.pixelSent {s : State} {w : Nat} (h : s.PlainInv) (hx : s.x < w) (hw : w ≤ maxWidth) :
    s.pixelSent.PlainInv := by
  obtain ⟨h, hop⟩ := h
  obtain ⟨hrep, hdir, hone, -, hsample⟩ := h.ranges
  exact ⟨⟨h.canonical, h.bounded, h.consistent, ⟨hrep, hdir, hone, by simp; omega, hsample⟩, h.encoder⟩, hop⟩

/-- The invariant between two packets of an RLE_ENC of `w` pixels. -/
def State.EncInv (w : Nat) (s : State) : Prop := s.Inv ∧ s.lat.op = 8 ∧ s.lat.n.toNat = w

/-- The invariant while a packet is sent: it has a pixel and ends within the line (R33). -/
def State.SendInv (w : Nat) (s : State) : Prop := s.EncInv w ∧ 1 ≤ s.enc.n ∧ s.enc.i + s.enc.n ≤ w

theorem sendInv_keptByGiving (w : Nat) : KeptByGiving (State.SendInv w) := by
  rintro s given cap answers q ⟨⟨h, hop, rfl⟩, hpacket⟩
  obtain ⟨hi, hrun, -⟩ := h.encoder
  exact ⟨⟨⟨h.canonical, h.bounded, h.consistent, h.ranges, hi, hrun, fun _ _ => hpacket⟩, hop, rfl⟩, hpacket⟩

/-- Every state the encode loop leads to meets the invariant (R33, R182). -/
theorem encodeLoop_inv {p w : Nat} (hw : w ≤ maxWidth) (fuel : Nat) {s : State} (h : s.EncInv w) :
    (encodeLoop p w fuel s).All State.Inv := by
  refine (encodeLoop_both (P := State.EncInv w) (sendInv_keptByGiving w) ?chosen ?resumed ?sent fuel h).mono ?inv
  case chosen =>
    rintro s n kind ⟨h, hop, hn⟩ hpend h1 h128 hend
    obtain ⟨hi, -, -⟩ := h.encoder
    exact ⟨⟨⟨h.canonical, h.bounded, h.consistent, h.ranges, hi, h128, fun _ hp => absurd hpend hp⟩, hop, hn⟩, h1, hend⟩
  case resumed =>
    rintro s ⟨h, hop, hn⟩ hpend
    obtain ⟨-, -, hpacket⟩ := h.encoder
    exact ⟨⟨h, hop, hn⟩, hn ▸ hpacket hop hpend⟩
  case sent =>
    rintro s ⟨⟨h, hop, hn⟩, -, hend⟩ hpend
    obtain ⟨-, hrun, -⟩ := h.encoder
    exact ⟨⟨h.canonical, h.bounded, h.consistent, h.ranges, Nat.le_trans hend hw, hrun, fun _ hp => absurd hpend hp⟩, hop, hn⟩
  case inv =>
    rintro s (h | h)
    · exact h.1
    · exact h.1.1

/-! ## The invariant along each command -/

/-- SWAP and EXPAND write over a region that fits in LB (R124, R127). -/
theorem State.Inv.memRewrite {s : State} (h : s.Inv) {n : Nat} {new : List Byte → List Byte} {k : Word}
    (hfit : ∀ old : List Byte, old.length = n → s.lineBase + (new old).length ≤ s.cfg.lbSize) :
    (s.memRead s.lineBase n fun old => .go { s with lb := lbWrite s.lb s.lineBase (new old), pixcnt := k }).All State.Inv := by
  unfold State.memRead
  split
  · trivial
  · rename_i old hread
    have hlen := hfit old ((lbRead_eq_ok_iff _ _ _ _).mp hread).1
    have hlb := h.after_lbWrite (bs := new old) fun j hj => show s.lineBase + j < s.cfg.lbSize by omega
    exact ⟨hlb.canonical, hlb.bounded, h.consistent, h.ranges, h.encoder⟩

/-- A command whose operands pass and whose body keeps the invariant keeps it. -/
theorem checked_inv {i : Instr} {s t : State} {body : State → Flow} (h : s.Inv) (ht : reaches (checked i s body) t)
    (hbody : i.wf = true → (∀ len, lbLength i = some len → s.lineBase + len ≤ s.cfg.lbSize) → (body s).All State.Inv) :
    t.Inv :=
  checked_leads (fun _ hu => hu.finish) (fun k _ hu => hu.raiseFault k) h ht hbody

/-- The operands of a scanline command that passes (R77). -/
theorem lineOperands_of_wf {i : Instr} {pb : BitVec 3} {n : BitVec 24}
    (hi : i ∈ [Instr.rawRd pb n, .rawWr pb n, .rleDec pb n, .rleEnc pb n]) (h : i.wf = true) :
    pb.toNat ≤ 4 ∧ n.toNat ≤ maxWidth := by
  simp only [List.mem_cons, List.not_mem_nil, or_false] at hi
  obtain rfl | rfl | rfl | rfl := hi <;> simp [Instr.wf, Instr.pbLegal, Instr.nLegal] at h <;> omega

/-- An opened run is emitted within its line (R152, R153). -/
theorem runOpened_inv {s t : State} (h : s.LineInv s.lat.pb.toNat s.lat.n.toNat) (hp : s.lat.pb.toNat ≤ 4)
    (hw : s.lat.n.toNat ≤ maxWidth) (ht : reaches (runOpened s) t) : t.Inv := by
  have hrun := emitRun_all (lineInv_keptByTaking _ _) (lineInv_keptByStoring hw) (lineInv_keptByDecoder _ hp) h
  refine (hrun.onRaise fun _ hu => hu.spoilLine).settle (fun u hu => ?_) (fun _ hu => hu.1)
    (fun k _ hu => hu.1.raiseFault k) ht
  split
  · exact hu.1
  · exact hu.1.runClosed.finish

/-- Where an RLE_DEC is at a packet header, its line fits and its operands are legal (R152). -/
theorem State.Inv.lineInv_of_atHeader {s : State} (h : s.Inv) (hat : s.atHeader = true) :
    s.LineInv s.lat.pb.toNat s.lat.n.toNat ∧ s.lat.pb.toNat ≤ 4 ∧ s.lat.n.toNat ≤ maxWidth := by
  have hpass : operandFault (.rleDec s.lat.pb s.lat.n) s = none := by
    simp only [State.atHeader, Bool.and_eq_true, beq_iff_eq] at hat
    simp only [hat]
  obtain ⟨hwf, hrange⟩ := (operandFault_none _ s).mp hpass
  exact ⟨⟨h, hrange _ rfl⟩, lineOperands_of_wf (by simp) hwf⟩

theorem pktRepeat_inv {s t : State} {c : BitVec 7} (h : s.Inv) (ht : reaches (exec (.pktRepeat c) s) t) : t.Inv := by
  obtain ⟨hat, hrun⟩ := pktRepeat_reaches ht
  obtain ⟨hline, hp, hw⟩ := h.lineInv_of_atHeader hat
  exact runOpened_inv ((lineInv_keptByDecoder _ hp).openRepeat s c hline) hp hw hrun

theorem pktDirect_inv {s t : State} {c : BitVec 7} (h : s.Inv) (ht : reaches (exec (.pktDirect c) s) t) : t.Inv := by
  obtain ⟨hat, hrun⟩ := pktDirect_reaches ht
  obtain ⟨hline, hp, hw⟩ := h.lineInv_of_atHeader hat
  exact runOpened_inv ((lineInv_keptByDecoder _ hp).openDirect s c hline) hp hw hrun

/-- RLE_ENC is what OP 8 selects, with the N of the word (R76). -/
theorem opTable_eq_rleEnc {op : BitVec 4} {pb pb' : BitVec 3} {n n' : BitVec 24}
    (h : opTable op pb n = some (.rleEnc pb' n')) : op = 8 ∧ n = n' := by
  unfold opTable at h
  split at h <;> simp at h
  exact ⟨BitVec.eq_of_toNat_eq ‹_›, h.2⟩

/-- Running the instruction the latched word stands for keeps the invariant. -/
theorem exec_inv {i : Instr} {s t : State} (h : s.Inv) (hi : opTable s.lat.op s.lat.pb s.lat.n = some i)
    (ht : reaches (exec i s) t) : t.Inv := by
  have hplain (hne : opTable 8 s.lat.pb s.lat.n ≠ some i) : s.PlainInv := ⟨h, fun hop => hne (hop ▸ hi)⟩
  cases i with
  | le16Unpack pb n =>
    rw [exec, execLe16Unpack] at ht
    exact checked_inv h ht fun _ _ => inRead_all inv_keptByTaking h fun u bs hu _ _ _ _ => storeResult_inv bs hu
  | le16Pack pb n =>
    rw [exec, execLe16Pack] at ht
    refine checked_inv h ht fun _ _ => ?_
    exact (outWrite_all plainInv_keptByGiving _ (hplain (by simp [opTable]))).mono fun _ hu => hu.1
  | rawRd pb n =>
    rw [exec, execRawRd] at ht
    refine checked_inv h ht fun hwf hrange => ?_
    obtain ⟨-, hw⟩ := lineOperands_of_wf (pb := pb) (n := n) (by simp) hwf
    have hloop := rawRdLoop_all (lineInv_keptByTaking _ _) (lineInv_keptByStoring hw) _ (Nat.le_refl _) ⟨h, hrange _ rfl⟩
    exact (hloop.onRaise fun _ hu => hu.spoilLine).mono fun _ hu => hu.1
  | rawWr pb n =>
    rw [exec, execRawWr] at ht
    refine checked_inv h ht fun hwf _ => ?_
    obtain ⟨-, hw⟩ := lineOperands_of_wf (pb := pb) (n := n) (by simp) hwf
    have hloop := rawWrLoop_all (p := pb.toNat) plainInv_keptByGiving (fun _ hu hx => hu.pixelSent hx hw) _ (Nat.le_refl _)
      (hplain (by simp [opTable]))
    exact hloop.mono fun _ hu => hu.1
  | swap pb n =>
    rw [exec, execSwap] at ht
    refine checked_inv h ht fun _ hrange => h.memRewrite fun old hlen => ?_
    rw [swapBytes_length, hlen]
    exact hrange _ rfl
  | expand pb n =>
    rw [exec, execExpand] at ht
    refine checked_inv h ht fun _ hrange => h.memRewrite fun old hlen => ?_
    have hfit : s.lineBase + 3 * n.toNat / 2 ≤ s.cfg.lbSize := hrange _ rfl
    rw [expandBytes_length, hlen]
    omega
  | rleDec pb n =>
    rw [exec, execRleDec] at ht
    refine checked_inv h ht fun hwf hrange => ?_
    obtain ⟨hp, hw⟩ := lineOperands_of_wf (pb := pb) (n := n) (by simp) hwf
    have hloop := decodeLoop_all (lineInv_keptByTaking _ _) (lineInv_keptByStoring hw) (lineInv_keptByDecoder _ hp)
      (n.toNat - s.x) ⟨h, hrange _ rfl⟩
    have hspoilt := (hloop.onRaise fun _ hu => hu.spoilLine).mono fun _ hu => hu.1
    exact hspoilt.andThen fun _ hu => hu.runClosed
  | rleEnc pb n =>
    rw [exec, execRleEnc] at ht
    refine checked_inv h ht fun hwf _ => ?_
    obtain ⟨-, hw⟩ := lineOperands_of_wf (pb := pb) (n := n) (by simp) hwf
    obtain ⟨hop, hn⟩ := opTable_eq_rleEnc hi
    exact encodeLoop_inv hw _ ⟨h, hop, by rw [hn]⟩
  | pktRepeat c => exact pktRepeat_inv h ht
  | pktDirect c => exact pktDirect_inv h ht

/-- The latched fields select the instruction their word decodes to (R38, R76). -/
theorem Latch.opTable_of_decode {l : Latch} {i : Instr} (h : decodeCommand l.word = .ok i) :
    opTable l.op l.pb l.n = some i := by
  have := (decodeCommand_eq_ok h).1
  rwa [l.fieldOp_word, l.fieldPb_word, l.fieldN_word] at this

theorem runLatched_inv {s t : State} (h : s.Inv) (ht : reaches (runLatched s) t) : t.Inv := by
  unfold runLatched at ht
  split at ht
  · exact exec_inv h (Latch.opTable_of_decode ‹_›) ht
  · obtain hf | hf := ht <;> cases hf
    exact h.raiseFault _

theorem runPacket_inv {s t : State} (h : s.Inv) (ht : reaches (runPacket s) t) : t.Inv := by
  unfold runPacket at ht
  split at ht
  · split at ht
    · have htook := tookHeader_keeps inv_keptByTaking h ‹_›
      unfold decodeHeader at ht
      split at ht
      · exact pktRepeat_inv htook ht
      · exact pktDirect_inv htook ht
    · exact runLatched_inv h ht
  · exact runLatched_inv h ht

theorem EventEffect.inv {e : Event} {s t : State} (h : s.Inv) (he : EventEffect e s t) : t.Inv := by
  cases he with
  | ran _ _ led =>
    obtain hr | hr := led
    · exact runLatched_inv h hr
    · exact runPacket_inv h hr
  | issued v _ _ => exact h.issue v
  | stored a b inside => exact h.after_lbWrite fun j hj => by simp at hj; omega
  | reset lb input =>
    obtain ⟨-, rfl⟩ | ⟨-, rfl⟩ := input
    · exact State.inv_resetTo h.lbAfterReset.1 h.lbAfterReset.2
    · exact State.inv_resetTo List.Pairwise.nil fun _ hc => nomatch hc
  | moved => exact ⟨h.canonical, h.bounded, h.consistent, h.ranges, h.encoder⟩

/-- Settles O20: every effect an event can have keeps the invariant, which says nothing of the agenda. For the commands, the
line of pixels stays within the range the operand checks let through, and a packet within its line. -/
theorem stepKeepsInv : Obligations.StepKeepsInv := by
  unfold Obligations.StepKeepsInv
  intro s t h hstep
  obtain ⟨e, rest, -, he⟩ := step_effect hstep
  exact he.inv (s := { s with agenda := rest }) ⟨h.canonical, h.bounded, h.consistent, h.ranges, h.encoder⟩

/-! ## STATUS while a command runs, and when it ends -/

/-- The kinds the TSCU raises: never OpenFailure or SeekFailure (R211). -/
def ErrorKind.Raised (k : ErrorKind) : Prop := k ≠ .openFailure ∧ k ≠ .seekFailure

/-- Every state a flow leads to has the STATUS `σ`, and a fault it raises is of a kind the TSCU raises (R24, R211). -/
def Flow.Running (σ : Status) : Flow → Prop
  | .go s => s.status = σ
  | .wait s => s.status = σ
  | .raise k s => k.Raised ∧ s.status = σ
  | .unwritten _ => True

theorem Flow.Running.andThen {σ : Status} {r : Flow} {f : State → Flow} (h : r.Running σ)
    (hf : ∀ s, s.status = σ → (f s).Running σ) : (r.andThen f).Running σ := by
  cases r with
  | go s => exact hf s h
  | wait s => exact h
  | raise k s => exact h
  | unwritten a => trivial

theorem Flow.Running.spoilLine {σ : Status} {r : Flow} (h : r.Running σ) (p w : Nat) :
    (r.onRaise (State.spoilLine p w)).Running σ := by
  cases r with
  | go s => exact h
  | wait s => exact h
  | raise k s => exact h
  | unwritten a => trivial

theorem inRead_running {σ : Status} {s : State} (h : s.status = σ) (n : Nat) {f : List Byte → State → Flow}
    (hf : ∀ bs t, t.status = σ → (f bs t).Running σ) : (inRead n s f).Running σ := by
  obtain ⟨taken, rest, -, ⟨-, -, e⟩ | ⟨-, -, e⟩⟩ := inRead_cases n s f <;> rw [e]
  · exact hf _ _ h
  · split
    · exact ⟨⟨nofun, nofun⟩, h⟩
    · exact h

theorem outWrite_running {σ : Status} {s : State} (h : s.status = σ) (bs : List Byte) : (outWrite bs s).Running σ := by
  obtain ⟨given, rest, cap, answers, -, ⟨-, e⟩ | ⟨-, e⟩ | ⟨-, e⟩⟩ := outWrite_cases bs s <;> rw [e]
  · exact h
  · exact ⟨⟨nofun, nofun⟩, h⟩
  · exact h

theorem memRead_running {σ : Status} {s : State} {a n : Nat} {f : List Byte → Flow} (hf : ∀ bs, (f bs).Running σ) :
    (s.memRead a n f).Running σ := by
  unfold State.memRead
  split
  · trivial
  · exact hf _

theorem storeResult_status (bs : List Byte) (s : State) : (storeResult bs s).status = s.status := by
  unfold storeResult
  split <;> rfl

theorem rawRdLoop_running {σ : Status} (p k : Nat) {s : State} (h : s.status = σ) : (rawRdLoop p k s).Running σ := by
  induction k generalizing s with
  | zero => exact h
  | succ k ih => exact inRead_running h p fun px t ht => ih ht

theorem rawWrLoop_running {σ : Status} (p k : Nat) {s : State} (h : s.status = σ) : (rawWrLoop p k s).Running σ := by
  induction k generalizing s with
  | zero => exact h
  | succ k ih =>
    refine Flow.Running.andThen ?_ fun t ht => ih ht
    unfold sendPixel
    split
    · split
      · trivial
      · exact outWrite_running h _
    · exact outWrite_running h _

theorem emitSample_status (p k : Nat) (s : State) : (emitSample p k s).status = s.status := by
  induction k generalizing s with
  | zero => rfl
  | succ k ih => exact ih _

theorem emitDirect_running {σ : Status} (p k : Nat) {s : State} (h : s.status = σ) : (emitDirect p k s).Running σ := by
  induction k generalizing s with
  | zero => exact h
  | succ k ih => exact inRead_running h p fun px t ht => ih ht

theorem emitRun_running {σ : Status} (p w : Nat) {s : State} (h : s.status = σ) : (emitRun p w s).Running σ := by
  unfold emitRun
  split
  · exact inRead_running h p fun px t ht => (emitSample_status p _ _).trans ht
  · exact emitDirect_running p _ h

theorem openRun_status (b : Byte) (s : State) : (s.openRun b).status = s.status := by
  unfold State.openRun
  split <;> rfl

theorem decodeLoop_running {σ : Status} (p w fuel : Nat) {s : State} (h : s.status = σ) :
    (decodeLoop p w fuel s).Running σ := by
  induction fuel generalizing s with
  | zero => exact h
  | succ fuel ih =>
    unfold decodeLoop
    split
    · refine Flow.Running.andThen (Flow.Running.andThen ?_ fun t ht => emitRun_running p w ht) fun t ht => ih ht
      split
      · exact inRead_running h 1 fun bs t ht => (openRun_status _ t).trans ht
      · exact h
    · exact h

theorem encodeLoop_running {σ : Status} (p w fuel : Nat) {s : State} (h : s.status = σ) :
    (encodeLoop p w fuel s).Running σ := by
  induction fuel generalizing s with
  | zero => exact h
  | succ fuel ih =>
    unfold encodeLoop
    split
    · refine Flow.Running.andThen ?_ fun t ht => ih ht
      unfold sendPacket
      split
      · split
        · trivial
        · exact outWrite_running (by exact h) _
      · exact outWrite_running h _
    · exact h

theorem operandFault_raised {i : Instr} {s : State} {k : ErrorKind} (h : operandFault i s = some k) : k.Raised := by
  simp only [operandFault, Option.or_eq_some_iff] at h
  obtain hpb | ⟨-, hn | ⟨-, hrange⟩⟩ := h
  · cases i <;> simp [pbFault, lineWidthFault] at hpb <;> exact hpb.2 ▸ ⟨nofun, nofun⟩
  · cases i <;> simp [nFault, lineCountFault] at hn <;> exact hn.2 ▸ ⟨nofun, nofun⟩
  · unfold rangeFault at hrange
    split at hrange <;> simp at hrange
    exact hrange.2 ▸ ⟨nofun, nofun⟩

/-- What the STATUS `f` of a command in flight can become: itself while the command waits, or that of a normal or a faulted
end (R213, R214). -/
def Status.LeadsTo (f g : Status) : Prop :=
  g = f ∨ g = f.finished ∨ ∃ k : ErrorKind, k.Raised ∧ g = f.failed k

theorem Flow.Running.settle {σ : Status} {r : Flow} {last : State → State} {t : State} (h : r.Running σ)
    (hl : ∀ u, (last u).status = u.status ∨ (last u).status = u.status.finished) (ht : reaches (r.settle last) t) :
    σ.LeadsTo t.status := by
  obtain ⟨u, rfl, rfl⟩ | rfl | ⟨k, u, rfl, rfl⟩ := Flow.settle_reaches ht
  · obtain e | e := hl u
    · exact .inl (e.trans h)
    · exact .inr (.inl (e.trans (congrArg Status.finished h)))
  · exact .inl h
  · exact .inr (.inr ⟨k, h.1, congrArg (Status.failed k) h.2⟩)

theorem checked_status {i : Instr} {s t : State} {body : State → Flow} (ht : reaches (checked i s body) t)
    (hbody : (body s).Running s.status) : s.status.LeadsTo t.status := by
  obtain ⟨k, hk, rfl⟩ | ⟨-, hr⟩ := checked_reaches ht
  · exact .inr (.inr ⟨k, operandFault_raised hk, rfl⟩)
  · exact hbody.settle (fun _ => .inr rfl) hr

theorem runOpened_status {s t : State} (ht : reaches (runOpened s) t) : s.status.LeadsTo t.status := by
  refine ((emitRun_running _ _ rfl).spoilLine _ _).settle (fun u => ?_) ht
  split
  · exact .inl rfl
  · exact .inr rfl

/-- Running an instruction changes STATUS only by ending it (R37, R213, R214). -/
theorem exec_status {i : Instr} {s t : State} (ht : reaches (exec i s) t) : s.status.LeadsTo t.status := by
  cases i with
  | le16Unpack pb n =>
    rw [exec, execLe16Unpack] at ht
    exact checked_status ht (inRead_running rfl 2 fun bs u hu => (storeResult_status bs u).trans hu)
  | le16Pack pb n =>
    rw [exec, execLe16Pack] at ht
    exact checked_status ht (outWrite_running rfl _)
  | rawRd pb n =>
    rw [exec, execRawRd] at ht
    exact checked_status ht ((rawRdLoop_running _ _ rfl).spoilLine _ _)
  | rawWr pb n =>
    rw [exec, execRawWr] at ht
    exact checked_status ht (rawWrLoop_running _ _ rfl)
  | swap pb n =>
    rw [exec, execSwap] at ht
    exact checked_status ht (memRead_running fun _ => rfl)
  | expand pb n =>
    rw [exec, execExpand] at ht
    exact checked_status ht (memRead_running fun _ => rfl)
  | rleDec pb n =>
    rw [exec, execRleDec] at ht
    exact checked_status ht (((decodeLoop_running _ _ _ rfl).spoilLine _ _).andThen fun _ => id)
  | rleEnc pb n =>
    rw [exec, execRleEnc] at ht
    exact checked_status ht (encodeLoop_running _ _ _ rfl)
  | pktRepeat c => exact (runOpened_status (pktRepeat_reaches ht).2 :)
  | pktDirect c => exact (runOpened_status (pktDirect_reaches ht).2 :)

theorem rejectFault_raised (r : Reject) : (rejectFault r).Raised := by cases r <;> exact ⟨nofun, nofun⟩

theorem runLatched_status {s t : State} (ht : reaches (runLatched s) t) : s.status.LeadsTo t.status := by
  unfold runLatched at ht
  split at ht
  · exact exec_status ht
  · rename_i r _
    obtain hf | hf := ht <;> cases hf
    exact .inr (.inr ⟨_, rejectFault_raised r, rfl⟩)

theorem runPacket_status {s t : State} (ht : reaches (runPacket s) t) : s.status.LeadsTo t.status := by
  unfold runPacket at ht
  split at ht
  · split at ht
    · exact (exec_status ht :)
    · exact runLatched_status ht
  · exact runLatched_status ht

/-- What one event does to STATUS (R24, R37). -/
theorem EventEffect.status {e : Event} {s t : State} (he : EventEffect e s t) :
    t.status = s.status ∨ (s.status.busy = true ∧ s.status.LeadsTo t.status) ∨
    (s.status.busy = false ∧ ∃ v, e = .regWrite 0x00 4 v ∧ t.status = Status.issued (fieldOp v)) ∨
    ((e = .reset ∨ e = .powerOn) ∧ t.status = State.reset.status) := by
  cases he with
  | ran _ busy led => exact .inr (.inl ⟨busy, led.elim runLatched_status runPacket_status⟩)
  | issued v write idle => exact .inr (.inr (.inl ⟨idle, v, write, rfl⟩))
  | stored => exact .inl rfl
  | reset lb input => exact .inr (.inr (.inr ⟨input.imp And.left And.left, rfl⟩))
  | moved => exact .inl rfl

/-- Settles O22: of the effects an event can have, only running a command, a CMD write and reset touch STATUS, and the body
of a command leaves it to the command's end. -/
theorem statusChangesOnlyByIssueEndReset : Obligations.StatusChangesOnlyByIssueEndReset := by
  unfold Obligations.StatusChangesOnlyByIssueEndReset
  intro s t h
  obtain ⟨e, rest, hagenda, he⟩ := step_effect h
  obtain h | ⟨hbusy, h | h | ⟨k, hk, h⟩⟩ | ⟨hidle, v, rfl, h⟩ | ⟨hreset, h⟩ := he.status
  · exact .inl h
  · exact .inl h
  · exact .inr (.inr (.inl ⟨hbusy, h⟩))
  · exact .inr (.inr (.inr (.inl ⟨hbusy, k, hk.1, hk.2, h⟩)))
  · exact .inr (.inl ⟨hidle, v, rest, hagenda.resolve_left nofun, h⟩)
  · obtain rfl | rfl := hreset
    · exact .inr (.inr (.inr (.inr ⟨rest, .inl (hagenda.resolve_left nofun), h⟩)))
    · exact .inr (.inr (.inr (.inr ⟨rest, .inr (hagenda.resolve_left nofun), h⟩)))

/-! ## Frames -/

/-- The registers that no instruction touches, and the host's side, as one value (R23, R38, R51). -/
def State.hostView (s : State) :=
  (s.cfg, s.cmd, s.base, s.lat, s.agenda, s.reads, s.status.lastop, s.outcomeRead)

theorem hostView_keptByCommands (s : State) : KeptByCommands fun u => u.hostView = s.hostView where
  taking _ _ _ _ h _ := h
  giving _ _ _ _ _ h := h
  storing _ _ _ _ h _ _ := h
  decoder _ :=
    { openRepeat := fun _ _ h => h
      openDirect := fun _ _ h => h
      sample := fun _ _ h _ => h
      rep := fun _ h => h
      dir := fun _ h => h }
  encoder :=
    { chosen := fun _ _ _ h => h
      sent := fun _ h => h }
  pixelSent _ h := h
  result _ _ h := h
  rewritten _ _ _ h := h
  spoilt _ _ _ h := h
  runClosed _ h := h
  finished _ h := h
  faulted _ _ h := h

theorem exec_hostView {i : Instr} {s t : State} (ht : reaches (exec i s) t) : t.hostView = s.hostView :=
  exec_keeps (hostView_keptByCommands s) i rfl ht

/-- A part of the state that neither the body of a checked command nor its end touches is as it was. -/
theorem checked_frame {α : Type} (view : State → α) (hfin : ∀ u : State, view u.finish = view u)
    (hflt : ∀ k (u : State), view (u.raiseFault k) = view u) {i : Instr} {s t : State} {body : State → Flow}
    (ht : reaches (checked i s body) t) (hbody : (body s).All fun u => view u = view s) : view t = view s :=
  checked_leads (P := fun u => view u = view s) (fun u hu => (hfin u).trans hu) (fun k u hu => (hflt k u).trans hu) rfl ht
    fun _ _ => hbody

/-- What LE16_UNPACK has no use for (R103). -/
def State.besideUnpack (s : State) :=
  (s.lb, s.out, s.outcnt, s.pixcnt, s.pend, s.rep, s.dir, s.sample, s.x, s.enc, s.draws)

theorem le16Unpack_frame {pb : BitVec 3} {n : BitVec 24} {s t : State} (ht : reaches (exec (.le16Unpack pb n) s) t) :
    t.besideUnpack = s.besideUnpack := by
  rw [exec, execLe16Unpack] at ht
  refine checked_frame State.besideUnpack (fun _ => rfl) (fun _ _ => rfl) ht ?_
  refine inRead_all (P := fun u => u.besideUnpack = s.besideUnpack) (fun _ _ _ _ h _ => h) rfl fun u bs hu _ _ _ _ => ?_
  unfold storeResult
  split <;> exact hu

/-- What LE16_PACK has no use for (R104). -/
def State.besidePack (s : State) :=
  (s.result, s.lb, s.inp, s.incnt, s.pixcnt, s.part, s.rep, s.dir, s.sample, s.x, s.enc, s.draws)

theorem le16Pack_frame {pb : BitVec 3} {n : BitVec 24} {s t : State} (ht : reaches (exec (.le16Pack pb n) s) t) :
    t.besidePack = s.besidePack := by
  rw [exec, execLe16Pack] at ht
  exact checked_frame State.besidePack (fun _ => rfl) (fun _ _ => rfl) ht (outWrite_all (fun _ _ _ _ _ h => h) _ rfl)

/-- What RAW_RD has no use for (R121). -/
def State.besideRawRd (s : State) := (s.result, s.out, s.outcnt, s.pend, s.rep, s.dir, s.sample, s.enc)

theorem rawRd_frame {pb : BitVec 3} {n : BitVec 24} {s t : State} (ht : reaches (exec (.rawRd pb n) s) t) :
    t.besideRawRd = s.besideRawRd := by
  rw [exec, execRawRd] at ht
  have hloop := rawRdLoop_all (P := fun u => u.besideRawRd = s.besideRawRd) (p := pb.toNat) (fun _ _ _ _ h _ => h)
    (fun _ _ h _ _ => h) (n.toNat - s.x) (Nat.le_refl _) rfl
  exact checked_frame State.besideRawRd (fun _ => rfl) (fun _ _ => rfl) ht (hloop.onRaise fun _ h => h)

/-- What RAW_WR has no use for (R122). -/
def State.besideRawWr (s : State) :=
  (s.result, s.lb, s.inp, s.incnt, s.part, s.rep, s.dir, s.sample, s.enc, s.draws)

theorem rawWr_frame {pb : BitVec 3} {n : BitVec 24} {s t : State} (ht : reaches (exec (.rawWr pb n) s) t) :
    t.besideRawWr = s.besideRawWr := by
  rw [exec, execRawWr] at ht
  exact checked_frame State.besideRawWr (fun _ => rfl) (fun _ _ => rfl) ht
    (rawWrLoop_all (fun _ _ _ _ _ h => h) (fun _ h _ => h) _ (Nat.le_refl _) rfl)

/-- What SWAP and EXPAND have no use for (R124, R127). -/
def State.besideRewrite (s : State) :=
  (s.result, s.inp, s.incnt, s.out, s.outcnt, s.part, s.pend, s.rep, s.dir, s.sample, s.x, s.enc, s.draws)

theorem swap_frame {pb : BitVec 3} {n : BitVec 24} {s t : State} (ht : reaches (exec (.swap pb n) s) t) :
    t.besideRewrite = s.besideRewrite := by
  rw [exec, execSwap] at ht
  exact checked_frame State.besideRewrite (fun _ => rfl) (fun _ _ => rfl) ht (memRead_all fun _ => rfl)

theorem expand_frame {pb : BitVec 3} {n : BitVec 24} {s t : State} (ht : reaches (exec (.expand pb n) s) t) :
    t.besideRewrite = s.besideRewrite := by
  rw [exec, execExpand] at ht
  exact checked_frame State.besideRewrite (fun _ => rfl) (fun _ _ => rfl) ht (memRead_all fun _ => rfl)

/-- What the RLE decoder has no use for (R151, R152). -/
def State.besideDecode (s : State) := (s.result, s.out, s.outcnt, s.pend, s.enc)

theorem besideDecode_keptByDecoder (p : Nat) (s : State) : KeptByDecoder p fun u => u.besideDecode = s.besideDecode where
  openRepeat _ _ h := h
  openDirect _ _ h := h
  sample _ _ h _ := h
  rep _ h := h
  dir _ h := h

theorem rleDec_frame {pb : BitVec 3} {n : BitVec 24} {s t : State} (ht : reaches (exec (.rleDec pb n) s) t) :
    t.besideDecode = s.besideDecode := by
  rw [exec, execRleDec] at ht
  have hloop := decodeLoop_all (w := n.toNat) (fun _ _ _ _ h _ => h) (fun _ _ h _ _ => h)
    (besideDecode_keptByDecoder pb.toNat s) (n.toNat - s.x) rfl
  exact checked_frame State.besideDecode (fun _ => rfl) (fun _ _ => rfl) ht
    ((hloop.onRaise (f := State.spoilLine _ _) fun _ h => h).andThen fun _ h => h)

theorem runOpened_frame {s t : State} (ht : reaches (runOpened s) t) : t.besideDecode = s.besideDecode := by
  have hrun := emitRun_all (w := s.lat.n.toNat) (fun _ _ _ _ h _ => h) (fun _ _ h _ _ => h)
    (besideDecode_keptByDecoder s.lat.pb.toNat s) rfl
  refine (hrun.onRaise (f := State.spoilLine _ _) fun _ h => h).settle (fun u hu => ?_) (fun _ => id) (fun _ _ => id) ht
  split <;> exact hu

theorem pktRepeat_frame {c : BitVec 7} {s t : State} (ht : reaches (exec (.pktRepeat c) s) t) :
    t.besideDecode = s.besideDecode :=
  (runOpened_frame (pktRepeat_reaches ht).2 :)

theorem pktDirect_frame {c : BitVec 7} {s t : State} (ht : reaches (exec (.pktDirect c) s) t) :
    t.besideDecode = s.besideDecode :=
  (runOpened_frame (pktDirect_reaches ht).2 :)

/-- What RLE_ENC has no use for (R180). -/
def State.besideEncode (s : State) :=
  (s.result, s.lb, s.inp, s.incnt, s.part, s.rep, s.dir, s.sample, s.x, s.draws)

theorem rleEnc_frame {pb : BitVec 3} {n : BitVec 24} {s t : State} (ht : reaches (exec (.rleEnc pb n) s) t) :
    t.besideEncode = s.besideEncode := by
  rw [exec, execRleEnc] at ht
  exact checked_frame State.besideEncode (fun _ => rfl) (fun _ _ => rfl) ht
    (encodeLoop_all (fun _ _ _ _ _ h => h) ⟨fun _ _ _ h => h, fun _ h => h⟩ _ rfl)

/-- RESULT is LE16_UNPACK's alone (R25, R103). -/
theorem exec_result {i : Instr} {s t : State} (ht : reaches (exec i s) t) (hi : ∀ pb n, i ≠ .le16Unpack pb n) :
    t.result = s.result := by
  cases i with
  | le16Unpack pb n => exact absurd rfl (hi pb n)
  | le16Pack => exact congrArg Prod.fst (le16Pack_frame ht)
  | rawRd => exact congrArg Prod.fst (rawRd_frame ht)
  | rawWr => exact congrArg Prod.fst (rawWr_frame ht)
  | swap => exact congrArg Prod.fst (swap_frame ht)
  | expand => exact congrArg Prod.fst (expand_frame ht)
  | rleDec => exact congrArg Prod.fst (rleDec_frame ht)
  | rleEnc => exact congrArg Prod.fst (rleEnc_frame ht)
  | pktRepeat => exact congrArg Prod.fst (pktRepeat_frame ht)
  | pktDirect => exact congrArg Prod.fst (pktDirect_frame ht)

/-- Settles O23: each clause is the view of the state that the instruction's body, its end and a fault leave alone. -/
theorem execFrame : Obligations.ExecFrame := by
  unfold Obligations.ExecFrame
  intro i s t ht
  have hhost := exec_hostView ht
  simp only [State.hostView, Prod.mk.injEq] at hhost
  obtain ⟨hcfg, hcmd, hbase, hlat, hagenda, hreads, hlastop, hseen⟩ := hhost
  refine ⟨hcfg, hcmd, hbase, hlat, hagenda, hreads, hlastop, hseen, exec_result ht, ?unpack, ?pack, ?rawRd, ?rawWr, ?rewrite,
    ?decode, ?encode⟩
  case unpack =>
    rintro pb n rfl
    simpa [State.besideUnpack] using le16Unpack_frame ht
  case pack =>
    rintro pb n rfl
    simpa [State.besidePack] using congrArg Prod.snd (le16Pack_frame ht)
  case rawRd =>
    rintro pb n rfl
    simpa [State.besideRawRd] using congrArg Prod.snd (rawRd_frame ht)
  case rawWr =>
    rintro pb n rfl
    simpa [State.besideRawWr] using congrArg Prod.snd (rawWr_frame ht)
  case rewrite =>
    rintro pb n (rfl | rfl)
    · simpa [State.besideRewrite] using congrArg Prod.snd (swap_frame ht)
    · simpa [State.besideRewrite] using congrArg Prod.snd (expand_frame ht)
  case decode =>
    rintro pb n c (rfl | rfl | rfl)
    · simpa [State.besideDecode] using congrArg Prod.snd (rleDec_frame ht)
    · simpa [State.besideDecode] using congrArg Prod.snd (pktRepeat_frame ht)
    · simpa [State.besideDecode] using congrArg Prod.snd (pktDirect_frame ht)
  case encode =>
    rintro pb n rfl
    simpa [State.besideEncode] using congrArg Prod.snd (rleEnc_frame ht)

/-! ## The bytes at the ports -/

/-- From `s` on, bytes have left IN at its front and joined OUT at its end, and the counters have counted them (R26, R27). -/
def PortsCounted (s t : State) : Prop :=
  ∃ taken given : List Byte,
    s.inp.bytes = taken ++ t.inp.bytes ∧ t.inp.eos = s.inp.eos ∧
    t.incnt = s.incnt + BitVec.ofNat 32 taken.length ∧
    t.out.sent = s.out.sent ++ given ∧ t.outcnt = s.outcnt + BitVec.ofNat 32 given.length

theorem portsCounted_refl (s : State) : PortsCounted s s := ⟨[], [], by simp, rfl, by simp, by simp, by simp⟩

theorem portsCounted_keptByTaking (s : State) : KeptByTaking (PortsCounted s) := by
  rintro u more rest q ⟨taken, given, hin, heos, hincnt, hout, houtcnt⟩ hbytes
  refine ⟨taken ++ more, given, ?_, heos, ?_, hout, houtcnt⟩
  · rw [hin, hbytes, List.append_assoc]
    rfl
  · rw [List.length_append, ← counter_add, ← hincnt]
    rfl

theorem portsCounted_keptByGiving (s : State) : KeptByGiving (PortsCounted s) := by
  rintro u more cap answers q ⟨taken, given, hin, heos, hincnt, hout, houtcnt⟩
  refine ⟨taken, given ++ more, hin, heos, hincnt, ?_, ?_⟩
  · rw [← List.append_assoc, ← hout]
    rfl
  · rw [List.length_append, ← counter_add, ← houtcnt]
    rfl

/-- Only InRead and OutWrite touch the ports and their counters. -/
theorem portsCounted_keptByCommands (s : State) : KeptByCommands (PortsCounted s) where
  taking := portsCounted_keptByTaking s
  giving := portsCounted_keptByGiving s
  storing _ _ _ _ h _ _ := h
  decoder _ :=
    { openRepeat := fun _ _ h => h
      openDirect := fun _ _ h => h
      sample := fun _ _ h _ => h
      rep := fun _ h => h
      dir := fun _ h => h }
  encoder :=
    { chosen := fun _ _ _ h => h
      sent := fun _ h => h }
  pixelSent _ h := h
  result _ _ h := h
  rewritten _ _ _ h := h
  spoilt _ _ _ h := h
  runClosed _ h := h
  finished _ h := h
  faulted _ _ h := h

/-- Settles O25: every instruction keeps the count of the bytes since it began. -/
theorem portBytesAreCounted : Obligations.PortBytesAreCounted := by
  unfold Obligations.PortBytesAreCounted
  intro i s t ht
  exact exec_keeps (portsCounted_keptByCommands s) i (portsCounted_refl s) ht

/-! ## What a running command reads -/

/-- The state with other values in REG.CMD and REG.BASE. -/
def State.withRegs (c b : Word) (s : State) : State := { s with cmd := c, base := b }

/-- A flow with other values in REG.CMD and REG.BASE in each state it leads to. -/
def Flow.withRegs (c b : Word) : Flow → Flow
  | .go s => .go (s.withRegs c b)
  | .wait s => .wait (s.withRegs c b)
  | .raise k s => .raise k (s.withRegs c b)
  | .unwritten a => .unwritten a

section
variable (c b : Word)

theorem Flow.withRegs_andThen (r : Flow) {f : State → Flow} (hf : ∀ s, f (s.withRegs c b) = (f s).withRegs c b) :
    (r.withRegs c b).andThen f = (r.andThen f).withRegs c b := by
  cases r with
  | go s => exact hf s
  | wait s => rfl
  | raise k s => rfl
  | unwritten a => rfl

theorem Flow.withRegs_spoilLine (p w : Nat) (r : Flow) :
    (r.withRegs c b).onRaise (State.spoilLine p w) = (r.onRaise (State.spoilLine p w)).withRegs c b := by
  cases r <;> rfl

/-- A test that REG.CMD and REG.BASE have no part in is decided the same way. -/
theorem Flow.withRegs_ite {p : Prop} [Decidable p] {x y x' y' : Flow} (hx : x' = x.withRegs c b)
    (hy : y' = y.withRegs c b) : (if p then x' else y') = (if p then x else y).withRegs c b := by
  split
  · exact hx
  · exact hy

theorem Flow.withRegs_settle (r : Flow) {last : State → State} (hl : ∀ s, last (s.withRegs c b) = (last s).withRegs c b) :
    (r.withRegs c b).settle last = mapStates (State.withRegs c b) (r.settle last) := by
  cases r with
  | go s => exact congrArg Host.Outcome.next (hl s)
  | wait s => rfl
  | raise k s => rfl
  | unwritten a => rfl

theorem inTake_withRegs (k : Nat) (s : State) : inTake k (s.withRegs c b) = (inTake k s).withRegs c b := by
  by_cases h : k ≤ s.inp.bytes.length
  · rw [inTake_enough h, inTake_enough (s := s.withRegs c b) h]
    rfl
  · have hshort := Nat.lt_of_not_le h
    rw [inTake_short hshort, inTake_short (s := s.withRegs c b) hshort]
    cases he : s.inp.eos <;> simp [State.withRegs, Flow.withRegs, he]

theorem inRead_withRegs (n : Nat) (s : State) {f : List Byte → State → Flow}
    (hf : ∀ bs t, f bs (t.withRegs c b) = (f bs t).withRegs c b) :
    inRead n (s.withRegs c b) f = (inRead n s f).withRegs c b := by
  unfold inRead
  rw [← Flow.withRegs_andThen c b _ fun t => hf (t.part.take n) { t with part := [] }, ← inTake_withRegs]
  rfl

theorem outWrite_withRegs (bs : List Byte) (s : State) : outWrite bs (s.withRegs c b) = (outWrite bs s).withRegs c b := by
  induction bs generalizing s with
  | nil => rfl
  | cons x bs ih => exact Flow.withRegs_ite c b rfl (Flow.withRegs_ite c b rfl (ih (s.gaveByte x)))

theorem memRead_withRegs (s : State) (a n : Nat) {f g : List Byte → Flow} (hf : ∀ bs, f bs = (g bs).withRegs c b) :
    (s.withRegs c b).memRead a n f = (s.memRead a n g).withRegs c b := by
  show (match lbRead s.lb a n with | .error e => Flow.unwritten e | .ok bs => f bs) = _
  unfold State.memRead
  cases lbRead s.lb a n with
  | error e => rfl
  | ok bs => exact hf bs

theorem rawRdLoop_withRegs (p k : Nat) (s : State) :
    rawRdLoop p k (s.withRegs c b) = (rawRdLoop p k s).withRegs c b := by
  induction k generalizing s with
  | zero => rfl
  | succ k ih => exact inRead_withRegs c b p s fun px t => ih (t.storePixel p px)

theorem sendPixel_withRegs (p : Nat) (s : State) : sendPixel p (s.withRegs c b) = (sendPixel p s).withRegs c b := by
  refine Flow.withRegs_ite c b ?_ (outWrite_withRegs c b s.pend s)
  rw [show (s.withRegs c b).pix p (s.withRegs c b).x = s.pix p s.x from rfl]
  cases s.pix p s.x with
  | error a => rfl
  | ok px => exact outWrite_withRegs c b px s

theorem rawWrLoop_withRegs (p k : Nat) (s : State) :
    rawWrLoop p k (s.withRegs c b) = (rawWrLoop p k s).withRegs c b := by
  induction k generalizing s with
  | zero => rfl
  | succ k ih =>
    unfold rawWrLoop
    rw [sendPixel_withRegs]
    exact Flow.withRegs_andThen c b _ fun t => ih t.pixelSent

theorem emitSample_withRegs (p k : Nat) (s : State) :
    emitSample p k (s.withRegs c b) = (emitSample p k s).withRegs c b := by
  induction k generalizing s with
  | zero => rfl
  | succ k ih => exact ih { s.storePixel p s.sample with rep := s.rep - 1 }

theorem emitDirect_withRegs (p k : Nat) (s : State) :
    emitDirect p k (s.withRegs c b) = (emitDirect p k s).withRegs c b := by
  induction k generalizing s with
  | zero => rfl
  | succ k ih => exact inRead_withRegs c b p s fun px t => ih { t.storePixel p px with dir := t.dir - 1 }

theorem emitRun_withRegs (p w : Nat) (s : State) : emitRun p w (s.withRegs c b) = (emitRun p w s).withRegs c b :=
  Flow.withRegs_ite c b
    (inRead_withRegs c b p s fun px t =>
      congrArg Flow.go (emitSample_withRegs c b p (min t.rep (w - t.x)) { t with sample := px }))
    (emitDirect_withRegs c b p (min s.dir (w - s.x)) s)

theorem openRun_withRegs (h : Byte) (s : State) : (s.withRegs c b).openRun h = (s.openRun h).withRegs c b := by
  unfold State.openRun
  cases decodeHeader h <;> rfl

theorem decodeLoop_withRegs (p w fuel : Nat) (s : State) :
    decodeLoop p w fuel (s.withRegs c b) = (decodeLoop p w fuel s).withRegs c b := by
  induction fuel generalizing s with
  | zero => rfl
  | succ fuel ih =>
    refine Flow.withRegs_ite c b ?_ rfl
    rw [← Flow.withRegs_andThen c b _ ih, ← Flow.withRegs_andThen c b _ (emitRun_withRegs c b p w)]
    refine congrArg (fun r : Flow => (r.andThen (emitRun p w)).andThen (decodeLoop p w fuel)) ?_
    exact Flow.withRegs_ite c b (inRead_withRegs c b 1 s fun h t => congrArg Flow.go (openRun_withRegs c b _ t)) rfl

/-- The encoder chooses its packet from LB and the latched BASE (R38, R182). -/
theorem nextPacket_withRegs (s : State) (p w i : Nat) : nextPacket (s.withRegs c b) p w i = nextPacket s p w i := by
  have hsame (px : Pixel) (fuel n : Nat) : sameRun (s.withRegs c b) p w i px fuel n = sameRun s p w i px fuel n := by
    induction fuel generalizing n with
    | zero => rfl
    | succ fuel ih =>
      simp only [sameRun, ih]
      rfl
  have hdiffer (fuel n : Nat) : differRun (s.withRegs c b) p w i fuel n = differRun s p w i fuel n := by
    induction fuel generalizing n with
    | zero => rfl
    | succ fuel ih =>
      simp only [differRun, ih]
      rfl
  simp only [nextPacket, hsame, hdiffer]
  rfl

theorem sendPacket_withRegs (p w : Nat) (s : State) :
    sendPacket p w (s.withRegs c b) = (sendPacket p w s).withRegs c b := by
  refine Flow.withRegs_ite c b ?_ (outWrite_withRegs c b s.pend s)
  rw [nextPacket_withRegs, show (s.withRegs c b).enc.i = s.enc.i from rfl]
  cases nextPacket s p w s.enc.i with
  | error a => rfl
  | ok packet =>
    exact outWrite_withRegs c b packet.2.2 { s with enc := { s.enc with n := packet.2.1, kind := packet.1 } }

theorem encodeLoop_withRegs (p w fuel : Nat) (s : State) :
    encodeLoop p w fuel (s.withRegs c b) = (encodeLoop p w fuel s).withRegs c b := by
  induction fuel generalizing s with
  | zero => rfl
  | succ fuel ih =>
    refine Flow.withRegs_ite c b ?_ rfl
    rw [sendPacket_withRegs]
    exact Flow.withRegs_andThen c b _ fun t => ih t.packetSent

theorem checked_withRegs (i : Instr) (s : State) {body : State → Flow}
    (hbody : body (s.withRegs c b) = (body s).withRegs c b) :
    checked i (s.withRegs c b) body = mapStates (State.withRegs c b) (checked i s body) := by
  unfold checked
  rw [show operandFault i (s.withRegs c b) = operandFault i s from rfl, hbody]
  cases operandFault i s with
  | some k => rfl
  | none => exact Flow.withRegs_settle c b _ fun _ => rfl

theorem runOpened_withRegs (s : State) :
    runOpened (s.withRegs c b) = mapStates (State.withRegs c b) (runOpened s) := by
  unfold runOpened
  simp only [show (s.withRegs c b).lat = s.lat from rfl, emitRun_withRegs, Flow.withRegs_spoilLine]
  exact Flow.withRegs_settle c b _ fun t => (apply_ite (State.withRegs c b) (t.x < s.lat.n.toNat) t t.endLine).symm

/-- Running an instruction with other values in REG.CMD and REG.BASE leads to the same states, with those values (R38). -/
theorem exec_withRegs (i : Instr) (s : State) :
    exec i (s.withRegs c b) = mapStates (State.withRegs c b) (exec i s) := by
  cases i with
  | le16Unpack pb n =>
    rw [exec, exec, execLe16Unpack, execLe16Unpack]
    refine checked_withRegs c b _ s (inRead_withRegs c b 2 s fun bs t => congrArg Flow.go ?_)
    unfold storeResult
    split <;> rfl
  | le16Pack pb n =>
    rw [exec, exec, execLe16Pack, execLe16Pack]
    exact checked_withRegs c b _ s (outWrite_withRegs c b _ s)
  | rawRd pb n =>
    rw [exec, exec, execRawRd, execRawRd]
    refine checked_withRegs c b _ s ?_
    rw [rawRdLoop_withRegs]
    exact Flow.withRegs_spoilLine c b _ _ _
  | rawWr pb n =>
    rw [exec, exec, execRawWr, execRawWr]
    exact checked_withRegs c b _ s (rawWrLoop_withRegs c b _ _ s)
  | swap pb n =>
    rw [exec, exec, execSwap, execSwap]
    exact checked_withRegs c b _ s (memRead_withRegs c b s _ _ fun _ => rfl)
  | expand pb n =>
    rw [exec, exec, execExpand, execExpand]
    exact checked_withRegs c b _ s (memRead_withRegs c b s _ _ fun _ => rfl)
  | rleDec pb n =>
    rw [exec, exec, execRleDec, execRleDec]
    refine checked_withRegs c b _ s ?_
    rw [decodeLoop_withRegs, Flow.withRegs_spoilLine]
    exact Flow.withRegs_andThen c b _ fun _ => rfl
  | rleEnc pb n =>
    rw [exec, exec, execRleEnc, execRleEnc]
    exact checked_withRegs c b _ s (encodeLoop_withRegs c b _ _ _ s)
  | pktRepeat k =>
    simp only [exec, execPktRepeat, show (s.withRegs c b).atHeader = s.atHeader from rfl]
    cases s.atHeader with
    | true => exact runOpened_withRegs c b (s.openRepeat k)
    | false => rfl
  | pktDirect k =>
    simp only [exec, execPktDirect, show (s.withRegs c b).atHeader = s.atHeader from rfl]
    cases s.atHeader with
    | true => exact runOpened_withRegs c b (s.openDirect k)
    | false => rfl

end

/-- Settles O26: each piece of a command's body does the same with other values in the two registers. -/
theorem commandReadsOnlyLatchedValues : Obligations.CommandReadsOnlyLatchedValues := by
  unfold Obligations.CommandReadsOnlyLatchedValues
  exact fun i s c b => exec_withRegs c b i s

/-! ## One step, with and without an event -/

theorem step_of_nil {s : State} (h : s.agenda = []) : step s = handleEvent .run s := by
  unfold step advance
  rw [h]

theorem step_of_cons {s : State} {e : Event} {rest : List Event} (h : s.agenda = e :: rest) :
    step s = handleEvent e { s with agenda := rest } := by
  unfold step advance
  rw [h]

/-- A busy TSCU runs the instruction its latched word decodes to (R38, R87). -/
theorem handleEvent_run_of_decode {s : State} {i : Instr} (hbusy : s.status.busy = true)
    (hi : decodeCommand s.lat.word = .ok i) : handleEvent .run s = exec i s := by
  simp only [handleEvent, runLatched, hbusy, hi, if_true]

/-- Settles O5: with nothing scheduled the step is a run, as it is where one is scheduled. -/
theorem stepRunsLatchedCommand : Obligations.StepRunsLatchedCommand := by
  unfold Obligations.StepRunsLatchedCommand
  intro s i hbusy hi
  refine ⟨fun hnil => ?_, fun rest hrun => ?_⟩
  · rw [step_of_nil hnil, handleEvent_run_of_decode hbusy hi]
  · rw [step_of_cons hrun, handleEvent_run_of_decode (s := { s with agenda := rest }) hbusy hi]

/-- Settles O7: what is latched stands for the word placed, and the run that is placed with it comes off the agenda. -/
theorem placedCommandRunsNext : Obligations.PlacedCommandRunsNext := by
  unfold Obligations.PlacedCommandRunsNext
  intro s v i hi
  have hplaced : s.withFetchWord 32 v.toNat = { s.issue v with agenda := .run :: s.agenda } := by
    simp [State.withFetchWord, State.withCommand]
  have hlatched : decodeCommand (s.issue v).lat.word = .ok i := by rw [State.issue_lat, Latch.word_of, hi]
  rw [hplaced, step_of_cons rfl]
  exact handleEvent_run_of_decode rfl hlatched

/-! ## The register file -/

/-- A write of CMD with BUSY = 0 issues the command (R22). -/
theorem hostRegWrite_cmd_idle {s : State} (h : s.status.busy = false) (v : Word) :
    hostRegWrite 0x00 4 v s = .next (s.issue v) := by
  simp [hostRegWrite, regAccessOk, h]

theorem hostRegWrite_cmd_busy {s : State} (h : s.status.busy = true) (v : Word) :
    hostRegWrite 0x00 4 v s = .refused .cmdWriteWhileBusy := by
  simp [hostRegWrite, regAccessOk, h]

theorem hostRegWrite_base_idle {s : State} (h : s.status.busy = false) (v : Word) :
    hostRegWrite 0x08 4 v s = .next { s with base := v } := by
  simp [hostRegWrite, regAccessOk, h]

theorem hostRegWrite_base_busy {s : State} (h : s.status.busy = true) (v : Word) :
    hostRegWrite 0x08 4 v s = .refused .baseWriteWhileBusy := by
  simp [hostRegWrite, regAccessOk, h]

/-- Every other register ignores a write (R56). -/
theorem hostRegWrite_other {offset : Nat} (halign : offset % 4 = 0) (hspace : offset < 0x40) (hcmd : offset ≠ 0x00)
    (hbase : offset ≠ 0x08) (v : Word) (s : State) : hostRegWrite offset 4 v s = .next s := by
  simp [hostRegWrite, regAccessOk, halign, Nat.not_le.mpr hspace, hcmd, hbase]

/-- A read of a register whose value is specified returns it, and one of STATUS may show the outcome (R21, R244, R248). -/
theorem hostRegRead_specified {offset : Nat} {s : State} (halign : offset % 4 = 0) (hspace : offset < 0x40)
    (h : s.status.busy = false ∨ unspecifiedWhileBusy offset = false) :
    hostRegRead offset 4 s = .next { s with
      reads := s.reads ++ [regValue s offset]
      outcomeRead := s.outcomeRead || s.seesOutcome offset } := by
  have hfree : ¬ (s.status.busy = true ∧ unspecifiedWhileBusy offset = true) := by
    rintro ⟨hb, hu⟩
    obtain h | h := h
    · simp [hb] at h
    · simp [hu] at h
  simp [hostRegRead, regAccessOk, halign, Nat.not_le.mpr hspace, hfree]

/-- A read of a register other than STATUS changes nothing but the record of reads (R21). -/
theorem hostRegRead_beside_status {offset : Nat} {s : State} (halign : offset % 4 = 0) (hspace : offset < 0x40)
    (hstatus : offset ≠ 0x04) (h : s.status.busy = false ∨ unspecifiedWhileBusy offset = false) :
    hostRegRead offset 4 s = .next { s with reads := s.reads ++ [regValue s offset] } := by
  rw [hostRegRead_specified halign hspace h]
  simp [State.seesOutcome, hstatus]

/-- A read of an unspecified register while BUSY = 1 returns a draw (R248). -/
theorem hostRegRead_unspecified {offset : Nat} {s : State} (halign : offset % 4 = 0) (hspace : offset < 0x40)
    (hbusy : s.status.busy = true) (h : unspecifiedWhileBusy offset = true) :
    hostRegRead offset 4 s = .next { s with reads := s.reads ++ [drawRegister s offset], draws := s.draws + 1 } := by
  simp [hostRegRead, regAccessOk, halign, Nat.not_le.mpr hspace, hbusy, h]

/-- A reserved offset reads 0 (R21). -/
theorem regValue_reserved (s : State) {offset : Nat} (h : 0x20 ≤ offset) : regValue s offset = 0 := by
  unfold regValue
  split
  case h_9 => rfl
  all_goals omega

/-- Settles O9, by the rules of the CMD write and of the read of a specified register. -/
theorem cmdWriteIssuesCommand : Obligations.CmdWriteIssuesCommand := by
  unfold Obligations.CmdWriteIssuesCommand
  refine ⟨fun s v rest hw => ⟨fun hidle => ?_, fun hbusy => ?_⟩, fun s rest hr => ?_, rfl⟩
  · rw [step_of_cons hw]
    exact hostRegWrite_cmd_idle (s := { s with agenda := rest }) hidle v
  · rw [step_of_cons hw]
    exact hostRegWrite_cmd_busy (s := { s with agenda := rest }) hbusy v
  · rw [step_of_cons hr]
    exact hostRegRead_beside_status rfl (by decide) (by decide) (.inr rfl)

/-- Settles O10, by the rules of the BASE write and of the read of a specified register. -/
theorem baseIsReadWrite : Obligations.BaseIsReadWrite := by
  unfold Obligations.BaseIsReadWrite
  refine fun s v rest => ⟨fun hw => ⟨fun hidle => ?_, fun hbusy => ?_⟩, fun hr => ?_⟩
  · rw [step_of_cons hw]
    exact hostRegWrite_base_idle (s := { s with agenda := rest }) hidle v
  · rw [step_of_cons hw]
    exact hostRegWrite_base_busy (s := { s with agenda := rest }) hbusy v
  · rw [step_of_cons hr]
    exact hostRegRead_beside_status rfl (by decide) (by decide) (.inr rfl)

/-- Settles O11: ID is specified at any time, and is neither CMD nor BASE. -/
theorem idIsHardwired : Obligations.IdIsHardwired := by
  unfold Obligations.IdIsHardwired
  refine fun s rest => ⟨fun hr => ?_, fun v hw => ?_⟩
  · rw [step_of_cons hr]
    exact hostRegRead_beside_status rfl (by decide) (by decide) (.inr rfl)
  · rw [step_of_cons hw]
    exact hostRegWrite_other rfl (by decide) (by decide) (by decide) v _

/-- Settles O12: a reserved offset is specified at any time. -/
theorem otherRegistersIgnoreWrites : Obligations.OtherRegistersIgnoreWrites := by
  unfold Obligations.OtherRegistersIgnoreWrites
  refine fun s offset rest halign hspace => ⟨fun v hcmd hbase hw => ?_, fun hreserved hr => ?_⟩
  · rw [step_of_cons hw]
    exact hostRegWrite_other halign hspace hcmd hbase v _
  · have hspecified : unspecifiedWhileBusy offset = false := by
      simp [unspecifiedWhileBusy]
      omega
    rw [step_of_cons hr]
    refine (hostRegRead_beside_status halign hspace (by omega) (.inr hspecified)).trans ?_
    rw [regValue_reserved _ hreserved]

/-- The bits of the STATUS word (R24). -/
theorem Status.getLsbD_word (f : Status) (i : Nat) : f.word.getLsbD i =
    if i = 0 then f.busy else if i = 1 then f.done else if i = 2 then f.err else if i = 3 then false
    else if i < 8 then f.ecode.getLsbD (i - 4) else f.lastop.getLsbD (i - 8) := by
  simp only [Status.word, BitVec.getLsbD_append, BitVec.getLsbD_ofBool, BitVec.getLsbD_zero]
  grind

theorem Status.ecode_word (f : Status) : f.word.extractLsb' 4 4 = f.ecode := by
  refine BitVec.eq_of_getLsbD_eq fun i hi => ?_
  rw [BitVec.getLsbD_extractLsb', Status.getLsbD_word]
  grind

theorem Status.lastop_word (f : Status) : f.word.extractLsb' 8 4 = f.lastop := by
  refine BitVec.eq_of_getLsbD_eq fun i hi => ?_
  rw [BitVec.getLsbD_extractLsb', Status.getLsbD_word]
  grind

theorem Status.reserved_word (f : Status) : f.word.extractLsb' 12 20 = 0 := by
  refine BitVec.eq_of_getLsbD_eq fun i hi => ?_
  have hbeyond : f.lastop.getLsbD (12 + i - 8) = false := BitVec.getLsbD_of_ge _ _ (by omega)
  rw [BitVec.getLsbD_extractLsb', Status.getLsbD_word]
  grind

/-- Settles O13: STATUS is never unspecified, and its word is read bit by bit. -/
theorem statusReadShowsItsFields : Obligations.StatusReadShowsItsFields := by
  unfold Obligations.StatusReadShowsItsFields
  intro s rest hr
  have hbit := s.status.getLsbD_word
  refine ⟨s.status.word, ?_, hbit 0, hbit 1, hbit 2, hbit 3, s.status.ecode_word, s.status.lastop_word,
    s.status.reserved_word⟩
  rw [step_of_cons hr]
  exact hostRegRead_specified rfl (by decide) (.inr rfl)

/-- A draw for RESULT keeps bits 31:16 at 0 (R25, log 11). -/
theorem drawRegister_result (s : State) : (drawRegister s 0x0C).extractLsb' 16 16 = 0 := by
  simp only [drawRegister, if_true]
  ext i hi
  simp

/-- Settles O14: the four registers are those whose value is unspecified while BUSY = 1. -/
theorem resultAndCounterReads : Obligations.ResultAndCounterReads := by
  unfold Obligations.ResultAndCounterReads
  intro s offset value rest hreg hr
  have hoffset : offset % 4 = 0 ∧ offset < 0x40 ∧ offset ≠ 0x04 ∧ unspecifiedWhileBusy offset = true ∧
      regValue s offset = value := by
    simp only [List.mem_cons, Prod.mk.injEq, List.not_mem_nil, or_false] at hreg
    obtain ⟨rfl, rfl⟩ | ⟨rfl, rfl⟩ | ⟨rfl, rfl⟩ | ⟨rfl, rfl⟩ := hreg <;> exact ⟨rfl, by decide, by decide, rfl, rfl⟩
  obtain ⟨halign, hspace, hstatus, hfree, rfl⟩ := hoffset
  rw [step_of_cons hr]
  refine ⟨fun hidle => ?_, fun hbusy => ⟨drawRegister { s with agenda := rest } offset, ?_, ?_⟩⟩
  · exact hostRegRead_beside_status halign hspace hstatus (.inl hidle)
  · exact hostRegRead_unspecified halign hspace hbusy hfree
  · rintro rfl
    exact drawRegister_result _

/-! ## Reset -/

theorem reset_status_word : State.reset.status.word = 0 := by decide

/-- Settles O18: the event leads to the state of `powerOnReset`, whose registers are those of `State.reset`. -/
theorem powerOnResetValues : Obligations.PowerOnResetValues := by
  unfold Obligations.PowerOnResetValues
  refine ⟨⟨rfl, reset_status_word, rfl, rfl, rfl, rfl, rfl, rfl, rfl, rfl, rfl, fun _ => rfl⟩, fun s rest hon => ?_⟩
  refine ⟨({ s with agenda := rest } : State).powerOnReset, ?_, rfl, reset_status_word, rfl, rfl, rfl, rfl, rfl, rfl, rfl,
    fun _ => rfl⟩
  rw [step_of_cons hon, handleEvent]

/-- Settles O19: the state at reset is the reset of itself, over an empty LB. -/
theorem resetMeetsInv : Obligations.ResetMeetsInv := by
  unfold Obligations.ResetMeetsInv
  exact State.inv_resetTo (s := State.reset) (lb := []) List.Pairwise.nil fun _ hc => nomatch hc

end Sys2Proof.Machine
end

section
/-! PROOFS. Encoding (spec 30_encoding): the decoder against the encoder, the words that are no command, and the two
packet headers where an RLE_DEC in flight runs them.

Both directions of the round trip go through the row `opTable` selects: a packed word with RSV clear decodes to its row,
and a row is encoded as the packed word that selects it. A packet is the run its header opens, which `emitRun` carries out
as far as the line has room; what is then left of the run is dropped. -/

/-! ## The decoder against the encoder -/

namespace Sys2Proof

/-- A packed word with RSV clear decodes to the row its OP selects (R71, R76). -/
theorem decodeCommand_packFields {op : BitVec 4} {pb : BitVec 3} {n : BitVec 24} {i : Instr}
    (h : opTable op pb n = some i) : decodeCommand (packFields op pb false n) = .ok i := by
  simp only [decodeCommand, fieldOp_packFields, fieldPb_packFields, fieldN_packFields, fieldRsv_packFields, h,
    Bool.false_eq_true, if_false]

/-- A packed header decodes by its type (R80). -/
theorem decodeHeader_packHeader (t : Bool) (c : BitVec 7) :
    decodeHeader (packHeader t c) = if t then .pktRepeat c else .pktDirect c := by
  rw [decodeHeader, packHeader_type, packHeader_count]

/-- Settles O2: the OP of each command's encoding selects that command's row, and the type of each header's its kind. -/
theorem decodeEncodeAgree : Obligations.DecodeEncodeAgree := by
  unfold Obligations.DecodeEncodeAgree
  intro i
  cases i with
  | le16Unpack pb n => exact decodeCommand_packFields rfl
  | le16Pack pb n => exact decodeCommand_packFields rfl
  | rawRd pb n => exact decodeCommand_packFields rfl
  | rawWr pb n => exact decodeCommand_packFields rfl
  | swap pb n => exact decodeCommand_packFields rfl
  | expand pb n => exact decodeCommand_packFields rfl
  | rleDec pb n => exact decodeCommand_packFields rfl
  | rleEnc pb n => exact decodeCommand_packFields rfl
  | pktRepeat c => exact congrArg Except.ok (decodeHeader_packHeader true c)
  | pktDirect c => exact congrArg Except.ok (decodeHeader_packHeader false c)

/-- The instruction an OP selects is encoded with that OP, its operands and RSV clear (R71, R76). -/
theorem encode_of_opTable {op : BitVec 4} {pb : BitVec 3} {n : BitVec 24} {i : Instr} (h : opTable op pb n = some i) :
    encode i = .cmd32 (packFields op pb false n) := by
  have hself : op = BitVec.ofNat 4 op.toNat := by simp
  unfold opTable at h
  split at h <;> cases h
  all_goals
    rename_i hop
    rw [hself, hop]
    rfl

/-- A header is the encoding of what it decodes to (R80). -/
theorem encode_decodeHeader (h : Byte) : encode (decodeHeader h) = .pkt8 h := by
  have hfields := packHeader_fields h
  unfold decodeHeader
  cases htype : h.getLsbD 7 <;> rw [htype] at hfields <;> exact congrArg Encoded.pkt8 hfields

/-- Settles O3: a word that decodes is its fields, with RSV clear, and a header is its type and count. -/
theorem encodeDecodeAgree : Obligations.EncodeDecodeAgree := by
  unfold Obligations.EncodeDecodeAgree
  intro e i h
  cases e with
  | cmd32 v =>
    obtain ⟨hrow, hrsv⟩ := decodeCommand_eq_ok h
    rw [encode_of_opTable hrow, ← hrsv, packFields_fields]
  | pkt8 b =>
    obtain rfl := Except.ok.inj h
    exact encode_decodeHeader b

/-- Settles O1: each word and each header is evaluated. -/
theorem specWordsDecode : Obligations.SpecWordsDecode := by
  unfold Obligations.SpecWordsDecode
  exact ⟨rfl, rfl, rfl, rfl, rfl, rfl, rfl, rfl, rfl, rfl, rfl, rfl, rfl, rfl⟩

end Sys2Proof

namespace Sys2Proof.Machine

/-! ## The words that are no command -/

/-- A latched word with a reserved OP or RSV = 1 is no command (R75, R78). -/
theorem Latch.word_rejected {l : Latch} (h : l.op = 0 ∨ 9 ≤ l.op.toNat ∨ l.rsv = true) :
    ∃ r, decodeCommand l.word = .error r := by
  cases hd : decodeCommand l.word with
  | error r => exact ⟨r, rfl⟩
  | ok i =>
    have hrow := Latch.opTable_of_decode hd
    have hrsv := (decodeCommand_eq_ok hd).2
    rw [l.fieldRsv_word] at hrsv
    have hdefined : ¬ (l.op.toNat = 0 ∨ 9 ≤ l.op.toNat) := by
      rw [← opTable_eq_none l.op l.pb l.n, hrow]
      exact Option.some_ne_none i
    rcases h with hzero | hlarge | hset
    · exact absurd (.inl (by rw [hzero]; rfl)) hdefined
    · exact absurd (.inr hlarge) hdefined
    · exact absurd (hset.symm.trans hrsv) (by decide)

/-- Every word that is no command faults with Generic (R75, R78). -/
theorem rejectFault_eq_generic (r : Reject) : rejectFault r = .generic := by cases r <;> rfl

theorem runLatched_of_rejected {s : State} {r : Reject} (h : decodeCommand s.lat.word = .error r) :
    runLatched s = .next (s.raiseFault .generic) := by
  simp only [runLatched, h, rejectFault_eq_generic]

/-- Settles O4: the latched word does not decode, and the fault's only effect is on STATUS and the model's record. -/
theorem reservedWordsFaultGeneric : Obligations.ReservedWordsFaultGeneric := by
  unfold Obligations.ReservedWordsFaultGeneric
  intro s hbusy hnil hreserved
  obtain ⟨r, hr⟩ := Latch.word_rejected hreserved
  refine ⟨s.ecodes ++ [ErrorKind.generic.code], ?_⟩
  simp only [step_of_nil hnil, handleEvent, hbusy, if_true, runLatched_of_rejected hr]
  rfl

/-! ## The packets of an RLE_DEC in flight -/

/-- Where the decoder reads a header next, pixels are left, no run is active and no InRead is under way (R152). -/
theorem State.idle_of_atHeader {s : State} (h : s.atHeader = true) :
    s.x < s.lat.n.toNat ∧ s.rep = 0 ∧ s.dir = 0 ∧ s.part = [] := by
  simp only [State.atHeader, Bool.and_eq_true, decide_eq_true_eq, beq_iff_eq] at h
  obtain ⟨⟨⟨⟨-, hx⟩, hrep⟩, hdir⟩, hpart⟩ := h
  exact ⟨hx, hrep, hdir, hpart⟩

theorem exec_pktRepeat_atHeader {s : State} (h : s.atHeader = true) (c : BitVec 7) :
    exec (.pktRepeat c) s = runOpened (s.openRepeat c) := if_pos h

theorem exec_pktDirect_atHeader {s : State} (h : s.atHeader = true) (c : BitVec 7) :
    exec (.pktDirect c) s = runOpened (s.openDirect c) := if_pos h

/-- Settles O46: each of the two packet rows asks first whether a header is read next. -/
theorem packetOutsideDecodeRefused : Obligations.PacketOutsideDecodeRefused := by
  unfold Obligations.PacketOutsideDecodeRefused
  intro s c h
  have houtside : ¬ s.atHeader = true := by simp [h]
  exact ⟨if_neg houtside, if_neg houtside⟩

/-- An open repeat run with its sample on IN: the sample is read once, and as many copies are stored as the run and the line
have room for (R152). -/
theorem emitRun_repeat_enough {p w : Nat} {s : State} (hrep : 0 < s.rep) (hx : s.x < w) (hpart : s.part = [])
    (hm : s.lb.wf) (hin : p ≤ s.inp.bytes.length) :
    emitRun p w s = .go { s with
      inp := { s.inp with bytes := s.inp.bytes.drop p }
      incnt := s.incnt + BitVec.ofNat 32 p
      part := []
      sample := s.inp.bytes.take p
      rep := s.rep - min s.rep (w - s.x)
      x := s.x + min s.rep (w - s.x)
      pixcnt := BitVec.ofNat 32 (s.x + min s.rep (w - s.x))
      lb := lbWrite s.lb (s.lineBase + s.x * p)
        (List.replicate (min s.rep (w - s.x)) (s.inp.bytes.take p)).flatten } := by
  obtain ⟨k, hk⟩ : ∃ k, min s.rep (w - s.x) = k + 1 := Nat.exists_eq_add_one.mpr (by omega)
  have hsample : (s.inp.bytes.take p).length = p := List.length_take_of_le hin
  rw [emitRun, if_pos hrep, inRead_enough hpart hin]
  simp only [hk]
  exact congrArg Flow.go (emitSample_eq hm hsample)

/-- An open direct run with the pixels it needs on IN: as many are taken and stored as the run and the line have room for
(R152). -/
theorem emitRun_direct_enough {p w : Nat} {s : State} (hrep : s.rep = 0) (hdir : 0 < s.dir) (hx : s.x < w)
    (hpart : s.part = []) (hm : s.lb.wf) (hin : min s.dir (w - s.x) * p ≤ s.inp.bytes.length) :
    emitRun p w s = .go { s with
      inp := { s.inp with bytes := s.inp.bytes.drop (min s.dir (w - s.x) * p) }
      incnt := s.incnt + BitVec.ofNat 32 (min s.dir (w - s.x) * p)
      dir := s.dir - min s.dir (w - s.x)
      x := s.x + min s.dir (w - s.x)
      pixcnt := BitVec.ofNat 32 (s.x + min s.dir (w - s.x))
      lb := lbWrite s.lb (s.lineBase + s.x * p) (s.inp.bytes.take (min s.dir (w - s.x) * p)) } := by
  obtain ⟨k, hk⟩ : ∃ k, min s.dir (w - s.x) = k + 1 := Nat.exists_eq_add_one.mpr (by omega)
  rw [emitRun, if_neg (by omega)]
  rw [hk] at hin ⊢
  exact emitDirect_enough hpart hm hin

/-- A packet whose run has been carried out leaves no run active, be it used up within the line or dropped at its end, and
the command ends if the line is complete (R152, R153, R214). -/
theorem runOpened_of_emitRun {s t u : State} (h : emitRun s.lat.pb.toNat s.lat.n.toNat s = .go t)
    (hused : t.x < s.lat.n.toNat → t.rep = 0 ∧ t.dir = 0) (hclosed : { t with rep := 0, dir := 0 } = u) :
    runOpened s = .next (if t.x < s.lat.n.toNat then u else u.finish) := by
  simp only [runOpened, h, Flow.go_onRaise, Flow.go_settle]
  by_cases hx : t.x < s.lat.n.toNat
  · obtain ⟨hrep, hdir⟩ := hused hx
    have hidle : { t with rep := 0, dir := 0 } = t := by
      cases t
      cases hrep
      cases hdir
      rfl
    rw [if_pos hx, if_pos hx, ← hclosed, hidle]
  · rw [if_neg hx, if_neg hx, State.endLine, hclosed]

/-- Settles O44: the header opens a repeat run on a line with pixels left, and what the run leaves over is dropped. -/
theorem repeatPacketEmitsCopies : Obligations.RepeatPacketEmitsCopies := by
  unfold Obligations.RepeatPacketEmitsCopies
  intro s c hat hm hin p w k px t
  obtain ⟨hx, hrep, hdir, hpart⟩ := State.idle_of_atHeader hat
  have hrun := emitRun_repeat_enough (s := s.openRepeat c) (Nat.succ_pos c.toNat) hx hpart hm hin
  have hused (hleft : s.x + k < w) : c.toNat + 1 - k = 0 := by omega
  have hclosed : { t with rep := 0, dir := 0, part := [] } = t := by simp only [t, hrep, hdir, hpart]
  rw [exec_pktRepeat_atHeader hat]
  exact runOpened_of_emitRun hrun (fun hleft => ⟨hused hleft, rfl⟩) hclosed

/-- Settles O45: the header opens a direct run on a line with pixels left, and what the run leaves over is dropped. -/
theorem directPacketCopiesPixels : Obligations.DirectPacketCopiesPixels := by
  unfold Obligations.DirectPacketCopiesPixels
  intro s c hat hm hin p w k t
  obtain ⟨hx, hrep, hdir, hpart⟩ := State.idle_of_atHeader hat
  have hrun := emitRun_direct_enough (s := s.openDirect c) rfl (Nat.succ_pos c.toNat) hx hpart hm hin
  have hused (hleft : s.x + k < w) : c.toNat + 1 - k = 0 := by omega
  have hclosed : { t with rep := 0, dir := 0 } = t := by simp only [t, hrep, hdir]
  rw [exec_pktDirect_atHeader hat]
  exact runOpened_of_emitRun hrun (fun hleft => ⟨rfl, hused hleft⟩) hclosed

end Sys2Proof.Machine
end

section
/-! PROOFS. The 16-bit codec (spec 40_le16): its two functions, and what its two commands take, give and raise.

A field is its two bytes side by side, the first in the stream the low one, so the laws of R102 are those of appending and
extracting. Each command is one InRead or one OutWrite once its operands pass. -/

namespace Sys2Proof

/-- The word of a command with RSV clear, as its fields shifted into place (R71). -/
theorem packFields_eq_or (op : BitVec 4) (pb : BitVec 3) (n : BitVec 24) :
    packFields op pb false n = n.setWidth 32 <<< 8 ||| pb.setWidth 32 <<< 4 ||| op.setWidth 32 := by
  have hfields := BitVec.setWidth_append_append_append_eq_shiftLeft_setWidth_or (b := n) (b' := BitVec.ofBool false)
    (b'' := pb) (b''' := op) (w'''' := 32)
  rw [BitVec.setWidth_eq] at hfields
  rw [packFields]
  simpa using hfields

end Sys2Proof

namespace Sys2Proof.Machine

/-! ## The two functions -/

/-- The value of a field: its second byte above its first (R100). -/
theorem le16Unpack_eq_append (b0 b1 : Byte) : le16Unpack b0 b1 = b1 ++ b0 := by
  rw [le16Unpack, BitVec.or_comm, ← BitVec.setWidth_append_eq_shiftLeft_setWidth_or, BitVec.setWidth_eq]

theorem toNat_le16Unpack (b0 b1 : Byte) : (le16Unpack b0 b1).toNat = b0.toNat + 256 * b1.toNat := by
  have hdisjoint := Nat.shiftLeft_add_eq_or_of_lt b0.isLt b1.toNat
  rw [le16Unpack_eq_append, BitVec.toNat_append, ← hdisjoint, Nat.shiftLeft_eq]
  omega

theorem le16Unpack_eq_ofNat (b0 b1 : Byte) : le16Unpack b0 b1 = BitVec.ofNat 16 (b0.toNat + 256 * b1.toNat) := by
  rw [← toNat_le16Unpack, BitVec.ofNat_toNat, BitVec.setWidth_eq]

theorem le16Pack_eq_ofNat (v : BitVec 16) :
    le16Pack v = [BitVec.ofNat 8 (v.toNat % 256), BitVec.ofNat 8 (v.toNat / 256)] := by
  have hlow : v.extractLsb' 0 8 = BitVec.ofNat 8 (v.toNat % 256) := by
    apply BitVec.eq_of_toNat_eq
    simp
  have hhigh : v.extractLsb' 8 8 = BitVec.ofNat 8 (v.toNat / 256) := by
    apply BitVec.eq_of_toNat_eq
    simp [Nat.shiftRight_eq_div_pow]
  rw [le16Pack, hlow, hhigh]

theorem le16Unpack_of_le16Pack {v : BitVec 16} {b0 b1 : Byte} (h : le16Pack v = [b0, b1]) : le16Unpack b0 b1 = v := by
  cases h
  rw [le16Unpack_eq_append]
  exact BitVec.extractLsb'_append_extractLsb'

theorem le16Pack_le16Unpack (b0 b1 : Byte) : le16Pack (le16Unpack b0 b1) = [b0, b1] := by
  rw [le16Unpack_eq_append, le16Pack, BitVec.extractLsb'_append_eq_right, BitVec.extractLsb'_append_eq_left]

/-- Settles O30: the values of the two functions, and the two laws by appending and extracting. -/
theorem le16CodecFunctions : Obligations.Le16CodecFunctions := by
  unfold Obligations.Le16CodecFunctions
  exact ⟨toNat_le16Unpack, le16Pack_eq_ofNat, fun _ _ _ => le16Unpack_of_le16Pack, le16Pack_le16Unpack⟩

/-! ## The operand checks -/

/-- An instruction whose PB and N are both checked for Generic faults with it if either fails (R77, R87). -/
theorem operandFault_eq_generic {i : Instr} {p q : Prop} [Decidable p] [Decidable q]
    (hpb : pbFault i = if p then some .generic else none) (hn : nFault i = if q then some .generic else none)
    (h : p ∨ q) (s : State) : operandFault i s = some .generic := by
  rw [operandFault, hpb, hn]
  by_cases hp : p
  · rw [if_pos hp, Option.some_or]
  · rw [if_neg hp, Option.none_or, if_pos (h.resolve_left hp), Option.some_or]

theorem exec_le16Unpack_illegal {pb : BitVec 3} {n : BitVec 24} (h : pb ≠ 0 ∨ n ≠ 0) (s : State) :
    exec (.le16Unpack pb n) s = .next (s.raiseFault .generic) := by
  rw [exec, execLe16Unpack]
  exact checked_of_fault _ (operandFault_eq_generic rfl rfl h s)

theorem exec_le16Pack_illegal {pb : BitVec 3} {n : BitVec 24} (h : pb ≠ 0 ∨ 65536 ≤ n.toNat) (s : State) :
    exec (.le16Pack pb n) s = .next (s.raiseFault .generic) := by
  have hhigh : n.extractLsb' 16 8 ≠ 0 ↔ 65536 ≤ n.toNat := (not_congr (high_byte_zero n)).trans Nat.not_lt
  rw [exec, execLe16Pack]
  exact checked_of_fault _ (operandFault_eq_generic rfl rfl (h.imp_right hhigh.mpr) s)

/-! ## LE16_UNPACK -/

theorem le16Unpack_wf_iff (pb : BitVec 3) (n : BitVec 24) : (Instr.le16Unpack pb n).wf = true ↔ pb = 0 ∧ n = 0 := by
  simp [Instr.wf, Instr.pbLegal, Instr.nLegal]

/-- With its legal operands the command is one InRead of two bytes, which it stores (R103). -/
theorem exec_le16Unpack (s : State) :
    exec (.le16Unpack 0 0) s = (inRead 2 s fun bs t => .go (storeResult bs t)).settle State.finish := by
  rw [exec, execLe16Unpack]
  exact checked_of_wf _ rfl nofun

/-- Two bytes on IN: their value is the RESULT (R103). -/
theorem exec_le16Unpack_enough {s : State} (hs : s.Fresh) {b0 b1 : Byte} {rest : List Byte}
    (hin : s.inp.bytes = b0 :: b1 :: rest) :
    exec (.le16Unpack 0 0) s = .next { s with
      inp := { s.inp with bytes := rest }
      incnt := 2
      result := le16Unpack b0 b1 }.finish := by
  have henough : 2 ≤ s.inp.bytes.length := by simp [hin]
  rw [exec_le16Unpack, inRead_enough hs.part henough]
  simp [hin, storeResult, hs.part, hs.incnt]

/-- EOS behind fewer than two bytes: those there are gone (R103). -/
theorem exec_le16Unpack_short {s : State} (hs : s.Fresh) (heos : s.inp.eos = true) (hshort : s.inp.bytes.length < 2) :
    exec (.le16Unpack 0 0) s = .next ({ s with
      inp := { s.inp with bytes := [] }
      incnt := BitVec.ofNat 32 s.inp.bytes.length
      part := s.inp.bytes }.raiseFault .readFailure) := by
  rw [exec_le16Unpack, inRead_short hs.part hshort]
  simp [heos, hs.incnt]

/-- Settles O31: with legal operands the command is one InRead of two bytes, from a state with none taken and INCNT 0. -/
theorem le16UnpackResult : Obligations.Le16UnpackResult := by
  unfold Obligations.Le16UnpackResult
  refine ⟨?word, ?enough, ?empty, ?one, fun s _ _ h => exec_le16Unpack_illegal h s⟩
  case word =>
    intro pb n hwf
    obtain ⟨rfl, rfl⟩ := (le16Unpack_wf_iff pb n).mp hwf
    rfl
  case enough =>
    intro s b0 b1 rest hs hin
    rw [exec_le16Unpack_enough hs hin, le16Unpack_eq_ofNat]
  case empty =>
    intro s hs heos hin
    have hinp : { s.inp with bytes := [] } = s.inp := by rw [← hin]
    have hsame : { s with inp := { s.inp with bytes := [] }, incnt := 0, part := [] } = s := by
      rw [hinp, ← hs.incnt, ← hs.part]
    rw [exec_le16Unpack_short hs heos (by simp [hin]), hin]
    exact congrArg (Host.Outcome.next ∘ State.raiseFault .readFailure) hsame
  case one =>
    intro s b hs heos hin
    refine ⟨s.inp.bytes, ?_⟩
    rw [exec_le16Unpack_short hs heos (by simp [hin]), hin]
    rfl

/-! ## LE16_PACK -/

/-- A 16-bit value is a legal N and is what its low 16 bits hold, so the command is one OutWrite of the field (R104). -/
theorem exec_le16Pack {s : State} (hs : s.Fresh) (v : BitVec 16) :
    exec (.le16Pack 0 (v.setWidth 24)) s = (outWrite (le16Pack v) s).settle State.finish := by
  have hv : v.toNat < 65536 := v.isLt
  have hwf : (Instr.le16Pack 0 (v.setWidth 24)).wf = true := by
    simpa [Instr.wf, Instr.pbLegal, Instr.nLegal] using Nat.mod_lt_of_lt hv
  have hlow : (v.setWidth 24).extractLsb' 0 16 = v := by
    apply BitVec.eq_of_toNat_eq
    simpa using hv
  rw [exec, execLe16Pack, checked_of_wf _ hwf nofun, if_pos hs.pend, hlow]

/-- The word of a legal LE16_PACK (R104). -/
theorem encode_le16Pack (v : BitVec 16) :
    encode (.le16Pack 0 (v.setWidth 24)) = .cmd32 (0x00000002 ||| v.setWidth 32 <<< 8) := by
  rw [encode, packFields_eq_or, BitVec.or_comm]
  simp

/-- OUT accepts both bytes of the field (R104). -/
theorem exec_le16Pack_accepted {s : State} (hs : s.Fresh) (v : BitVec 16) (hout : s.out.accepts 2) :
    exec (.le16Pack 0 (v.setWidth 24)) s = .next { s with
      out := s.out.afterSending (le16Pack v)
      outcnt := 2 }.finish := by
  rw [exec_le16Pack hs, outWrite_accepts (bs := le16Pack v) hout]
  simp [le16Pack, hs.outcnt, hs.pend]

/-- OUT refuses a byte of the field: those before it stay written (R104). -/
theorem exec_le16Pack_refused {s : State} (hs : s.Fresh) (v : BitVec 16) {c : Nat} (hout : s.out.refusesAfter c 2) :
    exec (.le16Pack 0 (v.setWidth 24)) s = .next ({ s with
      out := { sent := s.out.sent ++ (le16Pack v).take c, cap := some 0, answers := s.out.answers.map (· - (c + 1)) }
      outcnt := BitVec.ofNat 32 c }.raiseFault .writeFailure) := by
  rw [exec_le16Pack hs, outWrite_refused (bs := le16Pack v) hout]
  simp [hs.outcnt, hs.pend]

/-- Settles O32: with legal operands the command is one OutWrite of two bytes, from a state with none pending and OUTCNT 0. -/
theorem le16PackResult : Obligations.Le16PackResult := by
  unfold Obligations.Le16PackResult
  refine ⟨encode_le16Pack, fun s v hs hout => exec_le16Pack_accepted hs v hout, fun s v c hs hout => ?refused,
    fun s _ _ h => exec_le16Pack_illegal h s⟩
  case refused => exact ⟨_, rfl, exec_le16Pack_refused hs v hout⟩

end Sys2Proof.Machine
end

section
/-! PROOFS. The line buffer under one MemWrite and one MemRead (spec 00_scope R10): what lies outside a write, inside it and
below it, and the two parts of a range that reads. -/

namespace Sys2Proof.Machine

theorem sameLbOutside_of_lbWrite {s t : State} {a n : Nat} {bs : List Byte} (h : t.lb = lbWrite s.lb a bs)
    (hlen : bs.length = n) : sameLbOutside a n s t := by
  intro k hk
  rw [h, lbGet_lbWrite, if_neg (by omega)]

theorem lbGet_lbWrite_inside {a k : Nat} {bs : List Byte} (hlow : a ≤ k) (hhigh : k < a + bs.length) (m : Memory) :
    ∃ b ∈ bs, lbGet (lbWrite m a bs) k = some b := by
  have hk : k - a < bs.length := by omega
  exact ⟨bs[k - a], List.getElem_mem hk, by rw [lbGet_lbWrite, if_pos ⟨hlow, hhigh⟩, List.getElem?_eq_getElem hk]⟩

theorem lbRead_lbWrite_below {a n b : Nat} (h : a + n ≤ b) (m : Memory) (cs : List Byte) :
    lbRead (lbWrite m b cs) a n = lbRead m a n := by
  refine lbRead_congr fun k _ hk => ?_
  rw [lbGet_lbWrite, if_neg (by omega)]

theorem length_of_lbRead {m : Memory} {a n : Nat} {bs : List Byte} (h : lbRead m a n = .ok bs) : bs.length = n :=
  ((lbRead_eq_ok_iff m a n bs).mp h).1

theorem isSome_lbGet_of_lbRead {m : Memory} {a n k : Nat} {bs : List Byte} (h : lbRead m a n = .ok bs) (hlow : a ≤ k)
    (hhigh : k < a + n) : (lbGet m k).isSome = true := by
  obtain ⟨hlen, hbyte⟩ := (lbRead_eq_ok_iff m a n bs).mp h
  have hk : k - a < bs.length := by omega
  have hget := hbyte (k - a) (by omega)
  rw [Nat.add_sub_cancel' hlow, List.getElem?_eq_getElem hk] at hget
  rw [hget, Option.isSome_some]

/-- A MemRead of two adjacent ranges is a MemRead of each. -/
theorem lbRead_split {m : Memory} {a i j : Nat} {bs : List Byte} (h : lbRead m a (i + j) = .ok bs) :
    lbRead m a i = .ok (bs.take i) ∧ lbRead m (a + i) j = .ok (bs.drop i) := by
  have hrest : (bs.drop i).length = j := by rw [List.length_drop, length_of_lbRead h, Nat.add_sub_cancel_left]
  have hfirst := lbRead_sub h (i := 0) (j := i) (by omega)
  have hsecond := lbRead_sub h (i := i) (j := j) (by omega)
  rw [List.take_of_length_le (Nat.le_of_eq hrest)] at hsecond
  exact ⟨hfirst, hsecond⟩

/-- Writing back what a MemRead returned changes nothing. -/
theorem lbWrite_of_lbRead {m : Memory} (hm : m.wf) {a n : Nat} {bs : List Byte} (h : lbRead m a n = .ok bs) :
    lbWrite m a bs = m := by
  obtain ⟨rfl, hbyte⟩ := (lbRead_eq_ok_iff m a n bs).mp h
  refine Memory.ext_of_wf (wf_lbWrite hm a bs) hm fun k => ?_
  rw [lbGet_lbWrite]
  split
  · rename_i hk
    rw [← hbyte (k - a) (by omega), Nat.add_sub_cancel' hk.1]
  · rfl

end Sys2Proof.Machine
end

section
/-! PROOFS. The in-place transformations of the scanline transcoder (spec 41_transcoder R123 to R128): SWAP and EXPAND.

Both functions work group by group, so dropping whole groups commutes with them, and what they do to group g is what they do
to the first group of the rest. Each command is one MemRead and one MemWrite once its operands pass. -/

namespace Sys2Proof.Machine

/-! ## swap -/

theorem swapBytes_three (buf : List Byte) : swapBytes 3 buf = swapBytes3 buf := rfl

theorem swapBytes_four (buf : List Byte) : swapBytes 4 buf = swapBytes4 buf := rfl

theorem swapBytes3_drop : ∀ buf : List Byte, (swapBytes3 buf).drop 3 = swapBytes3 (buf.drop 3)
  | [] => rfl
  | [_] => rfl
  | [_, _] => rfl
  | _ :: _ :: _ :: _ => rfl

theorem swapBytes4_drop : ∀ buf : List Byte, (swapBytes4 buf).drop 4 = swapBytes4 (buf.drop 4)
  | [] => rfl
  | [_] => rfl
  | [_, _] => rfl
  | [_, _, _] => rfl
  | _ :: _ :: _ :: _ :: _ => rfl

/-- A function that commutes with dropping one group commutes with dropping any number of groups. -/
theorem drop_groups {f : List Byte → List Byte} {i j : Nat} (h : ∀ buf, (f buf).drop i = f (buf.drop j)) (g : Nat)
    (buf : List Byte) : (f buf).drop (g * i) = f (buf.drop (g * j)) := by
  induction g with
  | zero => simp
  | succ g ih => rw [Nat.succ_mul, Nat.succ_mul, ← List.drop_drop, ih, h, List.drop_drop]

/-- Settles O37: group g is the first one of the bytes from it on, which `swap` rewrites by its first equation. -/
theorem swapExchangesBytes0And2 : Obligations.SwapExchangesBytes0And2 := by
  unfold Obligations.SwapExchangesBytes0And2
  intro stride g buf hstride hwhole hg
  refine ⟨swapBytes_length stride buf, ?_⟩
  have hrest : stride ≤ (buf.drop (g * stride)).length := by
    have hgroups := Nat.dvd_sub (Nat.dvd_of_mod_eq_zero hwhole) (Nat.dvd_mul_left stride g)
    rw [List.length_drop]
    exact Nat.le_of_dvd (Nat.sub_pos_of_lt hg) hgroups
  simp only [← List.getElem?_drop]
  rcases hstride with rfl | rfl
  · rw [swapBytes_three, drop_groups swapBytes3_drop]
    match buf.drop (g * 3), hrest with
    | b0 :: b1 :: b2 :: rest, _ => simp [swapBytes3]
  · rw [swapBytes_four, drop_groups swapBytes4_drop]
    match buf.drop (g * 4), hrest with
    | b0 :: b1 :: b2 :: b3 :: rest, _ => simp [swapBytes4]

theorem swapBytes3_swapBytes3 : ∀ buf : List Byte, swapBytes3 (swapBytes3 buf) = buf
  | [] => rfl
  | [_] => rfl
  | [_, _] => rfl
  | b0 :: b1 :: b2 :: rest => by rw [swapBytes3, swapBytes3, swapBytes3_swapBytes3 rest]

theorem swapBytes4_swapBytes4 : ∀ buf : List Byte, swapBytes4 (swapBytes4 buf) = buf
  | [] => rfl
  | [_] => rfl
  | [_, _] => rfl
  | [_, _, _] => rfl
  | b0 :: b1 :: b2 :: b3 :: rest => by rw [swapBytes4, swapBytes4, swapBytes4_swapBytes4 rest]

/-- `swap` undoes itself, whatever the length: bytes that fill no group stay as they are (R125). -/
theorem swapBytes_swapBytes (stride : Nat) (buf : List Byte) : swapBytes stride (swapBytes stride buf) = buf := by
  unfold swapBytes
  split
  · exact swapBytes4_swapBytes4 buf
  · exact swapBytes3_swapBytes3 buf

/-! ## SWAP -/

/-- Settles O38: the operands pass and the region is read, so the body runs through. -/
theorem swapSwapsRegion : Obligations.SwapSwapsRegion := by
  unfold Obligations.SwapSwapsRegion
  intro s pb n old hwf hfit hread
  rw [exec, execSwap, checked_of_wf _ hwf fun _ hlen => Option.some.inj hlen ▸ hfit]
  simp only [State.memRead, State.lineBase, hread]
  rfl

theorem lb_of_exec_swap_fault {pb : BitVec 3} {n : BitVec 24} {s t : State} {k : ErrorKind}
    (hcheck : operandFault (.swap pb n) s = some k) (h : exec (.swap pb n) s = .next t) : t.lb = s.lb := by
  rw [exec, execSwap, checked_of_fault _ hcheck] at h
  cases h
  rfl

theorem lb_of_exec_swap_pass {pb : BitVec 3} {n : BitVec 24} {s t : State}
    (hcheck : operandFault (.swap pb n) s = none) (h : exec (.swap pb n) s = .next t) :
    ∃ old, lbRead s.lb s.lineBase n.toNat = .ok old ∧ t.lb = lbWrite s.lb s.lineBase (swapBytes pb.toNat old) := by
  obtain ⟨hwf, hrange⟩ := (operandFault_none _ s).mp hcheck
  rw [exec, execSwap, checked_of_wf _ hwf hrange, State.memRead] at h
  cases hread : lbRead s.lb s.lineBase n.toNat with
  | error a =>
    rw [hread] at h
    cases h
  | ok old =>
    rw [hread] at h
    cases h
    exact ⟨old, rfl, rfl⟩

/-- The operand checks depend on the operands, the latched BASE and LB_SIZE only (R58, R77). -/
theorem operandFault_congr {s u : State} (hbase : u.lat.base = s.lat.base) (hcfg : u.cfg = s.cfg) (i : Instr) :
    operandFault i u = operandFault i s := by
  have hline : u.lineBase = s.lineBase := congrArg BitVec.toNat hbase
  rw [operandFault, operandFault, rangeFault, rangeFault, hline, hcfg]

/-- Settles O39: both commands meet the same checks; if they pass, the second reads what the first wrote, and so writes back
what the first read. -/
theorem swapIsSelfInverse : Obligations.SwapIsSelfInverse := by
  unfold Obligations.SwapIsSelfInverse
  refine ⟨fun stride buf _ _ => swapBytes_swapBytes stride buf, ?commands⟩
  case commands =>
    intro pb n s t u v hm hfirst hlb hbase hcfg hsecond
    have hagain := operandFault_congr hbase hcfg (.swap pb n)
    have hline : u.lineBase = s.lineBase := congrArg BitVec.toNat hbase
    cases hcheck : operandFault (.swap pb n) s with
    | some k => rw [lb_of_exec_swap_fault (hagain.trans hcheck) hsecond, hlb, lb_of_exec_swap_fault hcheck hfirst]
    | none =>
      obtain ⟨old, hread, ht⟩ := lb_of_exec_swap_pass hcheck hfirst
      obtain ⟨new, hreread, hv⟩ := lb_of_exec_swap_pass (hagain.trans hcheck) hsecond
      have hlen : (swapBytes pb.toNat old).length = n.toNat := by rw [swapBytes_length, length_of_lbRead hread]
      have hnew : swapBytes pb.toNat old = new := by
        rw [hlb, ht, hline, ← hlen, lbRead_lbWrite_same] at hreread
        exact Except.ok.inj hreread
      calc v.lb
        _ = lbWrite (lbWrite s.lb s.lineBase (swapBytes pb.toNat old)) s.lineBase old := by
          rw [hv, hlb, ht, hline, ← hnew, swapBytes_swapBytes]
        _ = lbWrite s.lb s.lineBase old := lbWrite_lbWrite_same hm _ _ _ (swapBytes_length _ _)
        _ = s.lb := lbWrite_of_lbRead hm hread

/-! ## expand -/

theorem expandBytes_drop : ∀ buf : List Byte, (expandBytes buf).drop 3 = expandBytes (buf.drop 2)
  | [] => rfl
  | [_] => rfl
  | _ :: _ :: _ => rfl

/-- The 5-bit field from bit `i` of a word, as a byte. -/
theorem setWidth_field (w : BitVec 16) (i : Nat) :
    (w.extractLsb' i 5).setWidth 8 = BitVec.ofNat 8 (w.toNat / 2 ^ i % 32) := by
  apply BitVec.eq_of_toNat_eq
  simp [Nat.shiftRight_eq_div_pow]

theorem expandEntry_eq_ofNat (w : BitVec 16) :
    expandEntry w =
      [BitVec.ofNat 8 (w.toNat % 32), BitVec.ofNat 8 (w.toNat / 32 % 32), BitVec.ofNat 8 (w.toNat / 1024 % 32)] := by
  simp [expandEntry, setWidth_field]

theorem expandEntry_le (w : BitVec 16) : ∀ b ∈ expandEntry w, b.toNat ≤ 31 := by
  have hfield (v : Nat) : (BitVec.ofNat 8 (v % 32)).toNat ≤ 31 := by
    rw [BitVec.toNat_ofNat]
    omega
  rw [expandEntry_eq_ofNat]
  simp only [List.forall_mem_cons, hfield, List.not_mem_nil, false_implies, implies_true, and_self]

theorem expandBytes_le : ∀ buf : List Byte, ∀ b ∈ expandBytes buf, b.toNat ≤ 31
  | [], _, h => nomatch h
  | [_], _, h => nomatch h
  | _ :: _ :: rest, b, h => (List.mem_append.mp h).elim (expandEntry_le _ b) (expandBytes_le rest b)

/-- Settles O41: entry k is the first one of the bytes from it on. -/
theorem expandValues : Obligations.ExpandValues := by
  unfold Obligations.ExpandValues
  intro buf k b0 b1 h0 h1
  obtain ⟨hlt0, he0⟩ := List.getElem?_eq_some_iff.mp h0
  obtain ⟨hlt1, he1⟩ := List.getElem?_eq_some_iff.mp h1
  have hinput : buf.drop (2 * k) = b0 :: b1 :: buf.drop (2 * k + 2) := by
    rw [List.drop_eq_getElem_cons hlt0, List.drop_eq_getElem_cons hlt1, he0, he1]
  have houtput : (expandBytes buf).drop (3 * k) =
      expandEntry (le16Unpack b0 b1) ++ expandBytes (buf.drop (2 * k + 2)) := by
    rw [Nat.mul_comm, drop_groups expandBytes_drop, Nat.mul_comm, hinput, expandBytes]
  rw [expandEntry_eq_ofNat, toNat_le16Unpack] at houtput
  have hbyte (j : Nat) : (expandBytes buf)[3 * k + j]? = ((expandBytes buf).drop (3 * k))[j]? := List.getElem?_drop.symm
  rw [houtput] at hbyte
  exact ⟨hbyte 0, hbyte 1, hbyte 2⟩

/-! ## EXPAND -/

theorem expand_wf {n : BitVec 24} (h : n.toNat % 2 = 0) : (Instr.expand 2 n).wf = true := by
  simp [Instr.wf, Instr.pbLegal, Instr.nLegal, h]

/-- Settles O42: the operands pass and the input is read, so the body runs through. -/
theorem expandExpandsRegion : Obligations.ExpandExpandsRegion := by
  unfold Obligations.ExpandExpandsRegion
  intro s n old heven hfit hread
  rw [exec, execExpand, checked_of_wf _ (expand_wf heven) fun _ hlen => Option.some.inj hlen ▸ hfit]
  simp only [State.memRead, State.lineBase, hread]
  rfl

/-- Settles O40: the bytes EXPAND writes are those of the expansion of its input. -/
theorem expandSizeLaw : Obligations.ExpandSizeLaw := by
  unfold Obligations.ExpandSizeLaw
  have hlength (buf : List Byte) (heven : buf.length % 2 = 0) : (expandBytes buf).length = 3 * buf.length / 2 := by
    rw [expandBytes_length]
    omega
  refine ⟨fun buf heven => ⟨hlength buf heven, expandBytes_le buf⟩, ?command⟩
  case command =>
    intro s n old heven hfit hread
    have hlen : (expandBytes old).length = 3 * n.toNat / 2 := by
      rw [← length_of_lbRead hread] at heven ⊢
      exact hlength old heven
    refine ⟨_, expandExpandsRegion s n old heven hfit hread, ?outside, fun k hlow hhigh => ?inside⟩
    case outside => exact sameLbOutside_of_lbWrite rfl hlen
    case inside =>
      rw [← hlen] at hhigh
      obtain ⟨b, hb, hget⟩ := lbGet_lbWrite_inside hlow hhigh s.lb
      exact ⟨b, hget, expandBytes_le old b hb⟩

end Sys2Proof.Machine
end

section
/-! PROOFS. The pixel-row copies of the scanline transcoder (spec 41_transcoder R120 to R122): RAW_RD and RAW_WR, where the
ports give or take every byte and where they stop early.

Each loop is followed pixel by pixel from any pixel boundary: x pixels are done, and PIXCNT shows x. A line that stops early
stops in the first pixel that is not whole, so the whole pixels are the quotient of the bytes moved by P. -/

namespace Sys2Proof.Machine

/-! ## The operands -/

theorem one_le_of_rawRd_wf {pb : BitVec 3} {n : BitVec 24} (h : (Instr.rawRd pb n).wf = true) : 1 ≤ pb.toNat := by
  simp only [Instr.wf, Instr.pbLegal, Bool.and_eq_true, decide_eq_true_eq] at h
  exact h.1.1

theorem exec_rawRd {s : State} {pb : BitVec 3} {n : BitVec 24} (hs : s.Fresh) (hwf : (Instr.rawRd pb n).wf = true)
    (hfit : s.lat.base.toNat + n.toNat * pb.toNat ≤ s.cfg.lbSize) :
    exec (.rawRd pb n) s =
      ((rawRdLoop pb.toNat n.toNat s).onRaise (State.spoilLine pb.toNat n.toNat)).settle State.finish := by
  rw [exec, execRawRd, checked_of_wf _ hwf fun _ hlen => Option.some.inj hlen ▸ hfit, hs.x, Nat.sub_zero]

theorem one_le_of_rawWr_wf {pb : BitVec 3} {n : BitVec 24} (h : (Instr.rawWr pb n).wf = true) : 1 ≤ pb.toNat :=
  one_le_of_rawRd_wf (n := n) h

theorem exec_rawWr {s : State} {pb : BitVec 3} {n : BitVec 24} (hs : s.Fresh) (hwf : (Instr.rawWr pb n).wf = true)
    (hfit : s.lat.base.toNat + n.toNat * pb.toNat ≤ s.cfg.lbSize) :
    exec (.rawWr pb n) s = (rawWrLoop pb.toNat n.toNat s).settle State.finish := by
  rw [exec, execRawWr, checked_of_wf _ hwf fun _ hlen => Option.some.inj hlen ▸ hfit, hs.x, Nat.sub_zero]

/-- PIXCNT of a command that has just been issued shows its x (R28, R34). -/
theorem State.Fresh.pixcnt_eq_x {s : State} (hs : s.Fresh) : s.pixcnt = BitVec.ofNat 32 s.x := by
  rw [hs.pixcnt, hs.x]
  rfl

/-- A command that has just been issued starts its line at the latched BASE (R12, R34). -/
theorem State.Fresh.lineStart {s : State} (hs : s.Fresh) (p : Nat) : s.lineBase + s.x * p = s.lat.base.toNat := by
  rw [hs.x, Nat.zero_mul]
  rfl

theorem nextPixel_address (a x p : Nat) : a + (x + 1) * p = a + x * p + p := by rw [Nat.succ_mul, Nat.add_assoc]

/-! ## RAW_RD with its bytes on IN -/

/-- RAW_RD's loop from a pixel boundary, when IN has the bytes of its `k` pixels, be it none (R121). -/
theorem rawRdLoop_copies {p k : Nat} {s : State} (hpart : s.part = []) (hpix : s.pixcnt = BitVec.ofNat 32 s.x)
    (hm : s.lb.wf) (hin : k * p ≤ s.inp.bytes.length) :
    rawRdLoop p k s = .go { s with
      inp := { s.inp with bytes := s.inp.bytes.drop (k * p) }
      incnt := s.incnt + BitVec.ofNat 32 (k * p)
      x := s.x + k
      pixcnt := BitVec.ofNat 32 (s.x + k)
      lb := lbWrite s.lb (s.lineBase + s.x * p) (s.inp.bytes.take (k * p)) } := by
  cases k with
  | zero => simp [rawRdLoop, lbWrite_nil hm, ← hpix]
  | succ k => exact rawRdLoop_enough hpart hm hin

/-- Settles O33: the command is its loop from pixel 0. -/
theorem rawRdCopies : Obligations.RawRdCopies := by
  unfold Obligations.RawRdCopies
  intro s pb n hs hm hwf hfit hin
  rw [exec_rawRd hs hwf hfit, rawRdLoop_copies hs.part hs.pixcnt_eq_x hm hin]
  simp [hs.x, hs.incnt, State.lineBase]

/-! ## RAW_RD at an early EOS -/

/-- RAW_RD has met EOS within its line: between `s`, at a pixel boundary, and `t` it has taken every byte of IN, and stored
and counted the whole pixels among them (R121). -/
structure State.CutAtEos (p : Nat) (s t : State) : Prop where
  status  : t.status = s.status
  lat     : t.lat = s.lat
  taken   : t.inp.bytes = []
  counted : t.incnt = s.incnt + BitVec.ofNat 32 s.inp.bytes.length
  moved   : t.x = s.x + s.inp.bytes.length / p
  shown   : t.pixcnt = BitVec.ofNat 32 t.x
  stored  : lbRead t.lb (s.lineBase + s.x * p) (s.inp.bytes.length / p * p) =
    .ok (s.inp.bytes.take (s.inp.bytes.length / p * p))
  kept    : sameLbOutside (s.lineBase + s.x * p) (s.inp.bytes.length / p * p) s t

/-- The state after RAW_RD has taken its next pixel from IN and stored it (R121). -/
def State.copyPixel (p : Nat) (s : State) : State :=
  { s with
    inp := { s.inp with bytes := s.inp.bytes.drop p }
    incnt := s.incnt + BitVec.ofNat 32 p
    part := [] }.storePixel p (s.inp.bytes.take p)

theorem State.copyPixel_lb (p : Nat) (s : State) :
    (s.copyPixel p).lb = lbWrite s.lb (s.lineBase + s.x * p) (s.inp.bytes.take p) := rfl

theorem State.copyPixel_bytes (p : Nat) (s : State) : (s.copyPixel p).inp.bytes = s.inp.bytes.drop p := rfl

theorem State.copyPixel_incnt (p : Nat) (s : State) : (s.copyPixel p).incnt = s.incnt + BitVec.ofNat 32 p := rfl

theorem State.copyPixel_x (p : Nat) (s : State) : (s.copyPixel p).x = s.x + 1 := rfl

theorem State.copyPixel_address (p : Nat) (s : State) :
    (s.copyPixel p).lineBase + (s.copyPixel p).x * p = s.lineBase + s.x * p + p := nextPixel_address _ _ _

/-- A line cut after its next pixel is cut: that pixel is one whole pixel more. -/
theorem State.CutAtEos.of_copyPixel {p : Nat} {s t : State} (hp : 0 < p) (hle : p ≤ s.inp.bytes.length)
    (h : (s.copyPixel p).CutAtEos p t) : s.CutAtEos p t := by
  obtain ⟨hstatus, hlat, htaken, hcounted, hmoved, hshown, hstored, hkept⟩ := h
  have hlen : (s.inp.bytes.take p).length = p := List.length_take_of_le hle
  have hwhole : s.inp.bytes.length / p = (s.inp.bytes.length - p) / p + 1 := Nat.div_eq_sub_div hp hle
  have hbytes : s.inp.bytes.length / p * p = p + (s.inp.bytes.length - p) / p * p := by
    rw [hwhole, Nat.succ_mul, Nat.add_comm]
  rw [State.copyPixel_address, State.copyPixel_bytes, List.length_drop] at hstored hkept
  rw [State.copyPixel_bytes, List.length_drop] at hcounted hmoved
  have hfirst : sameLbOutside (s.lineBase + s.x * p) p s (s.copyPixel p) := sameLbOutside_of_lbWrite (s.copyPixel_lb p) hlen
  refine ⟨hstatus, hlat, htaken, ?counted, ?moved, hshown, ?stored, ?kept⟩
  case counted => rw [hcounted, State.copyPixel_incnt, counter_add, Nat.add_sub_cancel' hle]
  case moved => rw [hmoved, State.copyPixel_x, hwhole, Nat.add_assoc, Nat.add_comm 1]
  case stored =>
    have hwritten := lbRead_lbWrite_same s.lb (s.lineBase + s.x * p) (s.inp.bytes.take p)
    rw [hlen, ← State.copyPixel_lb] at hwritten
    have hpixel : lbRead t.lb (s.lineBase + s.x * p) p = .ok (s.inp.bytes.take p) :=
      (lbRead_congr fun k _ hk => hkept k (.inl hk)).trans hwritten
    rw [hbytes, List.take_add]
    exact lbRead_append hpixel hstored
  case kept =>
    intro k hk
    rw [hkept k (by omega), hfirst k (by omega)]

/-- EOS before the line's bytes: the loop raises ReadFailure in the first pixel that is not whole (R121). -/
theorem rawRdLoop_short {p k : Nat} {s : State} (hp : 0 < p) (hpart : s.part = []) (hpix : s.pixcnt = BitVec.ofNat 32 s.x)
    (heos : s.inp.eos = true) (hshort : s.inp.bytes.length < k * p) :
    ∃ t, rawRdLoop p k s = .raise .readFailure t ∧ s.CutAtEos p t := by
  induction k generalizing s with
  | zero => omega
  | succ k ih =>
    by_cases hle : p ≤ s.inp.bytes.length
    · have hrest : (s.copyPixel p).inp.bytes.length < k * p := by
        rw [State.copyPixel_bytes, List.length_drop]
        rw [Nat.succ_mul] at hshort
        omega
      obtain ⟨t, hloop, hcut⟩ := ih (s := s.copyPixel p) rfl rfl heos hrest
      refine ⟨t, ?_, hcut.of_copyPixel hp hle⟩
      rw [rawRdLoop, inRead_enough hpart hle]
      exact hloop
    · have hnone : s.inp.bytes.length / p = 0 := Nat.div_eq_of_lt (by omega)
      rw [rawRdLoop, inRead_short hpart (by omega)]
      simp only [heos, if_true]
      refine ⟨_, rfl, rfl, rfl, rfl, rfl, ?moved, hpix, ?stored, fun _ _ => rfl⟩
      case moved => rw [hnone, Nat.add_zero]
      case stored => rw [hnone, Nat.zero_mul, List.take_zero, lbRead]

theorem drawBytes_length (from_ k : Nat) : (drawBytes from_ k).length = k := by simp [drawBytes]

/-- A line cut at EOS, its rest spoilt: the whole pixels stay stored, every byte of the line's range is written, and no byte
outside it has changed (R121, D23). -/
theorem State.CutAtEos.spoilLine {p w : Nat} {s t : State} (h : s.CutAtEos p t) (hx : s.x = 0)
    (hshort : s.inp.bytes.length < w * p) :
    lbRead (t.spoilLine p w).lb s.lineBase (s.inp.bytes.length / p * p) =
      .ok (s.inp.bytes.take (s.inp.bytes.length / p * p)) ∧
    (∀ k, s.lineBase ≤ k → k < s.lineBase + w * p → (lbGet (t.spoilLine p w).lb k).isSome = true) ∧
    sameLbOutside s.lineBase (w * p) s (t.spoilLine p w) := by
  obtain ⟨-, hlat, -, -, hmoved, -, hstored, hkept⟩ := h
  have hle : s.inp.bytes.length / p ≤ w := Nat.le_of_lt (Nat.div_lt_of_lt_mul (Nat.mul_comm w p ▸ hshort))
  rw [hx, Nat.zero_add] at hmoved
  rw [hx, Nat.zero_mul, Nat.add_zero] at hstored hkept
  generalize s.inp.bytes.length / p = q at hle hmoved hstored hkept ⊢
  have hspoilt : (t.spoilLine p w).lb = lbWrite t.lb (s.lineBase + q * p) (drawBytes t.draws ((w - q) * p)) := by
    rw [State.spoilLine_lb, hmoved, State.lineBase, hlat, State.lineBase]
  have hfill : q * p + (drawBytes t.draws ((w - q) * p)).length = w * p := by
    rw [drawBytes_length, ← Nat.add_mul, Nat.add_sub_cancel' hle]
  have hwhole : lbRead (t.spoilLine p w).lb s.lineBase (q * p) = .ok (s.inp.bytes.take (q * p)) := by
    rw [hspoilt, lbRead_lbWrite_below (Nat.le_refl _), hstored]
  have hrest := lbRead_lbWrite_same t.lb (s.lineBase + q * p) (drawBytes t.draws ((w - q) * p))
  rw [← hspoilt] at hrest
  have hline := lbRead_append hwhole hrest
  rw [hfill] at hline
  refine ⟨hwhole, fun k => isSome_lbGet_of_lbRead hline, fun k hk => ?outside⟩
  case outside => rw [sameLbOutside_of_lbWrite hspoilt rfl k (by omega), hkept k (by omega)]

/-- Settles O34: EOS cuts the line, ReadFailure is raised there, and the rest of the line is spoilt. -/
theorem rawRdAtEndOfStream : Obligations.RawRdAtEndOfStream := by
  unfold Obligations.RawRdAtEndOfStream
  intro s pb n hs hwf hfit heos hshort
  obtain ⟨t, hloop, hcut⟩ := rawRdLoop_short (one_le_of_rawRd_wf hwf) hs.part hs.pixcnt_eq_x heos hshort
  have hcounted : t.incnt = BitVec.ofNat 32 s.inp.bytes.length := by
    rw [hcut.counted, hs.incnt]
    exact BitVec.zero_add _
  have hshown : t.pixcnt = BitVec.ofNat 32 (s.inp.bytes.length / pb.toNat) := by
    rw [hcut.shown, hcut.moved, hs.x, Nat.zero_add]
  refine ⟨(t.spoilLine pb.toNat n.toNat).raiseFault .readFailure, ?ends, congrArg (Status.failed .readFailure) hcut.status,
    hcut.taken, hcounted, hshown, hcut.spoilLine hs.x hshort⟩
  case ends => rw [exec_rawRd hs hwf hfit, hloop, Flow.raise_onRaise, Flow.raise_settle]

/-! ## RAW_WR -/

theorem OutPort.afterSending_append (o : OutPort) (as bs : List Byte) :
    (o.afterSending as).afterSending bs = o.afterSending (as ++ bs) := by
  simp [OutPort.afterSending, Function.comp_def, Nat.sub_sub]

theorem OutPort.accepts_of_add {o : OutPort} {i j : Nat} (h : o.accepts (i + j)) : o.accepts i :=
  ⟨fun c hc => Nat.le_trans (Nat.le_add_right i j) (h.1 c hc),
    fun a ha => Nat.le_trans (Nat.le_add_right i j) (h.2 a ha)⟩

theorem OutPort.accepts_afterSending {o : OutPort} {i j : Nat} {bs : List Byte} (h : o.accepts (i + j))
    (hlen : bs.length = i) : (o.afterSending bs).accepts j := by
  refine ⟨fun c hc => ?_, fun a ha => ?_⟩
  · obtain ⟨c, hcap, rfl⟩ := Option.map_eq_some_iff.mp hc
    have := h.1 c hcap
    omega
  · obtain ⟨a, hanswers, rfl⟩ := Option.map_eq_some_iff.mp ha
    have := h.2 a hanswers
    omega

theorem OutPort.accepts_of_refusesAfter {o : OutPort} {c k i : Nat} (h : o.refusesAfter c k) (hi : i ≤ c) :
    o.accepts i := by
  obtain ⟨hcap, -, hanswers⟩ := h
  refine ⟨fun d hd => ?_, fun a ha => Nat.le_trans hi (Nat.le_of_lt (hanswers a ha))⟩
  rw [hcap, Option.some.injEq] at hd
  exact hd ▸ hi

theorem OutPort.refusesAfter_afterSending {o : OutPort} {c i j : Nat} {bs : List Byte} (h : o.refusesAfter c (i + j))
    (hlen : bs.length = i) (hle : i ≤ c) : (o.afterSending bs).refusesAfter (c - i) j := by
  obtain ⟨hcap, hlt, hanswers⟩ := h
  refine ⟨by simp [OutPort.afterSending, hcap, hlen], by omega, fun b hb => ?_⟩
  obtain ⟨a, ha, rfl⟩ := Option.map_eq_some_iff.mp hb
  have := hanswers a ha
  omega

/-- The state after RAW_WR has sent its next pixel whole (R122). -/
def State.sendWhole (px : Pixel) (s : State) : State :=
  { s with
    out := s.out.afterSending px
    outcnt := s.outcnt + BitVec.ofNat 32 px.length
    pend := [] }.pixelSent

theorem State.sendWhole_address (px : Pixel) (p : Nat) (s : State) :
    (s.sendWhole px).lineBase + (s.sendWhole px).x * p = s.lineBase + s.x * p + p := nextPixel_address _ _ _

/-- With nothing pending, the next pixel is read from LB and given to OUT (R122). -/
theorem sendPixel_of_read {p : Nat} {s : State} {px : Pixel} (hpend : s.pend = [])
    (hread : lbRead s.lb (s.lineBase + s.x * p) p = .ok px) : sendPixel p s = outWrite px s := by
  rw [sendPixel, if_pos hpend, State.pix, hread]

theorem rawWrLoop_sendWhole {p k : Nat} {s : State} {px : Pixel} (hpend : s.pend = [])
    (hread : lbRead s.lb (s.lineBase + s.x * p) p = .ok px) (hout : s.out.accepts p) :
    rawWrLoop p (k + 1) s = rawWrLoop p k (s.sendWhole px) := by
  rw [rawWrLoop, sendPixel_of_read hpend hread, outWrite_accepts (length_of_lbRead hread ▸ hout)]
  rfl

/-- RAW_WR's loop from a pixel boundary, when its range is written and OUT accepts it (R122). -/
theorem rawWrLoop_accepts {p k : Nat} {s : State} {bs : List Byte} (hpend : s.pend = [])
    (hpix : s.pixcnt = BitVec.ofNat 32 s.x) (hread : lbRead s.lb (s.lineBase + s.x * p) (k * p) = .ok bs)
    (hout : s.out.accepts (k * p)) :
    rawWrLoop p k s = .go { s with
      out := s.out.afterSending bs
      outcnt := s.outcnt + BitVec.ofNat 32 (k * p)
      x := s.x + k
      pixcnt := BitVec.ofNat 32 (s.x + k) } := by
  induction k generalizing s bs with
  | zero =>
    rw [Nat.zero_mul] at hread
    obtain rfl : bs = [] := (Except.ok.inj hread).symm
    simp [rawWrLoop, OutPort.afterSending, ← hpix]
  | succ k ih =>
    rw [Nat.succ_mul, Nat.add_comm (k * p) p] at hread hout
    obtain ⟨hpixel, hrest⟩ := lbRead_split hread
    have hlen := length_of_lbRead hpixel
    rw [← State.sendWhole_address (bs.take p)] at hrest
    rw [rawWrLoop_sendWhole hpend hpixel (OutPort.accepts_of_add hout),
      ih rfl rfl hrest (OutPort.accepts_afterSending hout hlen)]
    have hbytes : p + k * p = (k + 1) * p := by rw [Nat.succ_mul, Nat.add_comm]
    simp only [State.sendWhole, State.pixelSent, OutPort.afterSending_append, List.take_append_drop, hlen, counter_add,
      hbytes, hpend, Nat.add_assoc, Nat.add_comm 1 k]

/-- RAW_WR's loop from a pixel boundary, when its range is written and OUT refuses the byte after the first `c`: the bytes
before it and the whole pixels among them are counted (R122). -/
theorem rawWrLoop_refused {p k c : Nat} {s : State} {bs : List Byte} (hp : 0 < p) (hpend : s.pend = [])
    (hpix : s.pixcnt = BitVec.ofNat 32 s.x) (hread : lbRead s.lb (s.lineBase + s.x * p) (k * p) = .ok bs)
    (hout : s.out.refusesAfter c (k * p)) :
    rawWrLoop p k s = .raise .writeFailure { s with
      out := { sent := s.out.sent ++ bs.take c, cap := some 0, answers := s.out.answers.map (· - (c + 1)) }
      outcnt := s.outcnt + BitVec.ofNat 32 c
      x := s.x + c / p
      pixcnt := BitVec.ofNat 32 (s.x + c / p) } := by
  induction k generalizing s bs c with
  | zero => exact absurd hout.2.1 (by omega)
  | succ k ih =>
    rw [Nat.succ_mul, Nat.add_comm (k * p) p] at hread hout
    obtain ⟨hpixel, hrest⟩ := lbRead_split hread
    have hlen := length_of_lbRead hpixel
    by_cases hc : c < p
    · have hnone : c / p = 0 := Nat.div_eq_of_lt hc
      have hrefused : s.out.refusesAfter c (bs.take p).length := ⟨hout.1, hlen.symm ▸ hc, hout.2.2⟩
      rw [rawWrLoop, sendPixel_of_read hpend hpixel, outWrite_refused hrefused]
      simp [hnone, hpend, ← hpix, List.take_take, Nat.min_eq_left (Nat.le_of_lt hc)]
    · have hle : p ≤ c := Nat.not_lt.mp hc
      rw [← State.sendWhole_address (bs.take p)] at hrest
      rw [rawWrLoop_sendWhole hpend hpixel (OutPort.accepts_of_refusesAfter hout hle),
        ih rfl rfl hrest (OutPort.refusesAfter_afterSending hout hlen hle)]
      have hsent : bs.take p ++ (bs.drop p).take (c - p) = bs.take c := by
        rw [← List.take_add, Nat.add_sub_cancel' hle]
      have hanswers : p + (c - p + 1) = c + 1 := by omega
      have hwhole : c / p = (c - p) / p + 1 := Nat.div_eq_sub_div hp hle
      simp only [State.sendWhole, State.pixelSent, OutPort.afterSending, List.append_assoc, hsent, hlen, counter_add,
        Nat.add_sub_cancel' hle, hpend, Option.map_map, Function.comp_def, Nat.sub_sub, hanswers, hwhole,
        Nat.add_assoc, Nat.add_comm 1]

/-- Settles O35: the command is its loop from pixel 0. -/
theorem rawWrCopies : Obligations.RawWrCopies := by
  unfold Obligations.RawWrCopies
  intro s pb n bs hs hwf hfit hread hout
  rw [← hs.lineStart pb.toNat] at hread
  rw [exec_rawWr hs hwf hfit, rawWrLoop_accepts hs.pend hs.pixcnt_eq_x hread hout]
  simp [hs.x, hs.outcnt]

/-- Settles O36: the command is its loop from pixel 0. -/
theorem rawWrRefused : Obligations.RawWrRefused := by
  unfold Obligations.RawWrRefused
  intro s pb n bs c hs hwf hfit hread hout
  rw [← hs.lineStart pb.toNat] at hread
  rw [exec_rawWr hs hwf hfit,
    rawWrLoop_refused (one_le_of_rawWr_wf hwf) hs.pend hs.pixcnt_eq_x hread hout, Flow.raise_settle]
  refine ⟨_, rfl, rfl, ?counted, rfl, ?shown, rfl⟩
  case counted => simp [hs.outcnt]
  case shown => simp [hs.x]

end Sys2Proof.Machine
end

section
/-! PROOFS. The RLE decoder (spec 42_rle_decode): the turns of its loop.

A turn of the decode loop is one packet: it emits at least one pixel, so the fuel of the loop never matters. RLE_DEC from a
header is the packet there, and then the loop that running the rest of the command starts again (O47). -/

namespace Sys2Proof.Machine

/-! ## The command -/

/-- RLE_DEC with its operands legal: the loop, and the end of the line (R151, R153). -/
theorem exec_rleDec_of_pass {pb : BitVec 3} {n : BitVec 24} {s : State} (h : operandFault (.rleDec pb n) s = none) :
    exec (.rleDec pb n) s =
      ((decodeLoop pb.toNat n.toNat (n.toNat - s.x) s).onRaise (State.spoilLine pb.toNat n.toNat)).settle State.endLine := by
  rw [exec, execRleDec, checked, h]
  cases decodeLoop pb.toNat n.toNat (n.toNat - s.x) s <;> rfl

/-- The latched word of an RLE_DEC runs RLE_DEC with the latched operands (R38, R76). -/
theorem runLatched_rleDec {s : State} (hop : s.lat.op = 7) (hrsv : s.lat.rsv = false) :
    runLatched s = exec (.rleDec s.lat.pb s.lat.n) s := by
  have hdecode : decodeCommand s.lat.word = .ok (.rleDec s.lat.pb s.lat.n) := by
    rw [Latch.word, hop, hrsv]
    exact decodeCommand_packFields rfl
  rw [runLatched, hdecode]

theorem State.command_of_atHeader {s : State} (h : s.atHeader = true) :
    s.status.busy = true ∧ s.lat.op = 7 ∧ s.lat.rsv = false ∧ operandFault (.rleDec s.lat.pb s.lat.n) s = none := by
  simp only [State.atHeader, Bool.and_eq_true, Bool.not_eq_true', beq_iff_eq] at h
  obtain ⟨⟨⟨⟨⟨⟨⟨hbusy, hop⟩, hrsv⟩, hpass⟩, -⟩, -⟩, -⟩, -⟩ := h
  exact ⟨hbusy, hop, hrsv, hpass⟩

/-! ## One turn of the loop -/

/-- The body of the decode loop, as R152 gives it: a header opens a run where none is active, and the run's pixels are
emitted. -/
def decodeTurn (p w : Nat) (s : State) : Flow :=
  (if s.rep = 0 ∧ s.dir = 0 then inRead 1 s fun h t => .go (t.openRun (h.headD 0)) else .go s).andThen (emitRun p w)

theorem decodeTurn_idle {p w : Nat} {s : State} (h : s.rep = 0 ∧ s.dir = 0) :
    decodeTurn p w s = (inRead 1 s fun h t => .go (t.openRun (h.headD 0))).andThen (emitRun p w) := by
  rw [decodeTurn, if_pos h]

theorem decodeTurn_active {p w : Nat} {s : State} (h : ¬ (s.rep = 0 ∧ s.dir = 0)) : decodeTurn p w s = emitRun p w s := by
  rw [decodeTurn, if_neg h, Flow.go_andThen]

theorem decodeLoop_turn {p w fuel : Nat} {s : State} (hx : s.x < w) :
    decodeLoop p w (fuel + 1) s = (decodeTurn p w s).andThen (decodeLoop p w fuel) := by
  rw [decodeLoop, if_pos hx, decodeTurn]

theorem decodeLoop_done {p w : Nat} {s : State} (hx : w ≤ s.x) (fuel : Nat) : decodeLoop p w fuel s = .go s := by
  cases fuel with
  | zero => rfl
  | succ fuel => rw [decodeLoop, if_neg (Nat.not_lt.mpr hx)]

/-- The type and the count of a header are in its value: 128 and more repeat, the rest are direct (R80, R150). -/
theorem State.openRun_eq (h : Byte) (s : State) :
    s.openRun h = if 128 ≤ h.toNat then { s with rep := h.toNat - 127, dir := 0 }
      else { s with rep := 0, dir := h.toNat + 1 } := by
  have htype : h.getLsbD 7 = decide (128 ≤ h.toNat) := BitVec.msb_eq_getLsbD_last h ▸ BitVec.msb_eq_decide h
  have hcount : (h.extractLsb' 0 7).toNat = h.toNat % 128 := by simp
  have hlt : h.toNat < 256 := h.isLt
  unfold State.openRun decodeHeader
  rw [htype]
  by_cases hge : 128 ≤ h.toNat
  · have hrun : h.toNat % 128 + 1 = h.toNat - 127 := by omega
    simp [hge, State.openRepeat, hcount, hrun]
  · have hrun : h.toNat % 128 = h.toNat := by omega
    simp [hge, State.openDirect, hcount, hrun]

/-- A header opens a run of at least one pixel (R150). -/
theorem State.openRun_active (h : Byte) (s : State) : 0 < (s.openRun h).rep ∨ 0 < (s.openRun h).dir := by
  rw [State.openRun_eq]
  split
  · exact .inl (Nat.sub_pos_of_lt (by omega))
  · exact .inr (Nat.succ_pos _)

theorem State.openRun_x (h : Byte) (s : State) : (s.openRun h).x = s.x := by
  rw [State.openRun_eq]
  split <;> rfl

/-- With a header next on IN, the turn is the packet it opens (R152). -/
theorem decodeTurn_header {p w : Nat} {s : State} {h : Byte} {rest : List Byte} (hidle : s.rep = 0 ∧ s.dir = 0)
    (hpart : s.part = []) (hin : s.inp.bytes = h :: rest) :
    decodeTurn p w s = emitRun p w ((s.tookHeader rest).openRun h) := by
  have htook : ({ s with
      inp := { s.inp with bytes := rest }
      incnt := s.incnt + BitVec.ofNat 32 1
      part := [] } : State) = s.tookHeader rest := by rw [← hpart]; rfl
  rw [decodeTurn_idle hidle, inRead_enough hpart (by simp [hin])]
  simp only [hin, List.drop_one, List.tail_cons, htook]
  rfl

/-! ## Every turn emits a pixel -/

theorem Flow.andThen_eq_go {r : Flow} {f : State → Flow} {t : State} (h : r.andThen f = .go t) :
    ∃ u, r = .go u ∧ f u = .go t := by
  cases r with
  | go u => exact ⟨u, rfl, h⟩
  | wait u => cases h
  | raise k u => cases h
  | unwritten a => cases h

theorem inRead_eq_go {n : Nat} {s t : State} {f : List Byte → State → Flow} (h : inRead n s f = .go t) :
    ∃ bs taken rest, f bs (s.afterTaking taken rest []) = .go t := by
  obtain ⟨taken, rest, -, ⟨-, -, e⟩ | ⟨-, -, e⟩⟩ := inRead_cases n s f
  · exact ⟨_, taken, rest, e.symm.trans h⟩
  · rw [e] at h
    split at h <;> cases h

theorem emitSample_x (p k : Nat) (s : State) : (emitSample p k s).x = s.x + k := by
  induction k generalizing s with
  | zero => rfl
  | succ k ih =>
    rw [emitSample, ih, Nat.add_comm k 1, ← Nat.add_assoc]
    rfl

theorem emitDirect_x {p k : Nat} {s t : State} (h : emitDirect p k s = .go t) : t.x = s.x + k := by
  induction k generalizing s with
  | zero =>
    cases h
    rfl
  | succ k ih =>
    obtain ⟨bs, taken, rest, hrest⟩ := inRead_eq_go h
    rw [ih hrest, Nat.add_comm k 1, ← Nat.add_assoc]
    rfl

theorem emitRun_repeat {p w : Nat} {s : State} (h : 0 < s.rep) :
    emitRun p w s = inRead p s fun px t => .go (emitSample p (min t.rep (w - t.x)) { t with sample := px }) := if_pos h

theorem emitRun_direct {p w : Nat} {s : State} (h : s.rep = 0) :
    emitRun p w s = emitDirect p (min s.dir (w - s.x)) s := if_neg (Nat.not_lt.mpr (Nat.le_of_eq h))

/-- An open run on a line with room emits a pixel. -/
theorem emitRun_advances {p w : Nat} {s t : State} (hactive : 0 < s.rep ∨ 0 < s.dir) (hx : s.x < w)
    (h : emitRun p w s = .go t) : s.x < t.x := by
  by_cases hrep : 0 < s.rep
  · rw [emitRun_repeat hrep] at h
    obtain ⟨bs, taken, rest, hgo⟩ := inRead_eq_go h
    cases hgo
    rw [emitSample_x]
    simp only [State.afterTaking]
    omega
  · rw [emitRun_direct (Nat.eq_zero_of_not_pos hrep)] at h
    rw [emitDirect_x h]
    omega

theorem decodeTurn_advances {p w : Nat} {s t : State} (hx : s.x < w) (h : decodeTurn p w s = .go t) : s.x < t.x := by
  by_cases hidle : s.rep = 0 ∧ s.dir = 0
  · rw [decodeTurn_idle hidle] at h
    obtain ⟨u, hread, hrun⟩ := Flow.andThen_eq_go h
    obtain ⟨bs, taken, rest, hopened⟩ := inRead_eq_go hread
    cases hopened
    have hx' := State.openRun_x (bs.headD 0) (s.afterTaking taken rest [])
    have hpixel := emitRun_advances (State.openRun_active _ _) (hx' ▸ hx) hrun
    rwa [hx'] at hpixel
  · rw [decodeTurn_active hidle] at h
    exact emitRun_advances (by omega) hx h

/-- Any fuel that covers the pixels left is enough. -/
theorem decodeLoop_fuel {p w f g : Nat} {s : State} (hf : w - s.x ≤ f) (hg : w - s.x ≤ g) :
    decodeLoop p w f s = decodeLoop p w g s := by
  by_cases hx : s.x < w
  · induction f generalizing g s with
    | zero => omega
    | succ f ih =>
      obtain ⟨g, rfl⟩ : ∃ k, g = k + 1 := Nat.exists_eq_add_one.mpr (by omega)
      rw [decodeLoop_turn hx, decodeLoop_turn hx]
      cases hturn : decodeTurn p w s with
      | go t =>
        have hpixel := decodeTurn_advances hx hturn
        simp only [Flow.go_andThen]
        by_cases ht : t.x < w
        · exact ih (by omega) (by omega) ht
        · rw [decodeLoop_done (by omega), decodeLoop_done (by omega)]
      | wait t => rfl
      | raise k t => rfl
      | unwritten a => rfl
  · rw [decodeLoop_done (by omega), decodeLoop_done (by omega)]

/-! ## RLE_DEC packet by packet -/

/-- A header where the decoder reads one is the packet whose run it opens (R80, R152). -/
theorem exec_decodeHeader {s : State} (hat : s.atHeader = true) (h : Byte) :
    exec (decodeHeader h) s = runOpened (s.openRun h) := by
  unfold State.openRun decodeHeader
  split
  · exact exec_pktRepeat_atHeader hat _
  · exact exec_pktDirect_atHeader hat _

/-- Emitting a run leaves the command in flight as it is (R38, R152). -/
theorem emitRun_command {p w : Nat} {s t : State} (h : emitRun p w s = .go t) :
    t.status = s.status ∧ t.cfg = s.cfg ∧ t.lat = s.lat := by
  have hk := hostView_keptByCommands s
  have hview := emitRun_all (w := w) hk.taking (hk.storing p w) (hk.decoder p) rfl
  have hstatus := emitRun_running p w (s := s) rfl
  rw [h] at hview hstatus
  exact ⟨hstatus, congrArg (·.1) hview, congrArg (·.2.2.2.1) hview⟩

/-- What a packet leads to, when the rest of its command is run where it is still in flight. -/
def thenRest (o : Host.Outcome State Fault Refusal) : Host.Outcome State Fault Refusal :=
  match o with
  | .next t => if t.status.busy then runLatched t else .next t
  | .fault r => .fault r
  | .refused r => .refused r

theorem thenRest_ended {t : State} (h : t.status.busy = false) : thenRest (.next t) = .next t :=
  if_neg (Bool.eq_false_iff.mp h)

theorem thenRest_busy {t : State} (h : t.status.busy = true) : thenRest (.next t) = runLatched t := if_pos h

/-- An RLE_DEC in flight with its operands legal goes on with its loop, whatever fuel covers the pixels left (R152). -/
theorem runLatched_loop {s : State} (hop : s.lat.op = 7) (hrsv : s.lat.rsv = false)
    (hpass : operandFault (.rleDec s.lat.pb s.lat.n) s = none) {fuel : Nat} (hfuel : s.lat.n.toNat - s.x ≤ fuel) :
    runLatched s = ((decodeLoop s.lat.pb.toNat s.lat.n.toNat fuel s).onRaise
      (State.spoilLine s.lat.pb.toNat s.lat.n.toNat)).settle State.endLine := by
  rw [runLatched_rleDec hop hrsv, exec_rleDec_of_pass hpass, decodeLoop_fuel (Nat.le_refl _) hfuel]

/-- The packet whose run is open, and then the rest, is the packet and then the loop (R152). -/
theorem thenRest_runOpened {s : State} (hbusy : s.status.busy = true) (hop : s.lat.op = 7) (hrsv : s.lat.rsv = false)
    (hpass : operandFault (.rleDec s.lat.pb s.lat.n) s = none) (hactive : 0 < s.rep ∨ 0 < s.dir) {fuel : Nat}
    (hfuel : s.lat.n.toNat - s.x = fuel + 1) :
    thenRest (runOpened s) =
      (((emitRun s.lat.pb.toNat s.lat.n.toNat s).andThen (decodeLoop s.lat.pb.toNat s.lat.n.toNat fuel)).onRaise
        (State.spoilLine s.lat.pb.toNat s.lat.n.toNat)).settle State.endLine := by
  simp only [runOpened]
  cases hrun : emitRun s.lat.pb.toNat s.lat.n.toNat s with
  | wait t => rfl
  | raise k t => exact thenRest_ended rfl
  | unwritten a => rfl
  | go t =>
    obtain ⟨hstatus, hcfg, hlat⟩ := emitRun_command hrun
    simp only [Flow.go_onRaise, Flow.go_settle, Flow.go_andThen]
    by_cases hleft : t.x < s.lat.n.toNat
    · have hpixel := emitRun_advances hactive (by omega) hrun
      have hagain : operandFault (.rleDec t.lat.pb t.lat.n) t = none := by
        rw [operandFault_congr (congrArg Latch.base hlat) hcfg, hlat, hpass]
      rw [if_pos hleft, thenRest_busy (hstatus ▸ hbusy),
        runLatched_loop (hlat ▸ hop) (hlat ▸ hrsv) hagain (fuel := fuel) (by rw [hlat]; omega), hlat]
    · rw [if_neg hleft, thenRest_ended rfl, decodeLoop_done (Nat.not_lt.mp hleft)]
      rfl

theorem State.openRun_command (h : Byte) (s : State) :
    (s.openRun h).status = s.status ∧ (s.openRun h).cfg = s.cfg ∧ (s.openRun h).lat = s.lat := by
  rw [State.openRun_eq]
  split <;> exact ⟨rfl, rfl, rfl⟩

/-- Settles O47: the command is its loop, whose first turn is the packet, and any fuel is as good as another for the rest. -/
theorem decodePacketByPacket : Obligations.DecodePacketByPacket := by
  unfold Obligations.DecodePacketByPacket
  intro s h bytes hat hin
  obtain ⟨hx, hrep, hdir, hpart⟩ := State.idle_of_atHeader hat
  obtain ⟨hbusy, hop, hrsv, hpass⟩ := State.command_of_atHeader hat
  obtain ⟨fuel, hfuel⟩ : ∃ k, s.lat.n.toNat - s.x = k + 1 := Nat.exists_eq_add_one.mpr (by omega)
  obtain ⟨hstatus, hcfg, hlat⟩ := State.openRun_command h (s.tookHeader bytes)
  have hopened : thenRest (runOpened ((s.tookHeader bytes).openRun h)) = _ :=
    thenRest_runOpened (fuel := fuel) (hstatus ▸ hbusy) (hlat ▸ hop) (hlat ▸ hrsv)
      (by rw [operandFault_congr (congrArg Latch.base hlat) hcfg, hlat]; exact hpass) (State.openRun_active h _)
      (by rw [hlat, State.openRun_x]; exact hfuel)
  rw [hlat, ← exec_decodeHeader (s := s.tookHeader bytes) hat] at hopened
  rw [runLatched_loop hop hrsv hpass (Nat.le_of_eq hfuel), decodeLoop_turn hx, decodeTurn_header ⟨hrep, hdir⟩ hpart hin]
  exact hopened.symm

end Sys2Proof.Machine
end

section
/-! PROOFS. The line buffer as a loop fills it (spec 00_scope R10, 42_rle_decode R152): writes one after another are one
write. The canonical form of LB is not needed for that, as long as there is a write at all. -/

namespace Sys2Proof.Machine

theorem cellsAt_append (a : Nat) (bs cs : List Byte) :
    cellsAt a (bs ++ cs) = cellsAt a bs ++ cellsAt (a + bs.length) cs := by
  induction bs generalizing a with
  | nil => rfl
  | cons b bs ih =>
    rw [List.cons_append, cellsAt, cellsAt, ih, List.length_cons, Nat.add_comm bs.length 1, ← Nat.add_assoc]
    rfl

/-- A write at the end of another is one write with it, whatever the memory. -/
theorem lbWrite_lbWrite_end (m : Memory) (a : Nat) (bs cs : List Byte) :
    lbWrite (lbWrite m a bs) (a + bs.length) cs = lbWrite m a (bs ++ cs) := by
  have hbelow : (lbWrite m a bs).filter (fun c => c.1 < a + bs.length) = m.filter (fun c => c.1 < a) ++ cellsAt a bs := by
    have hcells : (cellsAt a bs).filter (fun c => c.1 < a + bs.length) = cellsAt a bs :=
      List.filter_eq_self.mpr fun c hc => decide_eq_true (mem_cellsAt hc).2
    have hhigh : m.filter (fun c => decide (c.1 < a + bs.length) && decide (a + bs.length ≤ c.1)) = [] :=
      List.filter_eq_nil_iff.mpr fun c _ => by grind
    simp only [lbWrite, List.filter_append, List.filter_filter, hcells, hhigh, List.append_nil]
    exact congrArg (· ++ _) (List.filter_congr fun c _ => by grind)
  have habove : (lbWrite m a bs).filter (fun c => a + bs.length + cs.length ≤ c.1) =
      m.filter fun c => a + (bs ++ cs).length ≤ c.1 := by
    have hcells : (cellsAt a bs).filter (fun c => a + bs.length + cs.length ≤ c.1) = [] :=
      List.filter_eq_nil_iff.mpr fun c hc => by have := (mem_cellsAt hc).2; grind
    have hlow : m.filter (fun c => decide (a + bs.length + cs.length ≤ c.1) && decide (c.1 < a)) = [] :=
      List.filter_eq_nil_iff.mpr fun c _ => by grind
    simp only [lbWrite, List.filter_append, List.filter_filter, hcells, hlow, List.nil_append]
    exact List.filter_congr fun c _ => by grind
  rw [lbWrite, hbelow, habove, lbWrite, cellsAt_append]
  simp only [List.append_assoc]

/-- LB after the bytes `bs` have been stored from `a` on, one pixel after another: no write at all where there is no byte. -/
def lbStored (m : Memory) (a : Nat) (bs : List Byte) : Memory := if bs = [] then m else lbWrite m a bs

theorem lbStored_nil (m : Memory) (a : Nat) : lbStored m a [] = m := if_pos rfl

theorem lbStored_of_ne_nil {bs : List Byte} (h : bs ≠ []) (m : Memory) (a : Nat) : lbStored m a bs = lbWrite m a bs :=
  if_neg h

theorem lbStored_of_wf {m : Memory} (h : m.wf) (a : Nat) (bs : List Byte) : lbStored m a bs = lbWrite m a bs := by
  by_cases hbs : bs = []
  · rw [hbs, lbStored_nil, lbWrite_nil h]
  · exact lbStored_of_ne_nil hbs m a

theorem lbWrite_lbStored (m : Memory) (a : Nat) (bs cs : List Byte) :
    lbWrite (lbStored m a bs) (a + bs.length) cs = lbWrite m a (bs ++ cs) := by
  by_cases hbs : bs = []
  · rw [hbs, lbStored_nil]
    rfl
  · rw [lbStored_of_ne_nil hbs, lbWrite_lbWrite_end]

theorem lbRead_lbStored (m : Memory) (a : Nat) (bs : List Byte) : lbRead (lbStored m a bs) a bs.length = .ok bs := by
  by_cases hbs : bs = []
  · rw [hbs]
    rfl
  · rw [lbStored_of_ne_nil hbs, lbRead_lbWrite_same]

end Sys2Proof.Machine
end

section
/-! PROOFS. RLE_DEC against its functional form `rle_decode` (spec 42_rle_decode R151 to R161).

`State.decoded` is the state in which the command, issued in `s`, stands after some bytes and pixels. Every piece of the loop
leads from such a state to such a state, at EOS too, so one induction over the packets shows that the loop does what
`rle_decode` says (`decodeLoop_performedBy`). O48 and O49 are its two outcomes, and O51 is the first of them for a stream of
whole packets. -/

namespace Sys2Proof.Machine

/-! ## The operands -/

/-- RLE_DEC just issued with legal operands on a line that fits: the loop from pixel 0, and the end of the line (R151,
R153). -/
theorem exec_rleDec {s : State} {pb : BitVec 3} {n : BitVec 24} (hs : s.Fresh) (hwf : (Instr.rleDec pb n).wf = true)
    (hfit : s.lat.base.toNat + n.toNat * pb.toNat ≤ s.cfg.lbSize) :
    exec (.rleDec pb n) s =
      ((decodeLoop pb.toNat n.toNat n.toNat s).onRaise (State.spoilLine pb.toNat n.toNat)).settle State.endLine := by
  have hpass := (operandFault_none (.rleDec pb n) s).mpr ⟨hwf, fun _ hlen => Option.some.inj hlen ▸ hfit⟩
  rw [exec_rleDec_of_pass hpass, hs.x, Nat.sub_zero]

theorem one_le_of_rleDec_wf {pb : BitVec 3} {n : BitVec 24} (h : (Instr.rleDec pb n).wf = true) : 1 ≤ pb.toNat :=
  one_le_of_rawRd_wf (n := n) h

/-! ## A line of no pixels -/

theorem State.Fresh.endLine {s : State} (hs : s.Fresh) : s.endLine = s.finish := by
  obtain ⟨-, -, hrep, hdir, -⟩ := hs
  cases s
  cases hrep
  cases hdir
  rfl

/-- Settles O50: the operands pass, and neither loop has a pixel to do. -/
theorem zeroWidthDoesNothing : Obligations.ZeroWidthDoesNothing := by
  unfold Obligations.ZeroWidthDoesNothing
  intro s pb hs hlow hhigh hbase
  have hwf : (Instr.rleDec pb 0).wf = true := by simp [Instr.wf, Instr.pbLegal, Instr.nLegal, hlow, hhigh]
  have hfit : s.lat.base.toNat + (0 : BitVec 24).toNat * pb.toNat ≤ s.cfg.lbSize := by simpa using hbase
  refine ⟨?dec, ?enc, hs.incnt, hs.outcnt, hs.pixcnt⟩
  case dec =>
    rw [exec_rleDec hs hwf hfit]
    exact congrArg Host.Outcome.next hs.endLine
  case enc =>
    rw [exec, execRleEnc, checked_of_wf (i := .rleEnc pb 0) _ hwf fun _ hlen => Option.some.inj hlen ▸ hfit, hs.enc]
    rfl

/-! ## Between two pixels -/

/-- The state in which RLE_DEC, issued in `s`, has taken `used` bytes and stored the `x` pixels `px` (R26, R28, R152). -/
def State.decoded (px : List Byte) (used x : Nat) (s : State) : State :=
  { s with
    inp := { s.inp with bytes := s.inp.bytes.drop used }
    incnt := BitVec.ofNat 32 used
    x := x
    pixcnt := BitVec.ofNat 32 x
    lb := lbStored s.lb s.lineBase px }

theorem State.Fresh.decoded_nil {s : State} (hs : s.Fresh) : s.decoded [] 0 0 = s := by
  obtain ⟨-, hx, -, -, -, -, -, hincnt, -, hpixcnt⟩ := hs
  cases s
  cases hx
  cases hincnt
  cases hpixcnt
  rfl

theorem State.storePixel_decoded {p used x : Nat} {px q : List Byte} (hp : 0 < p) (hpx : px.length = x * p)
    (hq : q.length = p) (s : State) : (s.decoded px used x).storePixel p q = s.decoded (px ++ q) used (x + 1) := by
  have hne : px ++ q ≠ [] := List.append_ne_nil_of_right_ne_nil px (List.ne_nil_of_length_pos (hq ▸ hp))
  have hlb : lbWrite (lbStored s.lb s.lineBase px) (s.lineBase + x * p) q = lbStored s.lb s.lineBase (px ++ q) := by
    rw [← hpx, lbWrite_lbStored, lbStored_of_ne_nil hne]
  exact congrArg (fun lb => { s.decoded px used (x + 1) with lb := lb }) hlb

/-- An InRead of bytes that are there (R11, R52). -/
theorem inRead_decoded {n used x : Nat} {px rest : List Byte} {s : State} (hpart : s.part = [])
    (hrest : s.inp.bytes.drop used = rest) (hin : n ≤ rest.length) (f : List Byte → State → Flow) :
    inRead n (s.decoded px used x) f = f (rest.take n) (s.decoded px (used + n) x) := by
  subst hrest
  rw [inRead_enough (s := s.decoded px used x) hpart hin]
  simp [State.decoded, hpart, BitVec.ofNat_add]

/-- An InRead that meets EOS has taken every byte (R11, R52). -/
theorem inRead_decoded_short {n used x : Nat} {px rest : List Byte} {s : State} (hpart : s.part = [])
    (heos : s.inp.eos = true) (hrest : s.inp.bytes.drop used = rest) (hin : rest.length < n)
    (f : List Byte → State → Flow) :
    inRead n (s.decoded px used x) f =
      .raise .readFailure (({ s with part := rest } : State).decoded px (used + rest.length) x) := by
  have hnone : s.inp.bytes.drop (used + rest.length) = [] := by rw [← List.drop_drop, hrest, List.drop_length]
  subst hrest
  rw [inRead_short (s := s.decoded px used x) hpart hin]
  simp only [State.decoded, heos, if_true, hnone, BitVec.ofNat_add]
  rfl

/-! ## A run -/

theorem emitSample_decoded {p used x k : Nat} {px : List Byte} {s : State} (hp : 0 < p) (hpx : px.length = x * p)
    (hsample : s.sample.length = p) :
    emitSample p k (s.decoded px used x) =
      ({ s with rep := s.rep - k } : State).decoded (px ++ (List.replicate k s.sample).flatten) used (x + k) := by
  induction k generalizing s px x with
  | zero => simp [emitSample]
  | succ k ih =>
    have hnext : (px ++ s.sample).length = (x + 1) * p := by rw [List.length_append, hpx, hsample, Nat.succ_mul]
    have hstored := State.storePixel_decoded (used := used) hp hpx hsample s
    have hturn : emitSample p (k + 1) (s.decoded px used x) =
        emitSample p k (({ s with rep := s.rep - 1 } : State).decoded (px ++ s.sample) used (x + 1)) :=
      congrArg (fun t : State => emitSample p k { t with rep := s.rep - 1 }) hstored
    rw [hturn, ih (s := { s with rep := s.rep - 1 }) hnext hsample]
    simp [List.replicate_succ, Nat.sub_sub, Nat.add_comm 1, Nat.add_assoc]

/-- The next pixel of a direct run, when it is there (R152). -/
theorem emitDirect_decoded_succ {p used x k : Nat} {px rest : List Byte} {s : State} (hp : 0 < p)
    (hpx : px.length = x * p) (hpart : s.part = []) (hrest : s.inp.bytes.drop used = rest) (hin : p ≤ rest.length) :
    emitDirect p (k + 1) (s.decoded px used x) =
      emitDirect p k (({ s with dir := s.dir - 1 } : State).decoded (px ++ rest.take p) (used + p) (x + 1)) := by
  have hstored := State.storePixel_decoded (used := used + p) hp hpx (List.length_take_of_le hin) s
  rw [emitDirect, inRead_decoded hpart hrest hin]
  exact congrArg (fun t : State => emitDirect p k { t with dir := s.dir - 1 }) hstored

theorem nextPixel_length {p x : Nat} {px rest : List Byte} (hpx : px.length = x * p) (hin : p ≤ rest.length) :
    (px ++ rest.take p).length = (x + 1) * p := by
  rw [List.length_append, hpx, List.length_take_of_le hin, Nat.succ_mul]

/-- A direct run whose pixels are there (R152). -/
theorem emitDirect_decoded {p used x k : Nat} {px rest : List Byte} {s : State} (hp : 0 < p)
    (hpx : px.length = x * p) (hpart : s.part = []) (hrest : s.inp.bytes.drop used = rest) (hin : k * p ≤ rest.length) :
    emitDirect p k (s.decoded px used x) =
      .go (({ s with dir := s.dir - k } : State).decoded (px ++ rest.take (k * p)) (used + k * p) (x + k)) := by
  induction k generalizing s px rest used x with
  | zero => simp [emitDirect]
  | succ k ih =>
    have hbytes : (k + 1) * p = p + k * p := by rw [Nat.succ_mul, Nat.add_comm]
    have hpixel : p ≤ rest.length := by omega
    have hnext : s.inp.bytes.drop (used + p) = rest.drop p := by rw [← List.drop_drop, hrest]
    rw [emitDirect_decoded_succ hp hpx hpart hrest hpixel,
      ih (s := { s with dir := s.dir - 1 }) (nextPixel_length hpx hpixel) hpart hnext (by rw [List.length_drop]; omega)]
    simp only [hbytes, List.append_assoc, ← List.take_add, Nat.sub_sub, Nat.add_assoc, Nat.add_comm 1 k]

/-- A direct run cut by EOS: the whole pixels among its bytes are stored, and every byte is taken (R156, R157). -/
theorem emitDirect_decoded_short {p used x k : Nat} {px rest : List Byte} {s : State} (hp : 0 < p)
    (hpx : px.length = x * p) (hpart : s.part = []) (heos : s.inp.eos = true) (hrest : s.inp.bytes.drop used = rest)
    (hshort : rest.length < k * p) :
    ∃ dir part, emitDirect p k (s.decoded px used x) = .raise .readFailure
      (({ s with dir := dir, part := part } : State).decoded (px ++ rest.take (rest.length / p * p)) (used + rest.length)
        (x + rest.length / p)) := by
  induction k generalizing s px rest used x with
  | zero => omega
  | succ k ih =>
    by_cases hpixel : p ≤ rest.length
    · have hwhole : rest.length / p = (rest.length - p) / p + 1 := Nat.div_eq_sub_div hp hpixel
      have hbytes : ((rest.length - p) / p + 1) * p = p + (rest.length - p) / p * p := by rw [Nat.succ_mul, Nat.add_comm]
      have hnext : s.inp.bytes.drop (used + p) = rest.drop p := by rw [← List.drop_drop, hrest]
      rw [Nat.succ_mul] at hshort
      obtain ⟨dir, part, hcut⟩ := ih (s := { s with dir := s.dir - 1 }) (nextPixel_length hpx hpixel) hpart heos hnext
        (by rw [List.length_drop]; omega)
      refine ⟨dir, part, ?_⟩
      rw [emitDirect_decoded_succ hp hpx hpart hrest hpixel, hcut]
      simp only [List.length_drop, hbytes, hwhole, List.append_assoc, ← List.take_add, Nat.add_assoc,
        Nat.add_sub_cancel' hpixel, Nat.add_comm 1]
    · have hnone : rest.length / p = 0 := Nat.div_eq_of_lt (by omega)
      refine ⟨s.dir, rest, ?_⟩
      rw [emitDirect, inRead_decoded_short hpart heos hrest (by omega), hnone, Nat.zero_mul, List.take_zero, List.append_nil]
      rfl

/-! ## A packet -/

theorem State.tookHeader_decoded {used x : Nat} {px rest : List Byte} {h : Byte} {s : State}
    (hrest : s.inp.bytes.drop used = h :: rest) : (s.decoded px used x).tookHeader rest = s.decoded px (used + 1) x := by
  have hnext : s.inp.bytes.drop (used + 1) = rest := by rw [← List.drop_drop, hrest, List.drop_one, List.tail_cons]
  simp [State.decoded, State.tookHeader, State.lineBase, hnext, BitVec.ofNat_add]

theorem State.openRun_decoded (h : Byte) (px : List Byte) (used x : Nat) (s : State) :
    (s.decoded px used x).openRun h = (s.openRun h).decoded px used x := by
  rw [State.openRun_eq, State.openRun_eq]
  by_cases hh : 128 ≤ h.toNat
  · simp only [if_pos hh, State.decoded, State.lineBase]
  · simp only [if_neg hh, State.decoded, State.lineBase]

/-- A turn of the loop at a header opens its run (R150, R152). -/
theorem decodeTurn_decoded {p w used x : Nat} {px rest : List Byte} {h : Byte} {s : State} (hpart : s.part = [])
    (hidle : s.rep = 0 ∧ s.dir = 0) (hrest : s.inp.bytes.drop used = h :: rest) :
    decodeTurn p w (s.decoded px used x) = emitRun p w ((s.openRun h).decoded px (used + 1) x) := by
  rw [decodeTurn_header (s := s.decoded px used x) hidle hpart hrest, State.tookHeader_decoded hrest,
    State.openRun_decoded]

/-- A turn of the loop at a header that is not there (R156). -/
theorem decodeTurn_decoded_eos {p w used x : Nat} {px : List Byte} {s : State} (hpart : s.part = [])
    (hidle : s.rep = 0 ∧ s.dir = 0) (heos : s.inp.eos = true) (hrest : s.inp.bytes.drop used = []) :
    decodeTurn p w (s.decoded px used x) = .raise .readFailure (s.decoded px used x) := by
  have hsame : ({ s with part := [] } : State) = s := by rw [← hpart]
  rw [decodeTurn_idle (s := s.decoded px used x) hidle, inRead_decoded_short hpart heos hrest Nat.one_pos, hsame]
  rfl

/-- An open repeat run whose sample is there (R152, R153). -/
theorem emitRun_repeat_decoded {p w used x : Nat} {px rest : List Byte} {s : State} (hp : 0 < p)
    (hpx : px.length = x * p) (hrep : 0 < s.rep) (hpart : s.part = []) (hrest : s.inp.bytes.drop used = rest)
    (hin : p ≤ rest.length) :
    emitRun p w (s.decoded px used x) =
      .go (({ s with sample := rest.take p, rep := s.rep - min s.rep (w - x) } : State).decoded
        (px ++ (List.replicate (min s.rep (w - x)) (rest.take p)).flatten) (used + p) (x + min s.rep (w - x))) := by
  rw [emitRun_repeat (s := s.decoded px used x) hrep, inRead_decoded hpart hrest hin]
  exact congrArg Flow.go (emitSample_decoded (s := { s with sample := rest.take p }) hp hpx (List.length_take_of_le hin))

/-- An open repeat run whose sample is cut by EOS (R156). -/
theorem emitRun_repeat_decoded_short {p w used x : Nat} {px rest : List Byte} {s : State} (hrep : 0 < s.rep)
    (hpart : s.part = []) (heos : s.inp.eos = true) (hrest : s.inp.bytes.drop used = rest) (hshort : rest.length < p) :
    emitRun p w (s.decoded px used x) =
      .raise .readFailure (({ s with part := rest } : State).decoded px (used + rest.length) x) := by
  rw [emitRun_repeat (s := s.decoded px used x) hrep, inRead_decoded_short hpart heos hrest hshort]

/-! ## The functional form, case by case -/

theorem rleDecodeFrom_done (p fuel : Nat) (bytes : List Byte) (u : Nat) (acc : List Byte) :
    rleDecodeFrom p fuel 0 bytes u acc = .ok acc u := by
  cases fuel <;> rfl

theorem rleDecodeFrom_eos {p fuel w : Nat} (hw : 0 < w) (u : Nat) (acc : List Byte) :
    rleDecodeFrom p (fuel + 1) w [] u acc = .readFailure acc u := by
  obtain ⟨w, rfl⟩ := Nat.exists_eq_add_one.mpr hw
  rfl

theorem rleDecodeFrom_repeat {p fuel w : Nat} {h : Byte} (hw : 0 < w) (hh : 128 ≤ h.toNat) (rest : List Byte) (u : Nat)
    (acc : List Byte) :
    rleDecodeFrom p (fuel + 1) w (h :: rest) u acc =
      if rest.length < p then .readFailure acc (u + 1 + rest.length)
      else rleDecodeFrom p fuel (w - min (h.toNat - 127) w) (rest.drop p) (u + 1 + p)
        (acc ++ (List.replicate (min (h.toNat - 127) w) (rest.take p)).flatten) := by
  obtain ⟨w, rfl⟩ := Nat.exists_eq_add_one.mpr hw
  rw [rleDecodeFrom, if_pos hh]

theorem rleDecodeFrom_direct {p fuel w : Nat} {h : Byte} (hw : 0 < w) (hh : ¬ 128 ≤ h.toNat) (rest : List Byte) (u : Nat)
    (acc : List Byte) :
    rleDecodeFrom p (fuel + 1) w (h :: rest) u acc =
      if rest.length < min (h.toNat + 1) w * p then
        .readFailure (acc ++ rest.take (rest.length / p * p)) (u + 1 + rest.length)
      else rleDecodeFrom p fuel (w - min (h.toNat + 1) w) (rest.drop (min (h.toNat + 1) w * p))
        (u + 1 + min (h.toNat + 1) w * p) (acc ++ rest.take (min (h.toNat + 1) w * p)) := by
  obtain ⟨w, rfl⟩ := Nat.exists_eq_add_one.mpr hw
  rw [rleDecodeFrom, if_neg hh]

/-! ## The loop -/

/-- The loop of an RLE_DEC of `w` pixels, issued in `s`, has gone as the functional form says: through the line, or up to EOS
where that is presented (R161). What is in the run registers and the sample is left open. -/
def Decoded.PerformedBy (p w : Nat) (s : State) : Decoded → Flow → Prop
  | .ok px used, r => px.length = w * p ∧
      ∃ rep dir sample, r = .go (({ s with rep := rep, dir := dir, sample := sample } : State).decoded px used w)
  | .readFailure px used, r => s.inp.eos = true →
      ∃ rep dir sample part x, x < w ∧ px.length = x * p ∧ r = .raise .readFailure
        (({ s with rep := rep, dir := dir, sample := sample, part := part } : State).decoded px used x)

/-- Within a line of `w` pixels, with the `x` pixels `px` done: no InRead is under way, and no run is active unless the line
is complete (R152, R153). -/
structure State.Between (p w : Nat) (px : List Byte) (x : Nat) (s : State) : Prop where
  part   : s.part = []
  idle   : x < w → s.rep = 0 ∧ s.dir = 0
  pixels : px.length = x * p
  inLine : x ≤ w

/-- With this fuel the loop goes as the functional form says, between any two packets. -/
def LoopPerforms (p w fuel : Nat) : Prop :=
  ∀ (s : State) (px : List Byte) (used x : Nat), s.Between p w px x → w - x ≤ fuel →
    (rleDecodeFrom p fuel (w - x) (s.inp.bytes.drop used) used px).PerformedBy p w s
      (decodeLoop p w fuel (s.decoded px used x))

/-- A complete line is done (R153). -/
theorem decodeLoop_complete {p w fuel used : Nat} {px : List Byte} {s : State} (h : s.Between p w px w) (bytes : List Byte) :
    (rleDecodeFrom p fuel (w - w) bytes used px).PerformedBy p w s (decodeLoop p w fuel (s.decoded px used w)) := by
  rw [Nat.sub_self, rleDecodeFrom_done, decodeLoop_done (s := s.decoded px used w) (Nat.le_refl w)]
  exact ⟨h.pixels, s.rep, s.dir, s.sample, rfl⟩

/-- The turn of a repeat packet, and the loop behind it (R152, R161). -/
theorem repeatPacket_performedBy {p w fuel used x : Nat} {px rest : List Byte} {h : Byte} {s : State} (hp : 0 < p)
    (hloop : LoopPerforms p w fuel) (hs : s.Between p w px x) (hx : x < w) (hfuel : w - x ≤ fuel + 1)
    (hrest : s.inp.bytes.drop (used + 1) = rest) (hh : 128 ≤ h.toNat) :
    (rleDecodeFrom p (fuel + 1) (w - x) (h :: rest) used px).PerformedBy p w s
      ((emitRun p w (({ s with rep := h.toNat - 127, dir := 0 } : State).decoded px (used + 1) x)).andThen
        (decodeLoop p w fuel)) := by
  obtain ⟨hpart, -, hpx, -⟩ := hs
  have hrep : 0 < h.toNat - 127 := by omega
  rw [rleDecodeFrom_repeat (by omega) hh]
  by_cases hshort : rest.length < p
  · rw [if_pos hshort]
    intro heos
    rw [emitRun_repeat_decoded_short (s := { s with rep := h.toNat - 127, dir := 0 }) hrep hpart heos hrest hshort]
    exact ⟨_, _, _, _, x, hx, hpx, rfl⟩
  · have hin : p ≤ rest.length := Nat.not_lt.mp hshort
    have hnext : s.inp.bytes.drop (used + 1 + p) = rest.drop p := by rw [← List.drop_drop, hrest]
    rw [if_neg hshort, emitRun_repeat_decoded (s := { s with rep := h.toNat - 127, dir := 0 }) hp hpx hrep hpart hrest hin]
    generalize hk : min (h.toNat - 127) (w - x) = k
    rw [Nat.sub_sub, ← hnext]
    refine hloop { s with sample := rest.take p, rep := h.toNat - 127 - k, dir := 0 } _ _ _
      ⟨hpart, fun hleft => ⟨show h.toNat - 127 - k = 0 by omega, rfl⟩, ?_, by omega⟩ (by omega)
    simp [hpx, hin, Nat.add_mul]

/-- The turn of a direct packet, and the loop behind it (R152, R161). -/
theorem directPacket_performedBy {p w fuel used x : Nat} {px rest : List Byte} {h : Byte} {s : State} (hp : 0 < p)
    (hloop : LoopPerforms p w fuel) (hs : s.Between p w px x) (hx : x < w) (hfuel : w - x ≤ fuel + 1)
    (hrest : s.inp.bytes.drop (used + 1) = rest) (hh : ¬ 128 ≤ h.toNat) :
    (rleDecodeFrom p (fuel + 1) (w - x) (h :: rest) used px).PerformedBy p w s
      ((emitRun p w (({ s with rep := 0, dir := h.toNat + 1 } : State).decoded px (used + 1) x)).andThen
        (decodeLoop p w fuel)) := by
  obtain ⟨hpart, -, hpx, -⟩ := hs
  have hrun : emitRun p w (({ s with rep := 0, dir := h.toNat + 1 } : State).decoded px (used + 1) x) =
      emitDirect p (min (h.toNat + 1) (w - x)) (({ s with rep := 0, dir := h.toNat + 1 } : State).decoded px (used + 1) x) :=
    emitRun_direct rfl
  rw [rleDecodeFrom_direct (by omega) hh, hrun]
  generalize hk : min (h.toNat + 1) (w - x) = k
  by_cases hshort : rest.length < k * p
  · rw [if_pos hshort]
    intro heos
    obtain ⟨dir, part, hcut⟩ := emitDirect_decoded_short (s := { s with rep := 0, dir := h.toNat + 1 }) hp hpx hpart heos
      hrest hshort
    have hwhole : rest.length / p < k := Nat.div_lt_of_lt_mul (Nat.mul_comm k p ▸ hshort)
    refine ⟨_, _, _, _, x + rest.length / p, by omega, ?_, congrArg (Flow.andThen · _) hcut⟩
    simp [hpx, Nat.add_mul, Nat.div_mul_le_self]
  · have hin : k * p ≤ rest.length := Nat.not_lt.mp hshort
    have hnext : s.inp.bytes.drop (used + 1 + k * p) = rest.drop (k * p) := by rw [← List.drop_drop, hrest]
    rw [if_neg hshort, emitDirect_decoded (s := { s with rep := 0, dir := h.toNat + 1 }) hp hpx hpart hrest hin,
      Nat.sub_sub, ← hnext]
    refine hloop { s with rep := 0, dir := h.toNat + 1 - k } _ _ _
      ⟨hpart, fun hleft => ⟨rfl, show h.toNat + 1 - k = 0 by omega⟩, ?_, by omega⟩ (by omega)
    simp [hpx, hin, Nat.add_mul]

/-- The loop goes as the functional form says, with any fuel that covers the pixels left (R161). -/
theorem decodeLoop_performedBy {p : Nat} (hp : 0 < p) (w fuel : Nat) : LoopPerforms p w fuel := by
  induction fuel with
  | zero =>
    intro s px used x hs hfuel
    obtain rfl : x = w := Nat.le_antisymm hs.inLine (by omega)
    exact decodeLoop_complete hs _
  | succ fuel ih =>
    intro s px used x hs hfuel
    obtain rfl | hx := Nat.eq_or_lt_of_le hs.inLine
    · exact decodeLoop_complete hs _
    · rw [decodeLoop_turn (s := s.decoded px used x) hx]
      cases hrest : s.inp.bytes.drop used with
      | nil =>
        rw [rleDecodeFrom_eos (by omega)]
        intro heos
        rw [decodeTurn_decoded_eos hs.part (hs.idle hx) heos hrest]
        exact ⟨s.rep, s.dir, s.sample, s.part, x, hx, hs.pixels, rfl⟩
      | cons h rest =>
        have hnext : s.inp.bytes.drop (used + 1) = rest := by rw [← List.drop_drop, hrest, List.drop_one, List.tail_cons]
        rw [decodeTurn_decoded hs.part (hs.idle hx) hrest, State.openRun_eq]
        by_cases hh : 128 ≤ h.toNat
        · rw [if_pos hh]
          exact repeatPacket_performedBy hp ih hs hx hfuel hnext hh
        · rw [if_neg hh]
          exact directPacket_performedBy hp ih hs hx hfuel hnext hh

/-- The loop of an RLE_DEC just issued goes as `rle_decode` of the bytes on IN says (R161). -/
theorem State.Fresh.decodeLoop_performs {s : State} (hs : s.Fresh) {p : Nat} (hp : 0 < p) (w : Nat) :
    (rleDecode p w s.inp.bytes).PerformedBy p w s (decodeLoop p w w s) := by
  have hloop := decodeLoop_performedBy hp w w s [] 0 0
    ⟨hs.part, fun _ => ⟨hs.rep, hs.dir⟩, (Nat.zero_mul p).symm, Nat.zero_le w⟩ (Nat.le_refl _)
  rwa [hs.decoded_nil, List.drop_zero, Nat.sub_zero] at hloop

/-! ## The command -/

/-- Settles O48: the loop runs through the line as `rle_decode` says, and the end of the line closes its runs. -/
theorem rleDecIsRleDecode : Obligations.RleDecIsRleDecode := by
  unfold Obligations.RleDecIsRleDecode
  intro s pb n px used hs hm hwf hfit hdecode
  have hloop := hs.decodeLoop_performs (one_le_of_rleDec_wf hwf) n.toNat
  rw [hdecode] at hloop
  obtain ⟨-, rep, dir, sample, hgo⟩ := hloop
  refine ⟨sample, ?_⟩
  rw [exec_rleDec hs hwf hfit, hgo]
  simp [State.endLine, State.decoded, State.lineBase, lbStored_of_wf hm, hs.rep, hs.dir]

/-- The pixels decoded and the draws that spoil the rest of the line are one write of the line's range (R157, D23). -/
theorem State.spoilLine_decoded_lb {p w used x : Nat} {px : List Byte} (hpx : px.length = x * p) (s : State) :
    ((s.decoded px used x).spoilLine p w).lb = lbWrite s.lb s.lineBase (px ++ drawBytes s.draws ((w - x) * p)) := by
  rw [← lbWrite_lbStored, hpx]
  rfl

/-- Settles O49: the loop raises ReadFailure where `rle_decode` fails, within the line; the pixels done and the draws that
spoil the rest are one write of the line's range. -/
theorem rleDecAtEndOfStream : Obligations.RleDecAtEndOfStream := by
  unfold Obligations.RleDecAtEndOfStream
  intro s pb n px used hs hwf hfit heos hdecode
  have hp := one_le_of_rleDec_wf hwf
  have hloop := hs.decodeLoop_performs hp n.toNat
  rw [hdecode] at hloop
  obtain ⟨rep, dir, sample, part, x, hx, hpx, hraise⟩ := hloop heos
  have hlb := State.spoilLine_decoded_lb (w := n.toNat) (used := used) hpx
    { s with rep := rep, dir := dir, sample := sample, part := part }
  generalize hline : px ++ drawBytes s.draws ((n.toNat - x) * pb.toNat) = line at hlb
  have hlen : line.length = n.toNat * pb.toNat := by
    rw [← hline, List.length_append, drawBytes_length, hpx, ← Nat.add_mul, Nat.add_sub_cancel' (Nat.le_of_lt hx)]
  have hread := lbRead_lbWrite_same s.lb s.lineBase line
  rw [hlen] at hread
  refine ⟨_, by rw [exec_rleDec hs hwf hfit, hraise]; rfl, rfl, rfl, rfl, ?whole, ?shown, ?stored, ?spoilt, ?outside⟩
  case whole => rw [hpx, Nat.mul_mod_left]
  case shown =>
    rw [hpx, Nat.mul_div_cancel _ hp]
    rfl
  case stored =>
    have hdone : px.length + (n.toNat - x) * pb.toNat = n.toNat * pb.toNat := by
      rw [hpx, ← Nat.add_mul, Nat.add_sub_cancel' (Nat.le_of_lt hx)]
    rw [← hdone] at hread
    have hfirst := (lbRead_split hread).1
    rw [← hline, List.take_left] at hfirst
    exact (congrArg (lbRead · s.lineBase px.length) hlb).trans (hline ▸ hfirst)
  case spoilt => exact fun k hlow hhigh => isSome_lbGet_of_lbRead (hlb ▸ hread) hlow hhigh
  case outside => exact sameLbOutside_of_lbWrite hlb hlen

/-! ## Whole packets -/

theorem length_flatten_pixels {p : Nat} {run : List Pixel} (h : ∀ px ∈ run, px.length = p) :
    run.flatten.length = run.length * p := by
  induction run with
  | nil => simp
  | cons px run ih =>
    obtain ⟨hpx, hrest⟩ := List.forall_mem_cons.mp h
    rw [List.flatten_cons, List.length_append, hpx, ih hrest, List.length_cons, Nat.succ_mul, Nat.add_comm]

/-- A packet of `rle_decode` is its run, and the rest of the stream (R159, R160). -/
theorem rleDecodeFrom_packet {p fuel w : Nat} {kind : RunKind} {run : List Pixel} (hone : 1 ≤ run.length)
    (hmax : run.length ≤ 128) (hpixels : ∀ px ∈ run, px.length = p)
    (hequal : kind = .repeated → ∀ px ∈ run, run.head? = some px) (hw : run.length ≤ w) (bytes : List Byte) (u : Nat)
    (acc : List Byte) :
    rleDecodeFrom p (fuel + 1) w (streamBytes (kind, run) ++ bytes) u acc =
      rleDecodeFrom p fuel (w - run.length) bytes (u + (streamBytes (kind, run)).length) (acc ++ run.flatten) := by
  have hpos : 0 < w := by omega
  cases kind with
  | repeated =>
    obtain ⟨q, hhead⟩ : ∃ q, run.head? = some q :=
      Option.isSome_iff_exists.mp (by simpa using List.ne_nil_of_length_pos hone)
    have hrun : run = List.replicate run.length q :=
      List.eq_replicate_of_mem fun px hpx => Option.some.inj ((hequal rfl px hpx).symm.trans hhead)
    have hq : q.length = p := hpixels q (List.mem_of_mem_head? hhead)
    have hcount : (BitVec.ofNat 8 (127 + run.length)).toNat = 127 + run.length := by
      rw [BitVec.toNat_ofNat]
      omega
    rw [streamBytes, List.headD_eq_head?_getD, hhead, Option.getD_some, List.cons_append,
      rleDecodeFrom_repeat hpos (by omega), hcount, Nat.add_sub_cancel_left, Nat.min_eq_left hw, ← hq,
      if_neg (by simp), List.drop_left, List.take_left, ← hrun, List.length_cons, Nat.add_assoc u, Nat.add_comm 1]
  | direct =>
    have hlen := length_flatten_pixels hpixels
    have hcount : (BitVec.ofNat 8 (run.length - 1)).toNat + 1 = run.length := by
      rw [BitVec.toNat_ofNat]
      omega
    rw [streamBytes, List.cons_append, rleDecodeFrom_direct hpos (by omega), hcount, Nat.min_eq_left hw, ← hlen,
      if_neg (by simp), List.drop_left, List.take_left, List.length_cons, Nat.add_assoc u, Nat.add_comm 1]

/-- Packets that add up to the width are decoded whole (R159). -/
theorem rleDecodeFrom_packets {p fuel w : Nat} {packets : List (RunKind × List Pixel)}
    (hlegal : ∀ kind run, (kind, run) ∈ packets →
      1 ≤ run.length ∧ run.length ≤ 128 ∧ (∀ px ∈ run, px.length = p) ∧
      (kind = .repeated → ∀ px ∈ run, run.head? = some px))
    (hsum : (packets.map fun k => k.2.length).sum = w) (hfuel : w ≤ fuel) (extra : List Byte) (u : Nat) (acc : List Byte) :
    rleDecodeFrom p fuel w (packets.flatMap streamBytes ++ extra) u acc =
      .ok (acc ++ packets.flatMap fun k => k.2.flatten) (u + (packets.flatMap streamBytes).length) := by
  induction packets generalizing fuel w u acc with
  | nil =>
    obtain rfl : w = 0 := hsum.symm
    rw [rleDecodeFrom_done]
    simp
  | cons packet packets ih =>
    obtain ⟨kind, run⟩ := packet
    obtain ⟨hone, hmax, hpixels, hequal⟩ := hlegal kind run List.mem_cons_self
    simp only [List.map_cons, List.sum_cons] at hsum
    obtain ⟨fuel, rfl⟩ : ∃ f, fuel = f + 1 := Nat.exists_eq_add_one.mpr (by omega)
    rw [List.flatMap_cons, List.append_assoc, rleDecodeFrom_packet hone hmax hpixels hequal (by omega),
      ih (fun kind run h => hlegal kind run (List.mem_cons_of_mem _ h)) (by omega) (by omega)]
    simp only [List.flatMap_cons, List.length_append, List.append_assoc, Nat.add_assoc]

/-- Settles O51: `rle_decode` of the packets is their pixels. -/
theorem decodeConsumesWholePackets : Obligations.DecodeConsumesWholePackets := by
  unfold Obligations.DecodeConsumesWholePackets
  intro s pb n packets extra hs hwf hfit hlegal hsum hin
  have hloop := hs.decodeLoop_performs (one_le_of_rleDec_wf hwf) n.toNat
  rw [rleDecode, hin, rleDecodeFrom_packets hlegal hsum (Nat.le_refl _), List.nil_append, Nat.zero_add] at hloop
  obtain ⟨hpx, rep, dir, sample, hgo⟩ := hloop
  refine ⟨_, by rw [exec_rleDec hs hwf hfit, hgo]; rfl, rfl, ?rest, rfl, ?stored⟩
  case rest => simp [State.decoded, hin]
  case stored =>
    rw [← hpx]
    exact lbRead_lbStored _ _ _

end Sys2Proof.Machine
end

section
/-! PROOFS. The packets of a row (spec 43_rle_encode R182 to R185, R189, R190), apart from the machine.

`FirstRun` says where the algorithm of R182 stops its first run, and `Divided` that a list of packets is made of such runs from
the row's start to its end. The packets of R190 are one, and every law of R189 is read off the run at its place in the row. -/

namespace Sys2Proof.Machine

/-! ## Where a run stops -/

/-- The run R182 starts at the first pixel of `row` has this kind and length: it stops at the cap, or at the first comparison
of the other kind. Past the row's end `row[j]?` and its successor are both none, so a direct run stops there too. -/
inductive FirstRun (row : List Pixel) : RunKind → Nat → Prop
  | repeated {n : Nat} {px : Pixel} (two : 2 ≤ n) (cap : n ≤ maxRun) (equal : ∀ j < n, row[j]? = some px)
      (stop : n < maxRun → row[n]? ≠ some px) : FirstRun row .repeated n
  | direct {n : Nat} (one : 1 ≤ n) (cap : n ≤ maxRun) (differ : ∀ j < n, row[j]? ≠ row[j + 1]?)
      (stop : n < maxRun → row[n]? = row[n + 1]?) : FirstRun row .direct n

theorem FirstRun.one_le {row : List Pixel} {kind : RunKind} {n : Nat} (h : FirstRun row kind n) : 1 ≤ n := by
  cases h with
  | repeated two => exact Nat.le_of_succ_le two
  | direct one => exact one

theorem FirstRun.le_maxRun {row : List Pixel} {kind : RunKind} {n : Nat} (h : FirstRun row kind n) : n ≤ maxRun := by
  cases h <;> assumption

/-- A run ends within the row: its last pixel is there, for R182 compares it. -/
theorem FirstRun.le_length {row : List Pixel} {kind : RunKind} {n : Nat} (h : FirstRun row kind n) : n ≤ row.length := by
  refine Nat.le_of_not_lt fun hlen => ?_
  have hlast : row[n - 1]? = none := List.getElem?_eq_none (by omega)
  cases h with
  | repeated two cap equal => simp [equal (n - 1) (by omega)] at hlast
  | direct one cap differ =>
    refine differ (n - 1) (by omega) (hlast.trans ?_)
    rw [Nat.sub_add_cancel one, List.getElem?_eq_none (by omega)]

theorem FirstRun.length_take {row : List Pixel} {kind : RunKind} {n : Nat} (h : FirstRun row kind n) :
    (row.take n).length = n := List.length_take_of_le h.le_length

/-! ## The runs of R190 -/

/-- The identical-pixel run of R190 stops as R182's does. -/
theorem firstRun_sameLength {px : Pixel} {rest : List Pixel} (h : rest.head? = some px) :
    FirstRun (px :: rest) .repeated (sameLength px rest) := by
  have hsplit : px :: rest = List.replicate (1 + (rest.takeWhile (· == px)).length) px ++ rest.dropWhile (· == px) := by
    have hequal : rest.takeWhile (· == px) = List.replicate (rest.takeWhile (· == px)).length px :=
      List.eq_replicate_of_mem fun q hq => beq_iff_eq.mp (List.all_eq_true.mp List.all_takeWhile q hq)
    rw [Nat.add_comm, List.replicate_succ, List.cons_append, ← hequal, List.takeWhile_append_dropWhile]
  have hstop : (rest.dropWhile (· == px)).head? ≠ some px := by
    intro hhead
    have hnot := List.head?_dropWhile_not (· == px) rest
    simp [hhead] at hnot
  have htwo : 2 ≤ 1 + (rest.takeWhile (· == px)).length := by
    obtain ⟨tail, rfl⟩ := List.head?_eq_some_iff.mp h
    rw [List.takeWhile_cons_of_pos (p := (· == px)) (beq_self_eq_true px), List.length_cons]
    omega
  rw [hsplit]
  unfold sameLength
  generalize 1 + (rest.takeWhile (· == px)).length = m at *
  refine .repeated (px := px) (by simp only [maxRun]; omega) (Nat.min_le_left _ _) (fun j hj => ?_) (fun hcap => ?_)
  · have hjm : j < m := by omega
    rw [List.getElem?_append_left (by simpa using hjm), List.getElem?_replicate_of_lt hjm]
  · have hm : min maxRun m = m := by omega
    rw [hm, List.getElem?_append_right (by simp), List.length_replicate, Nat.sub_self, ← List.head?_eq_getElem?]
    exact hstop

/-- The last number below `k` that passes a test is the greatest. -/
theorem getLastD_filter_range {P : Nat → Bool} {k m : Nat} (hm : m < k) (hP : P m = true) :
    ∃ d, ((List.range k).filter P).getLastD 0 = d ∧ m ≤ d ∧ d < k ∧ P d = true ∧ ∀ j, d < j → j < k → P j = false := by
  induction k with
  | zero => omega
  | succ k ih =>
    rw [List.range_succ, List.filter_append]
    cases hk : P k with
    | true =>
      refine ⟨k, ?_, by omega, by omega, hk, fun j _ _ => by omega⟩
      rw [List.filter_cons_of_pos hk, List.filter_nil, List.getLastD_concat]
    | false =>
      have hne : m ≠ k := fun e => by simp [← e, hP] at hk
      obtain ⟨d, hd, hmd, hdk, hPd, hlast⟩ := ih (by omega)
      refine ⟨d, ?_, hmd, by omega, hPd, fun j hdj hjk => ?_⟩
      · rwa [List.filter_cons_of_neg (by simp [hk]), List.filter_nil, List.append_nil]
      · obtain rfl | hj := Nat.eq_or_lt_of_le (Nat.le_of_lt_succ hjk)
        · exact hk
        · exact hlast j hdj hj

/-- Within the row, the test of R190 is that no pixel of the run equals its successor. -/
theorem differsWithin_iff {row : List Pixel} {n : Nat} (hfirst : row[0]? ≠ row[1]?) (hn : n ≤ row.length) :
    differsWithin row n = true ↔ ∀ j < n, row[j]? ≠ row[j + 1]? := by
  simp only [differsWithin, List.all_eq_true, List.mem_range, Bool.or_eq_true, beq_iff_eq, Bool.not_eq_true',
    Bool.and_eq_false_iff, decide_eq_false_iff_not, beq_eq_false_iff_ne]
  refine forall₂_congr fun j hj => ⟨?_, fun h => .inr (.inr h)⟩
  rintro (rfl | hend | h)
  · exact hfirst
  · rw [List.getElem?_eq_none (Nat.not_lt.mp hend), List.getElem?_eq_getElem (by omega)]
    exact Option.some_ne_none _
  · exact h

/-- The differing-pixel run of R190, the longest its test admits, stops where R182's first does. -/
theorem firstRun_differLength {row : List Pixel} (hfirst : row[0]? ≠ row[1]?) : FirstRun row .direct (differLength row) := by
  have hpos : 1 ≤ row.length := List.length_pos_iff.mpr fun h => hfirst (by simp [h])
  have hone : (decide (1 ≤ 1) && differsWithin row 1) = true := by
    rw [decide_eq_true (Nat.le_refl 1), Bool.true_and, differsWithin_iff hfirst hpos]
    intro j hj
    obtain rfl : j = 0 := by omega
    exact hfirst
  obtain ⟨n, hlength, hn, hlt, hpass, hlast⟩ := getLastD_filter_range (k := min maxRun row.length + 1)
    (P := fun n => decide (1 ≤ n) && differsWithin row n) (m := 1) (by simp only [maxRun]; omega) hone
  have hdiffer := (differsWithin_iff hfirst (by omega)).mp (Bool.and_eq_true_iff.mp hpass).2
  rw [differLength, hlength]
  refine .direct hn (by omega) hdiffer fun hcap => ?_
  by_cases hend : n + 1 ≤ row.length
  · refine Decidable.byContradiction fun hne => ?_
    have hfail := hlast (n + 1) (Nat.lt_succ_self n) (by omega)
    rw [decide_eq_true (by omega), Bool.true_and, Bool.eq_false_iff] at hfail
    refine hfail ((differsWithin_iff hfirst hend).mpr fun j hj => ?_)
    obtain rfl | hj := Nat.eq_or_lt_of_le (Nat.le_of_lt_succ hj)
    · exact hne
    · exact hdiffer j hj
  · rw [List.getElem?_eq_none (by omega), List.getElem?_eq_none (by omega)]

/-! ## The division of a row -/

/-- The packets divide the row from its start to its end, each where R182 stops it. -/
inductive Divided : List Pixel → List (RunKind × List Pixel) → Prop
  | nil : Divided [] []
  | cons {row : List Pixel} {kind : RunKind} {n : Nat} {packets : List (RunKind × List Pixel)}
      (first : FirstRun row kind n) (rest : Divided (row.drop n) packets) : Divided row ((kind, row.take n) :: packets)

theorem divided_rlePacketsFrom {fuel : Nat} {row : List Pixel} (h : row.length ≤ fuel) :
    Divided row (rlePacketsFrom fuel row) := by
  induction fuel generalizing row with
  | zero =>
    obtain rfl : row = [] := List.length_eq_zero_iff.mp (by omega)
    exact .nil
  | succ fuel ih =>
    cases row with
    | nil => exact .nil
    | cons px rest =>
      have hshorter {kind : RunKind} {n : Nat} (hfirst : FirstRun (px :: rest) kind n) :
          ((px :: rest).drop n).length ≤ fuel := by
        have hn := hfirst.one_le
        rw [List.length_drop]
        omega
      rw [rlePacketsFrom]
      split
      · next hhead =>
        have hfirst := firstRun_sameLength hhead
        exact .cons hfirst (ih (hshorter hfirst))
      · next hhead =>
        have hfirst : FirstRun (px :: rest) .direct _ := firstRun_differLength fun h => hhead (by
          rw [List.head?_eq_getElem?]
          exact h.symm)
        exact .cons hfirst (ih (hshorter hfirst))

/-- The packets of R190 divide the row as R182 does. -/
theorem divided_rlePackets (row : List Pixel) : Divided row (rlePackets row) := divided_rlePacketsFrom (Nat.le_refl _)

/-- The packets cover the row, in order (R189). -/
theorem Divided.covers {row : List Pixel} {packets : List (RunKind × List Pixel)} (h : Divided row packets) :
    (packets.flatMap fun k => k.2) = row := by
  induction h with
  | nil => rfl
  | cons first rest ih => rw [List.flatMap_cons, ih, List.take_append_drop]

theorem Divided.sum_lengths {row : List Pixel} {packets : List (RunKind × List Pixel)} (h : Divided row packets) :
    (packets.map fun k => k.2.length).sum = row.length := by
  rw [← List.length_flatMap, h.covers]

/-- Each packet is the run R182 starts at its place in the row. -/
theorem Divided.run_at {row run : List Pixel} {kind : RunKind} {before after : List (RunKind × List Pixel)}
    (h : Divided row (before ++ (kind, run) :: after)) :
    FirstRun (row.drop (before.map fun k => k.2.length).sum) kind run.length ∧
      run = (row.drop (before.map fun k => k.2.length).sum).take run.length := by
  induction before generalizing row with
  | nil =>
    cases h with
    | cons first rest => simpa [first.length_take] using first
  | cons packet before ih =>
    cases h with
    | cons first rest =>
      rw [List.map_cons, List.sum_cons, first.length_take, ← List.drop_drop]
      exact ih rest

/-- Each packet is a run of 1 to 128 pixels of the row (R189). -/
theorem Divided.run_of_mem {row run : List Pixel} {kind : RunKind} {packets : List (RunKind × List Pixel)}
    (h : Divided row packets) (hmem : (kind, run) ∈ packets) : ∃ i, FirstRun (row.drop i) kind run.length ∧
      run = (row.drop i).take run.length := by
  obtain ⟨before, after, rfl⟩ := List.append_of_mem hmem
  exact ⟨_, h.run_at⟩

/-! ## The laws of R189 -/

/-- A repeat packet's pixels are one pixel, and the pixel after a run below the cap is another, if there is one (R189). -/
theorem FirstRun.pixels_equal {row run : List Pixel} (h : FirstRun row .repeated run.length)
    (htake : run = row.take run.length) :
    (∀ px ∈ run, run.head? = some px) ∧ (run.length < maxRun → row[run.length]? ≠ run.head?) := by
  cases h with
  | @repeated _ px two cap equal stop =>
    have hhead : run.head? = some px := by
      rw [htake, List.head?_take, if_neg (by omega), List.head?_eq_getElem?]
      exact equal 0 (by omega)
    rw [hhead]
    refine ⟨fun q hq => ?_, stop⟩
    rw [htake] at hq
    obtain ⟨j, hj, rfl⟩ := List.mem_take_iff_getElem.mp hq
    rw [← equal j (by omega), List.getElem?_eq_getElem]

theorem FirstRun.differ {row : List Pixel} {n j : Nat} (h : FirstRun row .direct n) (hj : j < n) : row[j]? ≠ row[j + 1]? := by
  cases h with
  | direct one cap differ => exact differ j hj

/-- No header is 0x80: a repeat packet has two pixels or more (R185). -/
theorem FirstRun.header_ne {row run : List Pixel} {kind : RunKind} (h : FirstRun row kind run.length) :
    (streamBytes (kind, run)).head? ≠ some 0x80 := by
  have hcap : run.length ≤ 128 := h.le_maxRun
  have hheader {v : Nat} (hv : v < 256) (hne : v ≠ 128) : some (BitVec.ofNat 8 v) ≠ some 0x80 := by
    rw [ne_eq, Option.some.injEq, ← BitVec.toNat_inj, BitVec.toNat_ofNat, Nat.mod_eq_of_lt hv]
    exact hne
  cases h with
  | repeated two => exact hheader (by omega) (by omega)
  | direct one => exact hheader (by omega) (by omega)

theorem Divided.pixel_mem {row run : List Pixel} {kind : RunKind} {packets : List (RunKind × List Pixel)}
    (h : Divided row packets) (hmem : (kind, run) ∈ packets) {px : Pixel} (hpx : px ∈ run) : px ∈ row := by
  rw [← h.covers]
  exact List.mem_flatMap.mpr ⟨_, hmem, hpx⟩

/-- The length of a packet on the stream, for pixels of `p` bytes (R183, R184). -/
def packetSize (p : Nat) (k : RunKind × List Pixel) : Nat := if k.1 = .repeated then 1 + p else 1 + k.2.length * p

theorem length_streamBytes {p : Nat} {kind : RunKind} {run : List Pixel} (hone : 1 ≤ run.length)
    (hpixels : ∀ px ∈ run, px.length = p) : (streamBytes (kind, run)).length = packetSize p (kind, run) := by
  cases kind with
  | repeated =>
    obtain ⟨px, rest, rfl⟩ := List.exists_cons_of_length_pos hone
    simp [streamBytes, packetSize, hpixels, Nat.add_comm]
  | direct => simp [streamBytes, packetSize, length_flatten_pixels hpixels, Nat.add_comm]

theorem length_rleEncode {p : Nat} {row : List Pixel} (hpixels : ∀ px ∈ row, px.length = p) :
    (rleEncode row).length = ((rlePackets row).map (packetSize p)).sum := by
  rw [rleEncode, List.length_flatMap]
  refine congrArg List.sum (List.map_congr_left fun ⟨kind, run⟩ hmem => ?_)
  obtain ⟨i, hrun, -⟩ := (divided_rlePackets row).run_of_mem hmem
  exact length_streamBytes hrun.one_le fun px hpx => hpixels px ((divided_rlePackets row).pixel_mem hmem hpx)

/-- A packet has a header and a pixel, and at most a header for each pixel (R84). -/
theorem packetSize_bounds (p : Nat) {k : RunKind × List Pixel} (hone : 1 ≤ k.2.length) :
    1 + p ≤ packetSize p k ∧ packetSize p k ≤ k.2.length * (1 + p) := by
  have hpixel : p ≤ k.2.length * p := Nat.le_mul_of_pos_left p hone
  rw [packetSize, Nat.mul_add]
  split <;> omega

/-- Each packet covers at most 128 pixels (R84, R189). -/
theorem Divided.length_le {row : List Pixel} {packets : List (RunKind × List Pixel)} (h : Divided row packets) :
    row.length ≤ 128 * packets.length := by
  induction h with
  | nil => exact Nat.zero_le _
  | @cons row kind n packets first rest ih =>
    have hcap : n ≤ 128 := first.le_maxRun
    rw [List.length_drop] at ih
    rw [List.length_cons]
    omega

/-- The stream has at least a header and a pixel for each packet, and at most a header and a pixel for each pixel (R84,
R189). -/
theorem Divided.size_bounds {row : List Pixel} {packets : List (RunKind × List Pixel)} (h : Divided row packets) (p : Nat) :
    packets.length * (1 + p) ≤ (packets.map (packetSize p)).sum ∧
      (packets.map (packetSize p)).sum ≤ row.length * (1 + p) := by
  induction h with
  | nil => exact ⟨Nat.le_of_eq (Nat.zero_mul _), Nat.zero_le _⟩
  | @cons row kind n packets first rest ih =>
    obtain ⟨hlow, hhigh⟩ := packetSize_bounds p (k := (kind, row.take n)) (by rw [first.length_take]; exact first.one_le)
    rw [first.length_take] at hhigh
    have hrow : row.length * (1 + p) = n * (1 + p) + (row.drop n).length * (1 + p) := by
      rw [← Nat.add_mul, List.length_drop, Nat.add_sub_cancel' first.le_length]
    rw [List.length_cons, Nat.succ_mul, List.map_cons, List.sum_cons, hrow, Nat.add_comm _ (1 + p)]
    exact ⟨Nat.add_le_add hlow ih.1, Nat.add_le_add hhigh ih.2⟩

theorem rleEncode_length_bounds {p : Nat} {row : List Pixel} (hpixels : ∀ px ∈ row, px.length = p) :
    (row.length + 127) / 128 * (1 + p) ≤ (rleEncode row).length ∧ (rleEncode row).length ≤ row.length * (1 + p) := by
  have hdiv := divided_rlePackets row
  obtain ⟨hlow, hhigh⟩ := hdiv.size_bounds p
  have hcount : (row.length + 127) / 128 ≤ (rlePackets row).length := by
    have hcover := hdiv.length_le
    omega
  rw [length_rleEncode hpixels]
  exact ⟨Nat.le_trans (Nat.mul_le_mul_right _ hcount) hlow, hhigh⟩

/-- Settles O54: the packets divide the row as R182 does, and each law is read off the run at its place. -/
theorem encodingProperties : Obligations.EncodingProperties := by
  unfold Obligations.EncodingProperties
  intro p row hp hpixels
  have hdiv := divided_rlePackets row
  refine ⟨fun ⟨kind, run⟩ hmem => ?header, fun ⟨kind, run⟩ hmem => ?bounds, hdiv.covers, ?direct, ?repeated,
    length_rleEncode hpixels, fun _ => rleEncode_length_bounds hpixels⟩
  case header =>
    obtain ⟨i, hrun, -⟩ := hdiv.run_of_mem hmem
    exact hrun.header_ne
  case bounds =>
    obtain ⟨i, hrun, -⟩ := hdiv.run_of_mem hmem
    exact ⟨hrun.one_le, hrun.le_maxRun⟩
  case direct =>
    intro before run after hsplit j hj
    have hdiffer := (Divided.run_at (hsplit ▸ hdiv)).1.differ hj
    rwa [List.getElem?_drop, List.getElem?_drop, ← Nat.add_assoc] at hdiffer
  case repeated =>
    intro before run after hsplit
    obtain ⟨hrun, htake⟩ := Divided.run_at (hsplit ▸ hdiv)
    rw [← List.getElem?_drop]
    exact hrun.pixels_equal htake

end Sys2Proof.Machine
end

section
/-! PROOFS. RLE_ENC against its functional form `rle_encode` (spec 43_rle_encode R180 to R188).

The encode loop over a row stored in LB sends, one after another, the packets that divide the row (`sendPackets`): each turn
stops its run where R182 does. What OUT then does is followed packet by packet: it accepts them all, or refuses a byte inside
one of them. -/

namespace Sys2Proof.Machine

/-! ## The scanline in LB -/

/-- The line of the command in flight is this row of pixels of `p` bytes (R12, R180). -/
structure State.HoldsRow (s : State) (p : Nat) (row : List Pixel) : Prop where
  pixels : ∀ px ∈ row, px.length = p
  stored : lbRead s.lb s.lineBase (row.length * p) = .ok row.flatten

theorem length_flatten_take {p i : Nat} {row : List Pixel} (h : ∀ px ∈ row, px.length = p) (hi : i ≤ row.length) :
    (row.take i).flatten.length = i * p := by
  rw [length_flatten_pixels fun px hpx => h px (List.mem_of_mem_take hpx), List.length_take_of_le hi]

theorem flatten_take_drop (row : List Pixel) (i : Nat) : row.flatten = (row.take i).flatten ++ (row.drop i).flatten := by
  rw [← List.flatten_append, List.take_append_drop]

theorem take_flatten_pixels {p i : Nat} {row : List Pixel} (h : ∀ px ∈ row, px.length = p) (hi : i ≤ row.length) :
    row.flatten.take (i * p) = (row.take i).flatten := by
  rw [flatten_take_drop row i, ← length_flatten_take h hi, List.take_left]

theorem drop_flatten_pixels {p i : Nat} {row : List Pixel} (h : ∀ px ∈ row, px.length = p) (hi : i ≤ row.length) :
    row.flatten.drop (i * p) = (row.drop i).flatten := by
  rw [flatten_take_drop row i, ← length_flatten_take h hi, List.drop_left]

/-- A MemRead of some of the line's pixels. -/
theorem State.HoldsRow.read {s : State} {p i n : Nat} {row : List Pixel} (h : s.HoldsRow p row) (hin : i + n ≤ row.length) :
    lbRead s.lb (s.lineBase + i * p) (n * p) = .ok ((row.drop i).take n).flatten := by
  have hfit : i * p + n * p ≤ row.length * p := by
    rw [← Nat.add_mul]
    exact Nat.mul_le_mul_right p hin
  rw [lbRead_sub h.stored hfit, drop_flatten_pixels h.pixels (by omega),
    take_flatten_pixels (fun px hpx => h.pixels px (List.mem_of_mem_drop hpx)) (by rw [List.length_drop]; omega)]

theorem State.HoldsRow.pix {s : State} {p i : Nat} {row : List Pixel} {px : Pixel} (h : s.HoldsRow p row)
    (hget : row[i]? = some px) : s.pix p i = .ok px := by
  obtain ⟨hi, rfl⟩ := List.getElem?_eq_some_iff.mp hget
  have hread := h.read (i := i) (n := 1) hi
  rwa [Nat.one_mul, List.drop_eq_getElem_cons hi, List.take_succ_cons, List.take_zero, List.flatten_singleton] at hread

/-! ## A turn of the loop -/

/-- A pixel of the line equals its successor where the row says so (R181, R182). -/
theorem equalsNext_row {s : State} {p j : Nat} {row : List Pixel} (h : s.HoldsRow p row) (hj : j < row.length) :
    equalsNext s p row.length j = .ok (decide (row[j]? = row[j + 1]?)) := by
  rw [equalsNext]
  split
  · next hnext =>
    have hthis := List.getElem?_eq_getElem hj
    have hsucc := List.getElem?_eq_getElem hnext
    have hbeq : (row[j] == row[j + 1]) = decide (some row[j] = some row[j + 1]) := by
      rw [Bool.eq_iff_iff, beq_iff_eq, decide_eq_true_iff, Option.some.injEq]
    rw [h.pix hthis, h.pix hsucc, hthis, hsucc, ← hbeq]
  · next hend =>
    rw [List.getElem?_eq_getElem hj, List.getElem?_eq_none (Nat.not_lt.mp hend)]
    rfl

/-- The identical-pixel loop of R182 stops at `m`, where the row does. -/
theorem sameRun_row {s : State} {p i fuel n m : Nat} {px : Pixel} {row : List Pixel} (h : s.HoldsRow p row) (hn : n ≤ m)
    (hm : m ≤ n + fuel) (hequal : ∀ j, n ≤ j → j < m → row[i + j]? = some px)
    (hstop : m < n + fuel → row[i + m]? ≠ some px) : sameRun s p row.length i px fuel n = .ok m := by
  induction fuel generalizing n with
  | zero =>
    obtain rfl : n = m := by omega
    rfl
  | succ fuel ih =>
    rw [sameRun]
    obtain rfl | hlt := Nat.eq_or_lt_of_le hn
    · have hdiffer := hstop (by omega)
      split
      · next hin =>
        have hget := List.getElem?_eq_getElem hin
        rw [hget, ne_eq, Option.some.injEq] at hdiffer
        rw [h.pix hget]
        exact if_neg hdiffer
      · rfl
    · have hget := hequal n (Nat.le_refl n) hlt
      have hin := (List.getElem?_eq_some_iff.mp hget).1
      rw [if_pos hin, h.pix hget]
      exact (if_pos rfl).trans (ih hlt (by omega) (fun j hj => hequal j (by omega)) fun hmore => hstop (by omega))

/-- The differing-pixel loop of R182 stops at `m`, where the row does. -/
theorem differRun_row {s : State} {p i fuel n m : Nat} {row : List Pixel} (h : s.HoldsRow p row) (hn : n ≤ m)
    (hm : m ≤ n + fuel) (hline : i + m ≤ row.length) (hdiffer : ∀ j, n ≤ j → j < m → row[i + j]? ≠ row[i + j + 1]?)
    (hstop : m < n + fuel → row[i + m]? = row[i + m + 1]?) : differRun s p row.length i fuel n = .ok m := by
  induction fuel generalizing n with
  | zero =>
    obtain rfl : n = m := by omega
    rfl
  | succ fuel ih =>
    rw [differRun]
    obtain rfl | hlt := Nat.eq_or_lt_of_le hn
    · split
      · next hin => rw [equalsNext_row h hin, decide_eq_true (hstop (by omega))]
      · rfl
    · rw [if_pos (by omega), equalsNext_row h (by omega), decide_eq_false (hdiffer n (Nat.le_refl n) hlt)]
      exact ih hlt (by omega) (fun j hj => hdiffer j (by omega)) fun hmore => hstop (by omega)

/-- The header of a packet of `n` pixels: 128 + n - 1 or n - 1 (R183, R184). -/
theorem packHeader_eq_ofNat {n : Nat} (hone : 1 ≤ n) (hcap : n ≤ maxRun) (t : Bool) :
    packHeader t (BitVec.ofNat 7 (n - 1)) = BitVec.ofNat 8 (if t then 127 + n else n - 1) := by
  simp only [maxRun] at hcap
  apply BitVec.eq_of_toNat_eq
  rw [packHeader, BitVec.toNat_append, ← Nat.shiftLeft_add_eq_or_of_lt (BitVec.isLt _), Nat.shiftLeft_eq]
  cases t <;> simp <;> omega

/-- The next packet of the machine is the run R182 starts at its pixel, as R190 puts it on the stream. -/
theorem nextPacket_row {s : State} {p i n : Nat} {row : List Pixel} {kind : RunKind} (h : s.HoldsRow p row)
    (hrun : FirstRun (row.drop i) kind n) :
    nextPacket s p row.length i = .ok (kind, n, streamBytes (kind, (row.drop i).take n)) := by
  have hone := hrun.one_le
  have hcap := hrun.le_maxRun
  have hlength := hrun.length_take
  have hline := hrun.le_length
  rw [List.length_drop] at hline
  have hheader := packHeader_eq_ofNat hone hcap
  rw [nextPacket, equalsNext_row h (by omega)]
  cases hrun with
  | @repeated _ px two cap equal stop =>
    simp only [List.getElem?_drop] at equal stop
    have hfirst : row[i]? = some px := equal 0 (by omega)
    have hhead : ((row.drop i).take n).head? = some px := by
      rw [List.head?_take, if_neg (by omega), List.head?_drop, hfirst]
    have hsame : sameRun s p row.length i px (maxRun - 2) 2 = .ok n :=
      sameRun_row h two (by simp only [maxRun] at *; omega) (fun j _ => equal j)
        fun hmore => stop (by simp only [maxRun] at *; omega)
    rw [decide_eq_true (hfirst.trans (equal 1 two).symm), h.pix hfirst]
    simp [hsame, packetBytes, hheader, streamBytes, hlength, hhead]
  | direct one cap differ stop =>
    simp only [List.getElem?_drop] at differ stop
    have hdiffer : differRun s p row.length i (maxRun - 1) 1 = .ok n :=
      differRun_row h one (by simp only [maxRun] at *; omega) (by omega) (fun j _ => differ j)
        fun hmore => stop (by simp only [maxRun] at *; omega)
    rw [decide_eq_false (show row[i]? ≠ row[i + 1]? from differ 0 one)]
    simp [hdiffer, h.read (i := i) (n := n) (by omega), packetBytes, hheader, streamBytes, hlength]

/-! ## The loop -/

/-- The encoder with the packet it sends next chosen (R33, R182). -/
def State.choosing (k : RunKind × List Pixel) (s : State) : State :=
  { s with enc := { s.enc with n := k.2.length, kind := k.1 } }

/-- Packets sent whole, one after another (R182). -/
def sendPackets : List (RunKind × List Pixel) → State → Flow
  | [], s => .go s
  | k :: packets, s => (outWrite (streamBytes k) (s.choosing k)).andThen fun t => sendPackets packets t.packetSent

/-- An OutWrite that goes on has given its bytes and changed nothing beside OUT and its count (R11, R53). -/
theorem outWrite_eq_go {bs : List Byte} {s t : State} (h : outWrite bs s = .go t) :
    ∃ cap answers, t = s.afterGiving bs cap answers [] := by
  obtain ⟨given, rest, cap, answers, rfl, ⟨rfl, e⟩ | ⟨-, e⟩ | ⟨-, e⟩⟩ := outWrite_cases bs s
  · rw [e, Flow.go.injEq] at h
    exact ⟨cap, answers, by rw [← h, List.append_nil]⟩
  · rw [e] at h
    cases h
  · rw [e] at h
    cases h

theorem Flow.andThen_congr {r : Flow} {f g : State → Flow} (h : ∀ t, r = .go t → f t = g t) :
    r.andThen f = r.andThen g := by
  cases r with
  | go t => exact h t rfl
  | wait t => rfl
  | raise k t => rfl
  | unwritten a => rfl

/-- The encode loop sends the packets that divide what is left of the row (R182, R190). -/
theorem encodeLoop_row {s : State} {p fuel : Nat} {row : List Pixel} {packets : List (RunKind × List Pixel)}
    (h : s.HoldsRow p row) (hpend : s.pend = []) (hdiv : Divided (row.drop s.enc.i) packets)
    (hfuel : row.length - s.enc.i ≤ fuel) : encodeLoop p row.length fuel s = sendPackets packets s := by
  induction packets generalizing s fuel with
  | nil =>
    have hdone : row.length - s.enc.i = 0 := by rw [← List.length_drop, ← hdiv.sum_lengths]; rfl
    cases fuel with
    | zero => rfl
    | succ fuel => exact if_neg (by omega)
  | cons packet packets ih =>
    generalize hrow : row.drop s.enc.i = rest at hdiv
    cases hdiv with
    | @cons _ kind n _ hrun hdiv =>
      subst hrow
      have hone := hrun.one_le
      have hline := hrun.le_length
      have hlength := hrun.length_take
      rw [List.length_drop] at hline
      obtain ⟨fuel, rfl⟩ : ∃ f, fuel = f + 1 := Nat.exists_eq_add_one.mpr (by omega)
      have hturn : sendPacket p row.length s = outWrite (streamBytes (kind, (row.drop s.enc.i).take n))
          (s.choosing (kind, (row.drop s.enc.i).take n)) := by
        rw [sendPacket, if_pos hpend, nextPacket_row h hrun, State.choosing, hlength]
      rw [encodeLoop, if_pos (by omega), hturn, sendPackets]
      refine Flow.andThen_congr fun t ht => ?_
      obtain ⟨cap, answers, rfl⟩ := outWrite_eq_go ht
      have hi : s.enc.i + ((row.drop s.enc.i).take n).length = s.enc.i + n := by rw [hlength]
      rw [List.drop_drop, ← hi] at hdiv
      exact ih ⟨h.pixels, h.stored⟩ rfl hdiv (by simp only [State.packetSent, State.afterGiving, State.choosing]; omega)

/-! ## What OUT does with the packets -/

/-- The state after a packet has been sent whole (R182). -/
def State.sentPacket (k : RunKind × List Pixel) (s : State) : State :=
  { s.choosing k with
    out := s.out.afterSending (streamBytes k)
    outcnt := s.outcnt + BitVec.ofNat 32 (streamBytes k).length
    pend := [] }.packetSent

theorem sendPackets_sentPacket {s : State} {k : RunKind × List Pixel} {packets : List (RunKind × List Pixel)}
    (hout : s.out.accepts (streamBytes k).length) :
    sendPackets (k :: packets) s = sendPackets packets (s.sentPacket k) := by
  rw [sendPackets, outWrite_accepts (s := s.choosing k) hout, Flow.go_andThen]
  rfl

/-- OUT accepts every packet (R180, R182). -/
theorem sendPackets_accepts {s : State} {packets : List (RunKind × List Pixel)} (hpend : s.pend = [])
    (hpix : s.pixcnt = BitVec.ofNat 32 s.enc.i) (hout : s.out.accepts (packets.flatMap streamBytes).length) :
    ∃ n kind, sendPackets packets s = .go { s with
      out := s.out.afterSending (packets.flatMap streamBytes)
      outcnt := s.outcnt + BitVec.ofNat 32 (packets.flatMap streamBytes).length
      enc := { i := s.enc.i + (packets.map fun k => k.2.length).sum, n := n, kind := kind }
      pixcnt := BitVec.ofNat 32 (s.enc.i + (packets.map fun k => k.2.length).sum) } := by
  induction packets generalizing s with
  | nil => exact ⟨s.enc.n, s.enc.kind, by simp [sendPackets, OutPort.afterSending, ← hpix]⟩
  | cons k packets ih =>
    rw [List.flatMap_cons, List.length_append] at hout
    obtain ⟨n, kind, hrest⟩ := ih (s := s.sentPacket k) rfl rfl (OutPort.accepts_afterSending hout rfl)
    refine ⟨n, kind, ?_⟩
    rw [sendPackets_sentPacket (OutPort.accepts_of_add hout), hrest]
    simp only [State.sentPacket, State.choosing, State.packetSent, OutPort.afterSending_append, counter_add, hpend,
      List.flatMap_cons, List.length_append, List.map_cons, List.sum_cons, Nat.add_assoc]

/-- OUT refuses the byte after the first `c`: it is a byte of a packet, and those before that one have been sent whole
(R187). -/
theorem sendPackets_refused {s : State} {packets : List (RunKind × List Pixel)} {c : Nat} (hpend : s.pend = [])
    (hpix : s.pixcnt = BitVec.ofNat 32 s.enc.i) (hout : s.out.refusesAfter c (packets.flatMap streamBytes).length) :
    ∃ whole k cut, packets = whole ++ k :: cut ∧ (whole.flatMap streamBytes).length ≤ c ∧
      c < (whole.flatMap streamBytes).length + (streamBytes k).length ∧
      sendPackets packets s = .raise .writeFailure { s with
        out := { sent := s.out.sent ++ (packets.flatMap streamBytes).take c, cap := some 0,
                 answers := s.out.answers.map (· - (c + 1)) }
        outcnt := s.outcnt + BitVec.ofNat 32 c
        enc := { i := s.enc.i + (whole.map fun k => k.2.length).sum, n := k.2.length, kind := k.1 }
        pixcnt := BitVec.ofNat 32 (s.enc.i + (whole.map fun k => k.2.length).sum) } := by
  induction packets generalizing s c with
  | nil => exact absurd hout.2.1 (Nat.not_lt_zero c)
  | cons k packets ih =>
    rw [List.flatMap_cons, List.length_append] at hout
    by_cases hc : c < (streamBytes k).length
    · refine ⟨[], k, packets, rfl, Nat.zero_le c, by simpa using hc, ?_⟩
      rw [sendPackets, outWrite_refused (s := s.choosing k) ⟨hout.1, hc, hout.2.2⟩]
      simp [State.choosing, hpend, ← hpix, List.take_append_of_le_length (Nat.le_of_lt hc)]
    · have hle : (streamBytes k).length ≤ c := Nat.not_lt.mp hc
      obtain ⟨whole, j, cut, hsplit, hwhole, hcut, hrest⟩ :=
        ih (s := s.sentPacket k) rfl rfl (OutPort.refusesAfter_afterSending hout rfl hle)
      have hanswers : (streamBytes k).length + (c - (streamBytes k).length + 1) = c + 1 := by omega
      refine ⟨k :: whole, j, cut, by rw [hsplit, List.cons_append], ?_, ?_, ?_⟩
      · rw [List.flatMap_cons, List.length_append]
        omega
      · rw [List.flatMap_cons, List.length_append]
        omega
      · rw [sendPackets_sentPacket (OutPort.accepts_of_refusesAfter hout hle), hrest]
        simp only [State.sentPacket, State.choosing, State.packetSent, OutPort.afterSending, counter_add, hpend,
          Nat.add_sub_cancel' hle, List.flatMap_cons, List.take_append, List.take_of_length_le hle, List.append_assoc,
          Option.map_map, Function.comp_def, Nat.sub_sub, hanswers, List.map_cons, List.sum_cons, Nat.add_assoc]

/-- Packets that have all left have left in order, whatever OUT presented (R182). -/
theorem sendPackets_sent {s t : State} {packets : List (RunKind × List Pixel)} (h : sendPackets packets s = .go t) :
    t.out.sent = s.out.sent ++ packets.flatMap streamBytes := by
  induction packets generalizing s with
  | nil =>
    cases h
    exact (List.append_nil _).symm
  | cons k packets ih =>
    obtain ⟨u, hwrite, hrest⟩ := Flow.andThen_eq_go h
    obtain ⟨cap, answers, rfl⟩ := outWrite_eq_go hwrite
    rw [ih hrest, List.flatMap_cons, ← List.append_assoc]
    rfl

/-! ## The command -/

/-- The loop of an RLE_ENC just issued on a row stored in LB sends the packets of R190 (R182). -/
theorem State.Fresh.encodeLoop_sends {s : State} (hs : s.Fresh) {p : Nat} {row : List Pixel} (hrow : s.HoldsRow p row) :
    encodeLoop p row.length (row.length - s.enc.i) s = sendPackets (rlePackets row) s := by
  have hi : s.enc.i = 0 := by rw [hs.enc]
  refine encodeLoop_row hrow hs.pend ?_ (Nat.le_refl _)
  rw [hi, List.drop_zero]
  exact divided_rlePackets row

/-- RLE_ENC just issued with legal operands on a row stored in LB: the packets of the row, sent one after another (R180,
R190). -/
theorem exec_rleEnc_row {s : State} {pb : BitVec 3} {n : BitVec 24} {row : List Pixel} (hs : s.Fresh)
    (hwf : (Instr.rleEnc pb n).wf = true) (hfit : s.lat.base.toNat + n.toNat * pb.toNat ≤ s.cfg.lbSize)
    (hn : row.length = n.toNat) (hrow : s.HoldsRow pb.toNat row) :
    exec (.rleEnc pb n) s = (sendPackets (rlePackets row) s).settle State.finish := by
  rw [exec, execRleEnc, checked_of_wf _ hwf fun _ hlen => Option.some.inj hlen ▸ hfit, ← hn, hs.encodeLoop_sends hrow]

/-- PIXCNT of a command that has just been issued shows the encoder's place (R28, R34). -/
theorem State.Fresh.pixcnt_eq_encoder {s : State} (hs : s.Fresh) : s.pixcnt = BitVec.ofNat 32 s.enc.i := by
  rw [hs.pixcnt, hs.enc]
  rfl

/-- Settles O52: the command sends the packets of R190, and OUT accepts them all. -/
theorem rleEncIsRleEncode : Obligations.RleEncIsRleEncode := by
  unfold Obligations.RleEncIsRleEncode
  intro s pb n row hs hwf hfit hn hpixels hstored hout
  have hrow : s.HoldsRow pb.toNat row := ⟨hpixels, hn ▸ hstored⟩
  obtain ⟨k, kind, hsend⟩ := sendPackets_accepts hs.pend hs.pixcnt_eq_encoder hout
  refine ⟨k, kind, ?_⟩
  rw [exec_rleEnc_row hs hwf hfit hn hrow, hsend, Flow.go_settle]
  simp [rleEncode, (divided_rlePackets row).sum_lengths, hn, hs.enc, hs.outcnt]

/-- Settles O53: the command sends the packets of R190, and OUT refuses a byte of one of them. -/
theorem rleEncRefused : Obligations.RleEncRefused := by
  unfold Obligations.RleEncRefused
  intro s pb n row c hs hwf hfit hn hpixels hstored hout
  have hrow : s.HoldsRow pb.toNat row := ⟨hpixels, hn ▸ hstored⟩
  obtain ⟨whole, k, cut, hsplit, hwhole, hcut, hsend⟩ := sendPackets_refused hs.pend hs.pixcnt_eq_encoder hout
  rw [exec_rleEnc_row hs hwf hfit hn hrow, hsend, Flow.raise_settle]
  refine ⟨_, whole, k :: cut, rfl, rfl, ?counted, rfl, rfl, hsplit, ?shown, hwhole, ?refused⟩
  case counted => simp [hs.outcnt]
  case shown => simp [hs.enc]
  case refused =>
    intro j hj
    obtain rfl : k = j := Option.some.inj hj
    exact hcut

/-! ## The round trip -/

theorem Status.failed_ne_finished {f : Status} (h : f.err = false) (k : ErrorKind) : f.failed k ≠ f.finished := by
  intro e
  have herr : true = f.err := congrArg Status.err e
  rw [h] at herr
  cases herr

theorem State.Fresh.err {s : State} (hs : s.Fresh) : s.status.err = false := by
  rw [hs.status]
  rfl

/-- A command just issued that ends without a fault has passed its checks, and its body has run through (R87, R213, R214). -/
theorem State.Fresh.checked_finished {s t : State} {i : Instr} {body : State → Flow} (hs : s.Fresh)
    (hbody : (body s).Running s.status) (h : checked i s body = .next t) (hfin : t.status = s.status.finished) :
    operandFault i s = none ∧ ∃ u, body s = .go u ∧ t = u.finish := by
  rw [checked] at h
  split at h
  · next k hk =>
    cases h
    exact absurd hfin (Status.failed_ne_finished hs.err k)
  · next hpass =>
    obtain ⟨u, hgo, rfl⟩ | ⟨k, u, hraise, rfl⟩ := Flow.settle_eq_next h
    · exact ⟨hpass, u, hgo, rfl⟩
    · rw [hraise] at hbody
      rw [State.raiseFault_status, hbody.2] at hfin
      exact absurd hfin (Status.failed_ne_finished hs.err k)

/-- Any bytes of `w` pixels are a row of `w` pixels. -/
theorem exists_row_of_bytes {w p : Nat} {bytes : List Byte} (h : bytes.length = w * p) :
    ∃ row : List Pixel, row.flatten = bytes ∧ row.length = w ∧ ∀ px ∈ row, px.length = p := by
  induction w generalizing bytes with
  | zero =>
    obtain rfl : bytes = [] := List.length_eq_zero_iff.mp (by rw [h, Nat.zero_mul])
    exact ⟨[], rfl, rfl, nofun⟩
  | succ w ih =>
    rw [Nat.succ_mul] at h
    obtain ⟨row, hrow, hlength, hpixels⟩ := ih (bytes := bytes.drop p) (by rw [List.length_drop]; omega)
    have hfirst : (bytes.take p).length = p := List.length_take_of_le (by omega)
    refine ⟨bytes.take p :: row, ?_, congrArg (· + 1) hlength, List.forall_mem_cons.mpr ⟨hfirst, hpixels⟩⟩
    rw [List.flatten_cons, hrow, List.take_append_drop]

/-- The packets of a row are packets as a decoder takes them (R159, R189). -/
theorem rlePackets_legal {p : Nat} {row run : List Pixel} {kind : RunKind} (hpixels : ∀ px ∈ row, px.length = p)
    (hmem : (kind, run) ∈ rlePackets row) :
    1 ≤ run.length ∧ run.length ≤ 128 ∧ (∀ px ∈ run, px.length = p) ∧
      (kind = .repeated → ∀ px ∈ run, run.head? = some px) := by
  have hdiv := divided_rlePackets row
  obtain ⟨i, hrun, htake⟩ := hdiv.run_of_mem hmem
  refine ⟨hrun.one_le, hrun.le_maxRun, fun px hpx => hpixels px (hdiv.pixel_mem hmem hpx), ?_⟩
  rintro rfl
  exact (hrun.pixels_equal htake).1

/-- Settles O55: what RLE_ENC gave OUT is the packets of the line's row, and RLE_DEC takes whole packets. -/
theorem encodeDecodeRoundTrip : Obligations.EncodeDecodeRoundTrip := by
  unfold Obligations.EncodeDecodeRoundTrip
  intro pb n s t u line enc extra hs hline hexec hfin hsent hu hfit hin
  obtain ⟨row, rfl, hn, hpixels⟩ := exists_row_of_bytes (length_of_lbRead hline)
  have hrow : s.HoldsRow pb.toNat row := ⟨hpixels, hn ▸ hline⟩
  obtain ⟨hpass, v, hgo, rfl⟩ := hs.checked_finished (encodeLoop_running _ _ _ rfl) hexec hfin
  have hwf : (Instr.rleDec pb n).wf = true := ((operandFault_none (.rleEnc pb n) s).mp hpass).1
  have hdiv := divided_rlePackets row
  have henc : enc = (rlePackets row).flatMap streamBytes := by
    rw [← hn, hs.encodeLoop_sends hrow] at hgo
    have hgiven : v.out.sent = _ := sendPackets_sent hgo
    exact List.append_cancel_left (hsent.symm.trans hgiven)
  have hbytes : row.flatten = (rlePackets row).flatMap fun k => k.2.flatten := by
    have hcovers : row.flatten = ((rlePackets row).flatMap fun k => k.2).flatten := by rw [hdiv.covers]
    simp only [hcovers, ← List.flatMap_id, List.flatMap_assoc]
  subst henc
  rw [hbytes]
  exact decodeConsumesWholePackets u pb n (rlePackets row) extra hu hwf hfit (fun kind run => rlePackets_legal hpixels)
    (hdiv.sum_lengths.trans hn) hin

end Sys2Proof.Machine
end

section
/-! PROOFS. Entry into a fault and normal completion (spec 60_exceptions R211, R213, R214).

Both ends of a command change STATUS and the model's record of codes, and nothing else. Either leaves the TSCU idle, and an
idle TSCU with nothing scheduled stays as it is. -/

namespace Sys2Proof.Machine

/-- With nothing scheduled an idle TSCU does nothing (R241). -/
theorem step_of_idle {s : State} (hnil : s.agenda = []) (hidle : s.status.busy = false) : step s = .next s := by
  rw [step_of_nil hnil, handleEvent, hidle]
  rfl

/-- A busy TSCU records no fault: BUSY excludes ERR, and ECODE is 0 where ERR is (R24). -/
theorem Status.noFault_of_busy {f : Status} (h : f.consistent = true) (hbusy : f.busy = true) :
    f.err = false ∧ f.ecode = 0 := by
  simp only [Status.consistent, Bool.and_eq_true, beq_iff_eq] at h
  obtain ⟨⟨hrunning, -⟩, hcode⟩ := h
  obtain ⟨-, herr⟩ : f.done = false ∧ f.err = false := by simpa [hbusy] using hrunning
  exact ⟨herr, by simpa [herr] using hcode⟩

/-- Settles O27: `raise Fault(kind)` writes STATUS and the record only, and leaves BUSY cleared. -/
theorem faultEntry : Obligations.FaultEntry := by
  unfold Obligations.FaultEntry
  refine ⟨fun k s => ⟨s.ecodes ++ [k.code], rfl⟩, rfl, fun k s hnil => ?_⟩
  exact step_of_idle (s := s.raiseFault k) hnil rfl

/-- Settles O28: completion keeps ERR and ECODE, and the invariant has both at 0 while a command runs. -/
theorem normalCompletion : Obligations.NormalCompletion := by
  unfold Obligations.NormalCompletion
  refine fun s => ⟨⟨s.ecodes ++ [s.status.ecode], rfl⟩, fun hinv hbusy => ?_⟩
  exact Status.noFault_of_busy (f := s.status) hinv.consistent hbusy

end Sys2Proof.Machine
end

section
/-! PROOFS. Reset, the host's duties and the end of a run (spec 70_reset_and_hazards R240 to R249, R253).

A reset while powered is `State.resetTo` over the LB that `State.lbAfterReset` leaves, so only that LB needs an argument: its
bytes are said once for a busy TSCU, and the obligation's cases differ in the length of the abandoned range. A duty the host
breaks is refused by the guard of its move. The record `outcomeRead` is followed event by event: running a command keeps the
host's view of the state, and of the host's own moves only a read of STATUS sets it. -/

namespace Sys2Proof.Machine

/-! ## An idle TSCU -/

/-- Settles O8: the rule `step_of_idle`. -/
theorem idleStepChangesNothing : Obligations.IdleStepChangesNothing := by
  unfold Obligations.IdleStepChangesNothing
  exact fun s hidle hnil => step_of_idle hnil hidle

/-! ## LB after a reset while powered -/

theorem lbAfterReset_of_idle {s : State} (h : s.status.busy = false) : s.lbAfterReset = s.lb := by
  simp [State.lbAfterReset, h]

/-- The range of an abandoned command is UNWRITTEN, and every other byte is kept (R240). -/
theorem lbGet_lbAfterReset_of_busy {s : State} (h : s.status.busy = true) (k : Nat) :
    lbGet s.lbAfterReset k =
      if s.lineBase ≤ k ∧ k < s.lineBase + s.lat.lbLength then none else lbGet s.lb k := by
  rw [State.lbAfterReset, if_pos h, lbGet_lbErase]

/-- A command that uses no LB abandons no byte of it (R240). -/
theorem lbGet_lbAfterReset_of_no_range {s : State} (h : s.status.busy = true) (hlen : s.lat.lbLength = 0) (k : Nat) :
    lbGet s.lbAfterReset k = lbGet s.lb k := by
  have hempty : ¬ (s.lineBase ≤ k ∧ k < s.lineBase + 0) := by omega
  rw [lbGet_lbAfterReset_of_busy h, hlen, if_neg hempty]

/-- A reserved OP has no LB range (R78, R240). -/
theorem Latch.lbLength_of_reserved {l : Latch} (h : opTable l.op l.pb l.n = none) : l.lbLength = 0 := by
  rw [Latch.lbLength, h]

/-- The range of a latched command is that of the instruction its OP selects (R77, R240). -/
theorem Latch.lbLength_of_opTable {l : Latch} {i : Instr} (h : opTable l.op l.pb l.n = some i) :
    l.lbLength = (Machine.lbLength i).getD 0 := by
  rw [Latch.lbLength, h]

/-- Settles O17: the event leads to the state of `resetInput`, and the four cases of LB are those of the latched range. -/
theorem resetWhilePowered : Obligations.ResetWhilePowered := by
  unfold Obligations.ResetWhilePowered
  intro s rest hreset
  refine ⟨({ s with agenda := rest } : State).resetInput, ?_, rfl, rfl, rfl, rfl, rfl, rfl, rfl, rfl, rfl, rfl, rfl, rfl,
    rfl, rfl, rfl, rfl, rfl, fun hidle => ?_, fun hbusy hnone => ?_, fun i hbusy hrow hlen => ?_,
    fun i len hbusy hrow hlen => ?_⟩
  · rw [step_of_cons hreset, handleEvent]
  · exact lbAfterReset_of_idle hidle
  · exact lbGet_lbAfterReset_of_no_range hbusy (Latch.lbLength_of_reserved hnone)
  · have hzero : s.lat.lbLength = 0 := by rw [Latch.lbLength_of_opTable hrow, hlen, Option.getD_none]
    exact lbGet_lbAfterReset_of_no_range hbusy hzero
  · have hrange : s.lat.lbLength = len := by rw [Latch.lbLength_of_opTable hrow, hlen, Option.getD_some]
    rw [← hrange]
    exact lbGet_lbAfterReset_of_busy hbusy

/-! ## The host's duties -/

theorem hostLbRead_busy {s : State} (h : s.status.busy = true) (a : Nat) :
    hostLbRead a s = .refused .lbAccessWhileBusy := if_pos h

theorem hostLbWrite_busy {s : State} (h : s.status.busy = true) (a : Nat) (b : Byte) :
    hostLbWrite a b s = .refused .lbAccessWhileBusy := if_pos h

/-- An access that is not 32 bits wide, or not at a multiple of 4, has the wrong form (R56). -/
theorem not_regAccessOk {offset width : Nat} (h : width ≠ 4 ∨ offset % 4 ≠ 0) : ¬ regAccessOk offset width = true := by
  simp only [regAccessOk, Bool.and_eq_true, beq_iff_eq]
  omega

theorem hostRegRead_of_wrong_form {offset width : Nat} (h : ¬ regAccessOk offset width = true) (s : State) :
    hostRegRead offset width s = .refused .regAccessForm := if_pos h

theorem hostRegWrite_of_wrong_form {offset width : Nat} (h : ¬ regAccessOk offset width = true) (v : Word) (s : State) :
    hostRegWrite offset width v s = .refused .regAccessForm := if_pos h

/-- Settles O15: each of these moves meets the guard that refuses it. -/
theorem hostDutiesHaveNoMove : Obligations.HostDutiesHaveNoMove := by
  unfold Obligations.HostDutiesHaveNoMove
  refine ⟨fun s rest hbusy => ⟨fun v h => ?_, fun v h => ?_, fun a h => ?_, fun a b h => ?_⟩,
    fun s rest offset width hform => ⟨fun h => ?_, fun v h => ?_⟩⟩ <;> rw [step_of_cons h]
  · exact hostRegWrite_cmd_busy (s := { s with agenda := rest }) hbusy v
  · exact hostRegWrite_base_busy (s := { s with agenda := rest }) hbusy v
  · exact hostLbRead_busy (s := { s with agenda := rest }) hbusy a
  · exact hostLbWrite_busy (s := { s with agenda := rest }) hbusy a b
  · exact hostRegRead_of_wrong_form (not_regAccessOk hform) _
  · exact hostRegWrite_of_wrong_form (not_regAccessOk hform) v _

/-! ## The end of a run -/

/-- A run has ended where nothing is scheduled, BUSY = 0 and the outcome has been read: an idle TSCU's step is no fault that
would say otherwise (R253). -/
theorem observe_eq_ended {s : State} {o : Observation} :
    s.observe = .ended o ↔ s.agenda = [] ∧ s.status.busy = false ∧ s.outcomeRead = true ∧ o = s.visible := by
  constructor
  · intro h
    unfold State.observe at h
    split at h
    case h_1 => cases h
    case h_2 => cases h
    case h_3 =>
      split at h
      case isTrue hend =>
        cases h
        obtain ⟨hnil, hidle, hread⟩ := hend
        exact ⟨hnil, hidle, hread, rfl⟩
      case isFalse => cases h
  · rintro ⟨hnil, hidle, hread, rfl⟩
    rw [State.observe, step_of_idle hnil hidle]
    exact if_pos ⟨hnil, hidle, hread⟩

theorem observe_of_unwrittenRead {s : State} {a : Nat} (h : step s = .fault (.modelUnwrittenRead a)) :
    s.observe = .noEndState := by
  rw [State.observe, h]

theorem outcomeRead_of_hostView {s t : State} (h : t.hostView = s.hostView) : t.outcomeRead = s.outcomeRead := by
  simp only [State.hostView, Prod.mk.injEq] at h
  obtain ⟨-, -, -, -, -, -, -, hread⟩ := h
  exact hread

/-- What the TSCU does only while BUSY = 1 keeps the record, if its busy move keeps the host's view (R241). -/
theorem busyMove_outcomeRead {move : State → Host.Outcome State Fault Refusal} {s t : State}
    (hm : move s = .next t → t.hostView = s.hostView) (h : (if s.status.busy then move s else .next s) = .next t) :
    t.outcomeRead = s.outcomeRead := by
  split at h
  · exact outcomeRead_of_hostView (hm h)
  · cases h
    rfl

/-- Only a read of STATUS with BUSY = 0 sees an outcome (R218, R244). -/
theorem State.seesOutcome_eq_true {s : State} {offset : Nat} :
    s.seesOutcome offset = true ↔ offset = 0x04 ∧ s.status.busy = false := by
  simp [State.seesOutcome]

/-- A REG read that has a next state sets the record only as a read of STATUS with BUSY = 0 (R244). -/
theorem hostRegRead_outcomeRead {offset width : Nat} {s t : State} (h : hostRegRead offset width s = .next t)
    (hunread : s.outcomeRead = false) :
    t.outcomeRead = false ∨ (s.status.busy = false ∧ offset = 0x04 ∧ width = 4) := by
  obtain ⟨hok, -, ⟨-, rfl⟩ | ⟨-, rfl⟩⟩ := hostRegRead_eq_next h
  · exact .inl hunread
  · cases hsees : s.seesOutcome offset with
    | false => exact .inl (by simp only [hunread, Bool.or_false])
    | true =>
      obtain ⟨hstatus, hidle⟩ := State.seesOutcome_eq_true.mp hsees
      have hwidth : width = 4 := by simpa [regAccessOk, hstatus] using hok
      exact .inr ⟨hidle, hstatus, hwidth⟩

/-- An outcome not yet read stays unread, unless the event is a read of STATUS with BUSY = 0 (R244). -/
theorem handleEvent_outcomeRead {e : Event} {s t : State} (h : handleEvent e s = .next t)
    (hunread : s.outcomeRead = false) :
    t.outcomeRead = false ∨ (s.status.busy = false ∧ e = .regRead 0x04 4) := by
  have hk := hostView_keptByCommands s
  cases e with
  | regRead offset width =>
    obtain hkept | ⟨hidle, rfl, rfl⟩ := hostRegRead_outcomeRead h hunread
    · exact .inl hkept
    · exact .inr ⟨hidle, rfl⟩
  | run => exact .inl ((busyMove_outcomeRead (fun hr => runLatched_keeps hk rfl (.inl hr)) h).trans hunread)
  | transfer =>
    have hmove (hr : transferLatched s = .next t) := runLatched_keeps hk rfl (transferLatched_eq_next.mp hr)
    exact .inl ((busyMove_outcomeRead hmove h).trans hunread)
  | packet => exact .inl ((busyMove_outcomeRead (fun hr => runPacket_keeps hk rfl (.inl hr)) h).trans hunread)
  | regWrite offset width v =>
    obtain ⟨-, -, ⟨-, -, rfl⟩ | ⟨-, -, rfl⟩ | ⟨-, -, rfl⟩⟩ := hostRegWrite_eq_next h
    · exact .inl (State.issue_outcomeRead v s)
    · exact .inl hunread
    · exact .inl hunread
  | lbWrite a b => obtain ⟨-, -, rfl⟩ := hostLbWrite_eq_next h; exact .inl hunread
  | lbRead a => obtain ⟨-, -, ⟨b, -, rfl⟩ | ⟨-, rfl⟩⟩ := hostLbRead_eq_next h <;> exact .inl hunread
  | inArrive bs => obtain ⟨-, rfl⟩ := inputArrives_eq_next h; exact .inl hunread
  | outCapacity cap => obtain ⟨-, rfl⟩ := outputCapacity_eq_next h; exact .inl hunread
  | reset => cases h; exact .inl (State.resetTo_outcomeRead s.lbAfterReset s)
  | powerOn => cases h; exact .inl (State.resetTo_outcomeRead [] s)
  | inEos => cases h; exact .inl hunread
  | inPlace bs eos => cases h; exact .inl hunread
  | outAnswers k => cases h; exact .inl hunread

/-- A step that reads an outcome not yet read is a scheduled read of STATUS with BUSY = 0 (R244). -/
theorem step_reads_outcome {s t : State} (h : step s = .next t) (hunread : s.outcomeRead = false)
    (hread : t.outcomeRead = true) : s.status.busy = false ∧ ∃ rest, s.agenda = .regRead 0x04 4 :: rest := by
  have hset : ¬ t.outcomeRead = false := by rw [hread]; decide
  cases hagenda : s.agenda with
  | nil =>
    rw [step_of_nil hagenda] at h
    obtain ⟨-, hrun⟩ := (handleEvent_outcomeRead h hunread).resolve_left hset
    cases hrun
  | cons e rest =>
    rw [step_of_cons hagenda] at h
    obtain ⟨hidle, rfl⟩ := (handleEvent_outcomeRead h hunread).resolve_left hset
    exact ⟨hidle, rest, rfl⟩

/-- Settles O60: the end of a run by `observe_eq_ended`, whose observation is the registers of `visible`, and the record by
following it through a step. -/
theorem runEndsWhenOutcomeIsRead : Obligations.RunEndsWhenOutcomeIsRead := by
  unfold Obligations.RunEndsWhenOutcomeIsRead
  exact ⟨fun _ _ => observe_eq_ended, fun _ _ => observe_of_unwrittenRead, fun _ _ => step_reads_outcome⟩

end Sys2Proof.Machine
end

section
/-! PROOFS. A command as one transition (spec 20_memory R52, R57, R58, 30_encoding R77, R87, 70_reset R249, R251).

Every instruction but the two packets is a body behind the operand checks (`exec_checked`), and that body leaves STATUS alone.
So what the checks say of a command (O29), that a next state is its end, and that a wait changes no STATUS (O59) are each said
once for all of them. O6 and O16 are a step of the TSCU and two steps of its host. -/

namespace Sys2Proof.Machine

/-! ## The operand checks -/

/-- Every instruction but a packet runs its body behind the operand checks, and the body leaves STATUS alone (R37, R87). -/
theorem exec_checked (i : Instr) (s : State) :
    (∃ c, i = .pktRepeat c ∨ i = .pktDirect c) ∨
      ∃ body : State → Flow, exec i s = checked i s body ∧ (body s).Running s.status := by
  cases i with
  | le16Unpack pb n =>
    rw [exec, execLe16Unpack]
    exact .inr ⟨_, rfl, inRead_running rfl 2 fun bs u hu => (storeResult_status bs u).trans hu⟩
  | le16Pack pb n =>
    rw [exec, execLe16Pack]
    exact .inr ⟨_, rfl, outWrite_running rfl _⟩
  | rawRd pb n =>
    rw [exec, execRawRd]
    exact .inr ⟨_, rfl, (rawRdLoop_running _ _ rfl).spoilLine _ _⟩
  | rawWr pb n =>
    rw [exec, execRawWr]
    exact .inr ⟨_, rfl, rawWrLoop_running _ _ rfl⟩
  | swap pb n =>
    rw [exec, execSwap]
    exact .inr ⟨_, rfl, memRead_running fun _ => rfl⟩
  | expand pb n =>
    rw [exec, execExpand]
    exact .inr ⟨_, rfl, memRead_running fun _ => rfl⟩
  | rleDec pb n =>
    rw [exec, execRleDec]
    exact .inr ⟨_, rfl, ((decodeLoop_running _ _ _ rfl).spoilLine _ _).andThen fun _ => id⟩
  | rleEnc pb n =>
    rw [exec, execRleEnc]
    exact .inr ⟨_, rfl, encodeLoop_running _ _ _ rfl⟩
  | pktRepeat c => exact .inl ⟨c, .inl rfl⟩
  | pktDirect c => exact .inl ⟨c, .inr rfl⟩

/-- An instruction whose operands do not pass raises the first check's fault and does nothing else (R87, R215). -/
theorem exec_of_operandFault {i : Instr} {s : State} {k : ErrorKind} (h : operandFault i s = some k) :
    exec i s = .next (s.raiseFault k) := by
  obtain ⟨c, rfl | rfl⟩ | ⟨body, hexec, -⟩ := exec_checked i s
  · cases h
  · cases h
  · rw [hexec, checked_of_fault body h]

/-- The PB check comes first (R87). -/
theorem exec_of_pbFault {i : Instr} {k : ErrorKind} (h : pbFault i = some k) (s : State) :
    exec i s = .next (s.raiseFault k) :=
  exec_of_operandFault (by rw [operandFault, h, Option.some_or])

/-- The N check comes second (R87). -/
theorem exec_of_nFault {i : Instr} {k : ErrorKind} (hpb : i.pbLegal = true) (h : nFault i = some k) (s : State) :
    exec i s = .next (s.raiseFault k) :=
  exec_of_operandFault (by rw [operandFault, (pbFault_none i).mpr hpb, h, Option.none_or, Option.some_or])

/-- The LB range check comes last (R58, R87). -/
theorem exec_of_rangeFault {i : Instr} {len : Nat} {s : State} (hpb : i.pbLegal = true) (hn : i.nLegal = true)
    (hlen : lbLength i = some len) (hpast : s.cfg.lbSize < s.lat.base.toNat + len) :
    exec i s = .next (s.raiseFault .outOfMemory) := by
  have hrange : rangeFault i s = some .outOfMemory := by
    rw [rangeFault, hlen]
    exact if_pos hpast
  exact exec_of_operandFault (by
    rw [operandFault, (pbFault_none i).mpr hpb, (nFault_none i).mpr hn, hrange, Option.none_or, Option.none_or])

/-- The checks of the four scanline commands (R77). -/
theorem scanline_checks {i : Instr} {pb : BitVec 3} {n : BitVec 24}
    (hi : i ∈ [Instr.rawRd pb n, .rawWr pb n, .rleDec pb n, .rleEnc pb n]) :
    pbFault i = lineWidthFault pb ∧ nFault i = lineCountFault n ∧ lbLength i = some (n.toNat * pb.toNat) := by
  simp only [List.mem_cons, List.not_mem_nil, or_false] at hi
  obtain rfl | rfl | rfl | rfl := hi <;> exact ⟨rfl, rfl, rfl⟩

/-- Settles O29: each clause is one of the three checks, with those before it passed. -/
theorem operandFaults : Obligations.OperandFaults := by
  unfold Obligations.OperandFaults
  intro s pb n
  have hswap (h : pb = 3 ∨ pb = 4) : (Instr.swap pb n).pbLegal = true := by simpa [Instr.pbLegal] using h
  have hexpand (h : pb = 2) : (Instr.expand pb n).pbLegal = true := by simpa [Instr.pbLegal] using h
  refine ⟨fun i hi => ?scanline, fun h3 h4 => ?swapPb, fun h hn => ?swapN, fun h hn hpast => ?swapRange, fun h => ?expandPb,
    fun h hn => ?expandN, fun h hn hpast => ?expandRange, fun h => exec_le16Unpack_illegal h s,
    fun h => exec_le16Pack_illegal h s⟩
  case scanline =>
    obtain ⟨hpb, hn, hlen⟩ := scanline_checks hi
    have hpbLegal (h1 : 1 ≤ pb.toNat) (h4 : pb.toNat ≤ 4) : i.pbLegal = true :=
      (pbFault_none i).mp (hpb.trans ((lineWidthFault_none pb).mpr ⟨h1, h4⟩))
    have hnLegal (h : n.toNat ≤ 65535) : i.nLegal = true :=
      (nFault_none i).mp (hn.trans ((lineCountFault_none n).mpr h))
    refine ⟨fun h => ?_, fun h1 h4 h => ?_, fun h1 h4 h hpast => ?_⟩
    · exact exec_of_pbFault (hpb.trans (if_pos h)) s
    · exact exec_of_nFault (hpbLegal h1 h4) (hn.trans (if_pos h)) s
    · exact exec_of_rangeFault (hpbLegal h1 h4) (hnLegal h) hlen hpast
  case swapPb => exact exec_of_pbFault (i := .swap pb n) (if_pos ⟨h3, h4⟩) s
  case swapN => exact exec_of_nFault (hswap h) (if_pos hn) s
  case swapRange => exact exec_of_rangeFault (hswap h) (beq_iff_eq.mpr hn) rfl hpast
  case expandPb => exact exec_of_pbFault (i := .expand pb n) (if_pos h) s
  case expandN => exact exec_of_nFault (hexpand h) (if_pos hn) s
  case expandRange => exact exec_of_rangeFault (hexpand h) (beq_iff_eq.mpr hn) rfl hpast

/-! ## The end of a command, and its wait -/

/-- No command word is a packet header (R76). -/
theorem decodeCommand_ne_packet {v : Word} {i : Instr} (h : decodeCommand v = .ok i) (c : BitVec 7) :
    ¬ (i = .pktRepeat c ∨ i = .pktDirect c) := by
  have hrow := encode_of_opTable (decodeCommand_eq_ok h).1
  rintro (rfl | rfl) <;> cases hrow

/-- A wait leaves STATUS alone (R52, R249). -/
theorem checked_waits_status {i : Instr} {s t : State} {body : State → Flow} (hbody : (body s).Running s.status)
    (h : checked i s body = .fault (.portSilent t)) : t.status = s.status := by
  unfold checked at h
  split at h
  · cases h
  · rw [Flow.settle_eq_portSilent.mp h] at hbody
    exact hbody

/-- A command of a word that decodes has ended where it has a next state, and is as busy as before where it waits (R249,
R251). -/
theorem exec_command {v : Word} {i : Instr} (hi : decodeCommand v = .ok i) (s t : State) :
    (exec i s = .next t → t.status.busy = false) ∧ (exec i s = .fault (.portSilent t) → t.status = s.status) := by
  obtain ⟨c, hc⟩ | ⟨body, hexec, hbody⟩ := exec_checked i s
  · exact absurd hc (decodeCommand_ne_packet hi c)
  · rw [hexec]
    exact ⟨checked_eq_next_ended, checked_waits_status hbody⟩

theorem runLatched_of_decode {s : State} {i : Instr} (hi : decodeCommand s.lat.word = .ok i) : runLatched s = exec i s := by
  rw [runLatched, hi]

theorem observe_of_portSilent {s t : State} (h : step s = .fault (.portSilent t)) : s.observe = .hang := by
  rw [State.observe, h]

/-- Where the ports' progress is scheduled, a busy TSCU makes it (R52, log 3). -/
theorem handleEvent_transfer_of_busy {s : State} (h : s.status.busy = true) : handleEvent .transfer s = transferLatched s := by
  simp only [handleEvent, h, if_true]

theorem transferLatched_of_silent {s t : State} (h : runLatched s = .fault (.portSilent t)) : transferLatched s = .next t := by
  rw [transferLatched, h]

/-- Where the ports let the command end, their progress is the command's one transition (R251). -/
theorem transferLatched_of_not_silent {s : State} (h : ∀ t, runLatched s ≠ .fault (.portSilent t)) :
    transferLatched s = runLatched s := by
  unfold transferLatched
  split
  · next t ht => exact absurd ht (h t)
  · rfl

/-- Settles O59: the step is the command, run or transferred, and `exec_command` says what its end and its wait are. -/
theorem commandIsOneTransition : Obligations.CommandIsOneTransition := by
  unfold Obligations.CommandIsOneTransition
  intro s i rest hbusy hi
  have hlatched : runLatched { s with agenda := rest } = exec i { s with agenda := rest } := runLatched_of_decode hi
  refine ⟨fun t => (exec_command hi s t).1, fun t hnil hwait => ?unscheduled, fun t hrun hwait => ?run,
    fun htransfer => ?transfer⟩
  case unscheduled =>
    have hstep : step s = .fault (.portSilent t) := by rw [step_of_nil hnil, handleEvent_run_of_decode hbusy hi, hwait]
    exact ⟨hstep, observe_of_portSilent hstep⟩
  case run =>
    have hstep : step s = .fault (.portSilent t) := by
      rw [step_of_cons hrun, handleEvent_run_of_decode (s := { s with agenda := rest }) hbusy hi, hwait]
    exact ⟨hstep, observe_of_portSilent hstep⟩
  case transfer =>
    rw [step_of_cons htransfer, handleEvent_transfer_of_busy (s := { s with agenda := rest }) hbusy, ← hlatched]
    refine ⟨fun t hwait => ⟨transferLatched_of_silent hwait, ?_⟩, transferLatched_of_not_silent⟩
    exact (exec_command hi { s with agenda := rest } t).2 (hlatched.symm.trans hwait)

/-! ## A packet step -/

/-- Where a header is read next and IN has a byte, the packet of that byte runs (R152, log 5). -/
theorem runPacket_of_header {s : State} {h : Byte} {rest : List Byte} (hat : s.atHeader = true)
    (hin : s.inp.bytes = h :: rest) : runPacket s = exec (decodeHeader h) (s.tookHeader rest) := by
  rw [runPacket, if_pos hat, hin]

/-- Settles O6: an RLE_DEC at a header is in flight, so the packet event runs the packet. -/
theorem stepRunsPacketHeader : Obligations.StepRunsPacketHeader := by
  unfold Obligations.StepRunsPacketHeader
  intro s h bytes rest hat hpacket hin
  obtain ⟨hbusy, -⟩ := State.command_of_atHeader hat
  rw [step_of_cons hpacket]
  simp only [handleEvent, hbusy, if_true]
  exact runPacket_of_header (s := { s with agenda := rest }) hat hin

/-! ## Two moves of the host at LB -/

theorem hostLbWrite_idle {a : Nat} {s : State} (hidle : s.status.busy = false) (ha : a < s.cfg.lbSize) (b : Byte) :
    hostLbWrite a b s = .next { s with lb := lbWrite s.lb a [b] } := by
  rw [hostLbWrite, hidle, if_neg Bool.false_ne_true, if_neg (Nat.not_le.mpr ha)]

/-- A host read of a byte returns it, or a draw where it is UNWRITTEN, and leaves LB alone (R50, R67). -/
theorem hostLbRead_idle {k : Nat} {s : State} (hidle : s.status.busy = false) (hk : k < s.cfg.lbSize) :
    ∃ u, hostLbRead k s = .next u ∧ u.lb = s.lb ∧ u.agenda = s.agenda ∧
      u.reads = s.reads ++ [((lbGet s.lb k).getD (Config.drawByte s.draws)).setWidth 32] := by
  rw [hostLbRead, hidle, if_neg Bool.false_ne_true, if_neg (Nat.not_le.mpr hk)]
  cases lbGet s.lb k <;> exact ⟨_, rfl, rfl, rfl, rfl⟩

theorem lbGet_lbWrite_byte (m : Memory) (a k : Nat) (b : Byte) :
    lbGet (lbWrite m a [b]) k = if k = a then some b else lbGet m k := by
  rw [lbGet_lbWrite]
  by_cases h : k = a
  · simp [h]
  · rw [if_neg h, if_neg (by simp; omega)]

/-- Settles O16: the write changes one byte of LB, and the read returns what LB then holds. -/
theorem hostLbWriteThenRead : Obligations.HostLbWriteThenRead := by
  unfold Obligations.HostLbWriteThenRead
  intro s a k b rest hidle ha hk hmoves
  have hbyte := lbGet_lbWrite_byte s.lb a
  let t : State := { s with agenda := rest, lb := lbWrite s.lb a [b] }
  obtain ⟨u, hread, hlb, hrest, hreads⟩ := hostLbRead_idle (s := t) hidle hk
  refine ⟨{ t with agenda := .lbRead k :: rest }, u, ?write, ?read, hlb, hrest, ?same, ?other, ?written, ?old, ?free⟩
  case write =>
    rw [step_of_cons hmoves]
    exact hostLbWrite_idle (s := { s with agenda := .lbRead k :: rest }) hidle ha b
  case read =>
    rw [step_of_cons rfl]
    exact hread
  case same => exact (hbyte a b).trans (if_pos rfl)
  case other => exact fun j hj => (hbyte j b).trans (if_neg hj)
  case written =>
    rintro rfl
    rw [hreads, show lbGet t.lb k = some b from (hbyte k b).trans (if_pos rfl)]
    rfl
  case old =>
    intro c hne hold
    rw [hreads, show lbGet t.lb k = some c from ((hbyte k b).trans (if_neg hne)).trans hold]
    rfl
  case free => exact fun _ _ => ⟨_, hreads⟩

end Sys2Proof.Machine
end

section
/-! PROOFS. The LB range of a command (spec 20_memory R58, 30_encoding R77, 41_transcoder, 42_rle_decode R157): no instruction
changes an LB byte outside it.

The commands that store pixels keep to the line from the latched BASE on, whichever pixel they are at, and so does the spoiling
of the rest of the line after a ReadFailure. SWAP and EXPAND write once, from BASE on; the others write no LB at all. -/

namespace Sys2Proof.Machine

/-- `u` is a state of the command in flight in `s`, and no LB byte outside the line of `w` pixels of `p` bytes has changed
since (R58). -/
def State.StoresInLine (s : State) (p w : Nat) (u : State) : Prop :=
  u.lat = s.lat ∧ sameLbOutside s.lineBase (w * p) s u

theorem storesInLine_refl (s : State) (p w : Nat) : s.StoresInLine p w s := ⟨rfl, fun _ _ => rfl⟩

/-- A write of the line from pixel `x` on stays within the line. -/
theorem State.StoresInLine.after_lbWrite {s u v : State} {p w x : Nat} {bs : List Byte} (h : s.StoresInLine p w u)
    (hlat : v.lat = u.lat) (hlb : v.lb = lbWrite u.lb (u.lineBase + x * p) bs) (hlen : bs.length ≤ (w - x) * p) :
    s.StoresInLine p w v := by
  obtain ⟨hulat, hkept⟩ := h
  refine ⟨hlat.trans hulat, fun k hk => ?_⟩
  have hline : u.lineBase = s.lineBase := congrArg (fun l : Latch => l.base.toNat) hulat
  rw [hlb, lbGet_lbWrite, if_neg, hkept k hk]
  rintro ⟨hlow, hhigh⟩
  have hin := line_offset_lt (size := s.lineBase + w * p) (Nat.le_refl _) hlen (j := k - (u.lineBase + x * p)) (by omega)
  omega

theorem storesInLine_keptByTaking (s : State) (p w : Nat) : KeptByTaking (s.StoresInLine p w) := fun _ _ _ _ h _ => h

theorem storesInLine_keptByStoring (s : State) (p w : Nat) : KeptByStoring p w (s.StoresInLine p w) := by
  intro u px h hpx hx
  exact h.after_lbWrite (State.storePixel_lat p px u) (State.storePixel_lb p px u)
    (Nat.le_trans hpx (Nat.le_mul_of_pos_left p (by omega)))

theorem storesInLine_keptByDecoder (s : State) (p w : Nat) : KeptByDecoder p (s.StoresInLine p w) where
  openRepeat _ _ h := h
  openDirect _ _ h := h
  sample _ _ h _ := h
  rep _ h := h
  dir _ h := h

/-- After a ReadFailure the free bytes go to the rest of the line only (R157). -/
theorem State.StoresInLine.spoilLine {s u : State} {p w : Nat} (h : s.StoresInLine p w u) :
    s.StoresInLine p w (u.spoilLine p w) :=
  h.after_lbWrite (State.spoilLine_lat p w u) (State.spoilLine_lb p w u) (Nat.le_of_eq (drawBytes_length _ _))

/-- A checked command whose body stores within the line does so wherever it leads. -/
theorem checked_storesInLine {i : Instr} {s t : State} {body : State → Flow} {p w : Nat}
    (ht : reaches (checked i s body) t) (hbody : (body s).All (s.StoresInLine p w)) :
    sameLbOutside s.lineBase (w * p) s t :=
  (checked_leads (P := s.StoresInLine p w) (fun _ h => h) (fun _ _ h => h) (storesInLine_refl s p w) ht
    fun _ _ => hbody).2

theorem rawRd_storesInLine {pb : BitVec 3} {n : BitVec 24} {s t : State} (ht : reaches (exec (.rawRd pb n) s) t) :
    sameLbOutside s.lineBase (n.toNat * pb.toNat) s t := by
  rw [exec, execRawRd] at ht
  have hloop := rawRdLoop_all (storesInLine_keptByTaking s _ _) (storesInLine_keptByStoring s pb.toNat n.toNat)
    (n.toNat - s.x) (Nat.le_refl _) (storesInLine_refl s _ _)
  exact checked_storesInLine ht (hloop.onRaise fun _ h => h.spoilLine)

theorem rleDec_storesInLine {pb : BitVec 3} {n : BitVec 24} {s t : State} (ht : reaches (exec (.rleDec pb n) s) t) :
    sameLbOutside s.lineBase (n.toNat * pb.toNat) s t := by
  rw [exec, execRleDec] at ht
  have hloop := decodeLoop_all (storesInLine_keptByTaking s _ _) (storesInLine_keptByStoring s pb.toNat n.toNat)
    (storesInLine_keptByDecoder s _ _) (n.toNat - s.x) (storesInLine_refl s _ _)
  exact checked_storesInLine ht ((hloop.onRaise fun _ h => h.spoilLine).andThen fun _ h => h)

/-- A packet stores within the line of its RLE_DEC (R152, R157). -/
theorem runOpened_storesInLine {s t : State} (ht : reaches (runOpened s) t) :
    sameLbOutside s.lineBase (s.lat.n.toNat * s.lat.pb.toNat) s t := by
  have hrun := emitRun_all (storesInLine_keptByTaking s _ _) (storesInLine_keptByStoring s s.lat.pb.toNat s.lat.n.toNat)
    (storesInLine_keptByDecoder s _ _) (storesInLine_refl s _ _)
  refine ((hrun.onRaise fun _ h => h.spoilLine).settle (Q := s.StoresInLine _ _) (fun u h => ?_) (fun _ h => h)
    (fun _ _ h => h) ht).2
  split <;> exact h

/-- A command whose body writes once over a range it has read, from BASE on, writes nowhere else (R124, R127). -/
theorem memRewrite_sameLbOutside {s : State} {n len : Nat} {new : List Byte → List Byte} {k : Word}
    (hlen : ∀ old : List Byte, old.length = n → (new old).length ≤ len) :
    (s.memRead s.lineBase n fun old => .go { s with lb := lbWrite s.lb s.lineBase (new old), pixcnt := k }).All
      (sameLbOutside s.lineBase len s) := by
  unfold State.memRead
  split
  · trivial
  · next old hread =>
    have hfit := hlen old (length_of_lbRead hread)
    intro j hj
    rw [lbGet_lbWrite, if_neg (by omega)]

theorem checked_sameLbOutside {i : Instr} {s t : State} {body : State → Flow} {len : Nat}
    (ht : reaches (checked i s body) t) (hbody : (body s).All (sameLbOutside s.lineBase len s)) :
    sameLbOutside s.lineBase len s t :=
  checked_leads (P := sameLbOutside s.lineBase len s) (fun _ h => h) (fun _ _ h => h) (fun _ _ => rfl) ht fun _ _ => hbody

theorem swap_sameLbOutside {pb : BitVec 3} {n : BitVec 24} {s t : State} (ht : reaches (exec (.swap pb n) s) t) :
    sameLbOutside s.lineBase n.toNat s t := by
  rw [exec, execSwap] at ht
  exact checked_sameLbOutside ht (memRewrite_sameLbOutside fun old hlen =>
    Nat.le_of_eq ((swapBytes_length pb.toNat old).trans hlen))

theorem expand_sameLbOutside {pb : BitVec 3} {n : BitVec 24} {s t : State} (ht : reaches (exec (.expand pb n) s) t) :
    sameLbOutside s.lineBase (3 * n.toNat / 2) s t := by
  rw [exec, execExpand] at ht
  refine checked_sameLbOutside ht (memRewrite_sameLbOutside fun old hlen => ?_)
  rw [expandBytes_length, hlen]
  omega

theorem sameLbOutside_of_lb_eq {s t : State} (h : t.lb = s.lb) (a n : Nat) : sameLbOutside a n s t :=
  fun k _ => congrArg (lbGet · k) h

/-- Settles O24: the range of each command is the line it stores in, or what it writes over, or more than the nothing it
writes. -/
theorem storesStayInRange : Obligations.StoresStayInRange := by
  unfold Obligations.StoresStayInRange
  refine fun i s t ht => ⟨fun len hlen => ?command, fun c hc => ?packet⟩
  case command =>
    cases i with
    | le16Unpack => cases hlen
    | le16Pack => cases hlen
    | rawRd => cases hlen; exact rawRd_storesInLine ht
    | rawWr => exact sameLbOutside_of_lb_eq (congrArg (·.2.1) (rawWr_frame ht)) _ _
    | swap => cases hlen; exact swap_sameLbOutside ht
    | expand => cases hlen; exact expand_sameLbOutside ht
    | rleDec => cases hlen; exact rleDec_storesInLine ht
    | rleEnc => exact sameLbOutside_of_lb_eq (congrArg (·.2.1) (rleEnc_frame ht)) _ _
    | pktRepeat => cases hlen
    | pktDirect => cases hlen
  case packet =>
    obtain rfl | rfl := hc
    · exact runOpened_storesInLine (s := s.openRepeat c) (pktRepeat_reaches ht).2
    · exact runOpened_storesInLine (s := s.openDirect c) (pktDirect_reaches ht).2

end Sys2Proof.Machine
end

section
/-! PROOFS. The commands that read an UNWRITTEN LB byte (spec 20_memory R67, 60_exceptions R229).

Let `a` be the first UNWRITTEN byte of a line. A MemRead that starts at or below `a` within the line either fails at `a` or ends
at or below it. RAW_WR and RLE_ENC read a pixel only once they have gone past those before it, so what they read first of the
bytes from `a` on is `a` itself, and they cannot go past it. -/

namespace Sys2Proof.Machine

/-! ## The first UNWRITTEN byte -/

/-- `a` is UNWRITTEN, and every LB byte from the start of the line up to it is written (R67). -/
def State.FirstUnwritten (s : State) (a : Nat) : Prop :=
  lbGet s.lb a = none ∧ ∀ k, s.lineBase ≤ k → k < a → (lbGet s.lb k).isSome = true

theorem firstUnwritten_of_lbRead {s : State} {n a : Nat} (h : lbRead s.lb s.lineBase n = .error a) :
    s.FirstUnwritten a ∧ a < s.lineBase + n := by
  obtain ⟨-, hin, hnone, hbelow⟩ := lbRead_eq_error h
  exact ⟨⟨hnone, hbelow⟩, hin⟩

/-- What was read of LB failed at `a`, or gave something of which `P` holds. -/
def StopsAt {α : Type} (a : Nat) (P : α → Prop) : Except Nat α → Prop
  | .error e => e = a
  | .ok v => P v

theorem StopsAt.mono {α : Type} {a : Nat} {P Q : α → Prop} {r : Except Nat α} (h : StopsAt a P r) (hpq : ∀ v, P v → Q v) :
    StopsAt a Q r := by
  cases r with
  | error e => exact h
  | ok v => exact hpq v h

/-- A MemRead within the line, from no further than `a`, fails at `a` or ends no further than `a`. -/
theorem State.FirstUnwritten.lbRead_stops {s : State} {a b : Nat} (h : s.FirstUnwritten a) (hlow : s.lineBase ≤ b)
    (hb : b ≤ a) (n : Nat) : StopsAt a (fun bs => bs.length = n ∧ b + n ≤ a) (lbRead s.lb b n) := by
  obtain ⟨hnone, hbelow⟩ := h
  cases hread : lbRead s.lb b n with
  | error e =>
    obtain ⟨hle, -, hfail, hwritten⟩ := lbRead_eq_error hread
    rcases Nat.lt_trichotomy e a with hlt | heq | hgt
    · simpa [hfail] using hbelow e (by omega) hlt
    · exact heq
    · simpa [hnone] using hwritten a hb hgt
  | ok bs =>
    refine ⟨length_of_lbRead hread, Nat.le_of_not_lt fun hlt => ?_⟩
    simpa [hnone] using isSome_lbGet_of_lbRead hread hb hlt

/-- The pixels before pixel `i` end no further than `a` (R12). -/
def State.PixelsUpTo (s : State) (p a i : Nat) : Prop := s.lineBase + i * p ≤ a

theorem State.FirstUnwritten.pix_stops {s : State} {p a i : Nat} (h : s.FirstUnwritten a) (hi : s.PixelsUpTo p a i) :
    StopsAt a (fun px => px.length = p ∧ s.PixelsUpTo p a (i + 1)) (s.pix p i) := by
  rw [State.PixelsUpTo, nextPixel_address]
  exact h.lbRead_stops (Nat.le_add_right _ _) hi p

/-! ## RAW_WR -/

/-- The pixels left of a line hold `a`, and OUT takes those before it: the loop stops at `a` (R122). -/
theorem rawWrLoop_unwritten {p k a : Nat} {s : State} (h : s.FirstUnwritten a) (hpend : s.pend = [])
    (hlow : s.PixelsUpTo p a s.x) (hhigh : a < s.lineBase + (s.x + k) * p) (hout : s.out.accepts (k * p)) :
    rawWrLoop p k s = .unwritten a := by
  induction k generalizing s with
  | zero => exact absurd hlow (Nat.not_le.mpr hhigh)
  | succ k ih =>
    have hpixel := h.pix_stops hlow
    rw [Nat.succ_mul, Nat.add_comm (k * p) p] at hout
    cases hread : s.pix p s.x with
    | error e =>
      rw [hread] at hpixel
      rw [rawWrLoop, sendPixel, if_pos hpend, hread]
      exact congrArg Flow.unwritten hpixel
    | ok px =>
      rw [hread] at hpixel
      obtain ⟨hlen, hnext⟩ := hpixel
      have hend : s.x + 1 + k = s.x + (k + 1) := by omega
      rw [rawWrLoop_sendWhole hpend hread (OutPort.accepts_of_add hout)]
      refine ih (s := s.sendWhole px) h rfl hnext ?_ (OutPort.accepts_afterSending hout hlen)
      show a < s.lineBase + (s.x + 1 + k) * p
      rwa [hend]

/-! ## RLE_ENC -/

/-- A pixel and its successor are compared by reading both, where there is a successor (R182). -/
theorem State.FirstUnwritten.equalsNext_stops {s : State} {p w a j : Nat} (h : s.FirstUnwritten a)
    (hj : s.PixelsUpTo p a j) :
    StopsAt a (fun equal => (equal = true → s.PixelsUpTo p a (j + 2)) ∧ (j + 1 < w → s.PixelsUpTo p a (j + 1)))
      (equalsNext s p w j) := by
  unfold equalsNext
  split
  · have hthis := h.pix_stops hj
    cases hread : s.pix p j <;> rw [hread] at hthis
    case error => exact hthis
    case ok =>
      have hsucc := h.pix_stops hthis.2
      dsimp only
      cases hread : s.pix p (j + 1) <;> rw [hread] at hsucc
      case error => exact hsucc
      case ok => exact ⟨fun _ => hsucc.2, fun _ => hthis.2⟩
  · next hend => exact ⟨nofun, fun hin => absurd hin hend⟩

theorem State.FirstUnwritten.sameRun_stops {s : State} {p w i a fuel n : Nat} {px : Pixel} (h : s.FirstUnwritten a)
    (hn : s.PixelsUpTo p a (i + n)) :
    StopsAt a (fun m => n ≤ m ∧ s.PixelsUpTo p a (i + m)) (sameRun s p w i px fuel n) := by
  induction fuel generalizing n with
  | zero => exact ⟨Nat.le_refl n, hn⟩
  | succ fuel ih =>
    unfold sameRun
    split
    · have hpixel := h.pix_stops hn
      cases hread : s.pix p (i + n) <;> rw [hread] at hpixel
      case error => exact hpixel
      case ok =>
        dsimp only
        split
        · exact (ih hpixel.2).mono fun m hm => ⟨Nat.le_of_succ_le hm.1, hm.2⟩
        · exact ⟨Nat.le_refl n, hn⟩
    · exact ⟨Nat.le_refl n, hn⟩

theorem State.FirstUnwritten.differRun_stops {s : State} {p w i a fuel n : Nat} (h : s.FirstUnwritten a)
    (hn : i + n < w → s.PixelsUpTo p a (i + n)) : StopsAt a (fun m => n ≤ m) (differRun s p w i fuel n) := by
  induction fuel generalizing n with
  | zero => exact Nat.le_refl n
  | succ fuel ih =>
    unfold differRun
    split
    · next hin =>
      have hnext := h.equalsNext_stops (w := w) (hn hin)
      cases hread : equalsNext s p w (i + n) <;> rw [hread] at hnext
      case error => exact hnext
      case ok equal =>
        cases equal
        case true => exact Nat.le_refl n
        case false => exact (ih hnext.2).mono fun m => Nat.le_of_succ_le
    · exact Nat.le_refl n

/-- Choosing the next packet fails at `a`, or the packet ends no further than `a` and is no longer than its pixels with a
header each (R84, R182). -/
theorem State.FirstUnwritten.nextPacket_stops {s : State} {p w i a : Nat} (h : s.FirstUnwritten a)
    (hi : s.PixelsUpTo p a i) :
    StopsAt a (fun packet => s.PixelsUpTo p a (i + packet.2.1) ∧ packet.2.2.length ≤ packet.2.1 * (1 + p))
      (nextPacket s p w i) := by
  have hequal := h.equalsNext_stops (w := w) hi
  unfold nextPacket
  cases hread : equalsNext s p w i <;> rw [hread] at hequal
  case error => exact hequal
  case ok equal =>
    obtain ⟨htrue, hfalse⟩ := hequal
    cases equal
    case true =>
      have hfirst := h.pix_stops hi
      dsimp only
      cases hread : s.pix p i <;> rw [hread] at hfirst
      case error => exact hfirst
      case ok px =>
        have hrun := h.sameRun_stops (w := w) (px := px) (fuel := maxRun - 2) (htrue rfl)
        dsimp only
        cases hread : sameRun s p w i px (maxRun - 2) 2 <;> rw [hread] at hrun
        case error => exact hrun
        case ok m =>
          obtain ⟨htwo, hend⟩ := hrun
          refine ⟨hend, ?_⟩
          rw [packetBytes, List.length_cons, hfirst.1, Nat.add_comm p 1]
          exact Nat.le_mul_of_pos_left _ (Nat.lt_of_succ_le (Nat.le_of_succ_le htwo))
    case false =>
      have hrun := h.differRun_stops (w := w) (fuel := maxRun - 1) hfalse
      dsimp only
      cases hread : differRun s p w i (maxRun - 1) 1 <;> rw [hread] at hrun
      case error => exact hrun
      case ok m =>
        have hbody := h.lbRead_stops (Nat.le_add_right _ _) hi (m * p)
        dsimp only
        cases hread : lbRead s.lb (s.lineBase + i * p) (m * p) <;> rw [hread] at hbody
        case error => exact hbody
        case ok body =>
          obtain ⟨hlen, hend⟩ := hbody
          refine ⟨?_, ?_⟩
          · rw [State.PixelsUpTo, Nat.add_mul, ← Nat.add_assoc]
            exact hend
          · rw [packetBytes, List.length_cons, hlen, Nat.mul_add, Nat.mul_one, Nat.add_comm (m * p) 1]
            exact Nat.add_le_add_right hrun _

theorem OutPort.accepts_mono {o : OutPort} {i j : Nat} (h : o.accepts j) (hle : i ≤ j) : o.accepts i :=
  ⟨fun c hc => Nat.le_trans hle (h.1 c hc), fun a ha => Nat.le_trans hle (h.2 a ha)⟩

theorem State.PixelsUpTo.lt_width {s : State} {p a i w : Nat} (h : s.PixelsUpTo p a i) (hhigh : a < s.lineBase + w * p) :
    i < w :=
  Nat.lt_of_mul_lt_mul_right (Nat.lt_of_add_lt_add_left (Nat.lt_of_le_of_lt h hhigh))

/-- The pixels left of a line hold `a`, and OUT takes a header and a pixel for each of them: the loop stops at `a` (R84,
R182). -/
theorem encodeLoop_unwritten {p w a fuel : Nat} {s : State} (h : s.FirstUnwritten a) (hpend : s.pend = [])
    (hlow : s.PixelsUpTo p a s.enc.i) (hhigh : a < s.lineBase + w * p) (hfuel : w - s.enc.i ≤ fuel)
    (hout : s.out.accepts ((w - s.enc.i) * (1 + p))) : encodeLoop p w fuel s = .unwritten a := by
  induction fuel generalizing s with
  | zero => exact absurd (hlow.lt_width hhigh) (by omega)
  | succ fuel ih =>
    have hin := hlow.lt_width hhigh
    have hpacket := h.nextPacket_stops (w := w) hlow
    rw [encodeLoop, if_pos hin, sendPacket, if_pos hpend]
    cases hread : nextPacket s p w s.enc.i <;> rw [hread] at hpacket
    case error e => exact congrArg Flow.unwritten hpacket
    case ok packet =>
      obtain ⟨kind, n, bytes⟩ := packet
      obtain ⟨hend, hsize⟩ := hpacket
      obtain ⟨hone, -, hline, -⟩ := nextPacket_bounds hread hin
      have hleft : (w - s.enc.i) * (1 + p) = n * (1 + p) + (w - (s.enc.i + n)) * (1 + p) := by
        rw [← Nat.add_mul]
        congr 1
        omega
      have hroom : s.out.accepts (bytes.length + (w - (s.enc.i + n)) * (1 + p)) :=
        OutPort.accepts_mono hout (hleft ▸ Nat.add_le_add_right hsize _)
      dsimp only
      rw [outWrite_accepts (s := { s with enc := { s.enc with n := n, kind := kind } }) (OutPort.accepts_of_add hroom),
        Flow.go_andThen]
      refine ih h rfl hend hhigh ?_ (OutPort.accepts_afterSending hroom rfl)
      show w - (s.enc.i + n) ≤ fuel
      omega

/-! ## The commands -/

/-- A command that first reads its range stops at the first UNWRITTEN byte of it (R124, R127). -/
theorem checked_memRead_unwritten {i : Instr} {s : State} {n a : Nat} {f : State → List Byte → Flow} (hwf : i.wf = true)
    (hfit : ∀ len, lbLength i = some len → s.lineBase + len ≤ s.cfg.lbSize)
    (hread : lbRead s.lb s.lineBase n = .error a) :
    checked i s (fun u => u.memRead u.lineBase n (f u)) = .fault (.modelUnwrittenRead a) := by
  rw [checked_of_wf _ hwf hfit, State.memRead, hread]
  rfl

theorem exec_rawWr_unwritten {s : State} {pb : BitVec 3} {n : BitVec 24} {a : Nat} (hs : s.Fresh)
    (hwf : (Instr.rawWr pb n).wf = true) (hfit : s.lat.base.toNat + n.toNat * pb.toNat ≤ s.cfg.lbSize)
    (hout : s.out.accepts (n.toNat * pb.toNat)) (hread : lbRead s.lb s.lineBase (n.toNat * pb.toNat) = .error a) :
    exec (.rawWr pb n) s = .fault (.modelUnwrittenRead a) := by
  obtain ⟨hfirst, hhigh⟩ := firstUnwritten_of_lbRead hread
  obtain ⟨hlow, -⟩ := lbRead_eq_error hread
  rw [exec_rawWr hs hwf hfit, rawWrLoop_unwritten hfirst hs.pend ?low ?high hout]
  case low => rwa [State.PixelsUpTo, hs.x, Nat.zero_mul]
  case high => rwa [hs.x, Nat.zero_add]
  rfl

theorem exec_rleEnc_unwritten {s : State} {pb : BitVec 3} {n : BitVec 24} {a : Nat} (hs : s.Fresh)
    (hwf : (Instr.rleEnc pb n).wf = true) (hfit : s.lat.base.toNat + n.toNat * pb.toNat ≤ s.cfg.lbSize)
    (hout : s.out.accepts (n.toNat * (1 + pb.toNat))) (hread : lbRead s.lb s.lineBase (n.toNat * pb.toNat) = .error a) :
    exec (.rleEnc pb n) s = .fault (.modelUnwrittenRead a) := by
  obtain ⟨hfirst, hhigh⟩ := firstUnwritten_of_lbRead hread
  obtain ⟨hlow, -⟩ := lbRead_eq_error hread
  have hi : s.enc.i = 0 := by rw [hs.enc]
  rw [exec, execRleEnc, checked_of_wf _ hwf fun _ hlen => Option.some.inj hlen ▸ hfit,
    encodeLoop_unwritten hfirst hs.pend ?low hhigh (Nat.le_refl _) ?out]
  case low => rwa [State.PixelsUpTo, hi, Nat.zero_mul]
  case out => rwa [hi]
  rfl

/-- Settles O43: SWAP and EXPAND read their range at once, and the two loops stop at the first UNWRITTEN byte of their line. -/
theorem unwrittenReadStops : Obligations.UnwrittenReadStops := by
  unfold Obligations.UnwrittenReadStops
  refine fun s pb n a => ⟨fun hwf hfit hread => ?swap, fun hwf hfit hread => ?expand,
    fun hs hwf hfit hout hread => exec_rawWr_unwritten hs hwf hfit hout hread,
    fun hs hwf hfit hout hread => exec_rleEnc_unwritten hs hwf hfit hout hread⟩
  case swap =>
    rw [exec, execSwap]
    exact checked_memRead_unwritten hwf (fun _ hlen => Option.some.inj hlen ▸ hfit) hread
  case expand =>
    rw [exec, execExpand]
    exact checked_memRead_unwritten hwf (fun _ hlen => Option.some.inj hlen ▸ hfit) hread

end Sys2Proof.Machine
end

section
/-! PROOFS. A command that waits for input (spec 20_memory R52, R57, 70_reset R249, R251).

`State.fed` is a state after more has come on IN. A reader's body and the same body fed from the start go the same way
(`Flow.Continues`): up to an end they lead to the same states, fed or not; and where the one waits, the other goes on as the wait
does once it is fed. Each loop waits only in an InRead, so this is said once of InRead, and the loops follow it to the state in
which they can be started again. -/

namespace Sys2Proof.Machine

/-- `more` has arrived on IN, and EOS is now presented or not (R52). -/
def State.fed (more : List Byte) (e : Bool) (s : State) : State :=
  { s with inp := { bytes := s.inp.bytes ++ more, eos := e } }

/-- `r` is where a reader's body leads with EOS presented or not (`eos`), and `r'` where it leads fed from the start: past the
body to the same state, fed; where `r` waits, as `Q` says. Without EOS no fault is raised. -/
def Flow.Continues (more : List Byte) (e eos : Bool) (Q : State → Flow → Prop) (r r' : Flow) : Prop :=
  match r with
  | .go t => t.inp.eos = eos ∧ r' = .go (t.fed more e)
  | .wait t => t.inp.eos = eos ∧ eos = false ∧ Q t r'
  | .raise _ _ => eos = true
  | .unwritten _ => False

section
variable {more : List Byte} {e eos : Bool}

theorem Flow.Continues.andThen {Q Q' : State → Flow → Prop} {r r' : Flow} {f : State → Flow}
    (h : r.Continues more e eos Q r')
    (hgo : ∀ t, r = .go t → t.inp.eos = eos → (f t).Continues more e eos Q' (f (t.fed more e)))
    (hwait : ∀ t, Q t r' → Q' t (r'.andThen f)) : (r.andThen f).Continues more e eos Q' (r'.andThen f) := by
  cases r with
  | go t =>
    obtain ⟨heos, rfl⟩ := h
    exact hgo t rfl heos
  | wait t =>
    obtain ⟨ht, heos, hq⟩ := h
    exact ⟨ht, heos, hwait t hq⟩
  | raise k t => exact h
  | unwritten a => exact h

/-- Bytes that are there are taken, whatever is behind them (R52). -/
theorem inTake_taken {taken rest : List Byte} {s : State} (h : s.inp.bytes = taken ++ rest) (j : Nat) :
    inTake (taken.length + j) s = inTake j (s.afterTaking taken rest (s.part ++ taken)) := by
  induction taken generalizing s with
  | nil =>
    have hsame : s.afterTaking [] rest (s.part ++ []) = s := by
      simp [State.afterTaking, ← show s.inp.bytes = rest from h]
    rw [hsame, List.length_nil, Nat.zero_add]
  | cons b taken ih =>
    rw [List.length_cons, Nat.add_right_comm, inTake, h]
    refine (ih (s := s.tookByte b (taken ++ rest)) rfl).trans ?_
    simp [State.afterTaking, State.tookByte, counter_succ]

theorem inRead_taken {n : Nat} {taken rest : List Byte} {s : State} (h : s.inp.bytes = taken ++ rest)
    (hlen : taken.length ≤ n - s.part.length) (f : List Byte → State → Flow) :
    inRead n s f = inRead n (s.afterTaking taken rest (s.part ++ taken)) f := by
  obtain ⟨j, hj⟩ : ∃ j, n - s.part.length = taken.length + j := Nat.exists_eq_add_of_le hlen
  have hleft : n - (s.part ++ taken).length = j := by
    rw [List.length_append]
    omega
  rw [inRead, hj, inTake_taken h, inRead]
  exact congrArg (fun i => (inTake i _).andThen _) hleft.symm

/-- An InRead whose bytes have all been taken goes on (R11). -/
theorem inRead_ready {n : Nat} {s : State} (h : n ≤ s.part.length) (f : List Byte → State → Flow) :
    inRead n s f = f (s.part.take n) { s with part := [] } := by
  rw [inRead, Nat.sub_eq_zero_of_le h]
  rfl

/-- An InRead that still needs a byte of an empty IN faults at EOS (R11, R52). -/
theorem inRead_starved {n : Nat} {s : State} (hin : s.inp.bytes = []) (hpart : s.part.length < n) (heos : s.inp.eos = true)
    (f : List Byte → State → Flow) : inRead n s f = .raise .readFailure s := by
  obtain ⟨j, hj⟩ : ∃ j, n - s.part.length = j + 1 := Nat.exists_eq_add_one.mpr (by omega)
  rw [inRead, hj, inTake, hin]
  simp only [heos, if_true, Flow.raise_andThen]

/-- An InRead, fed from the start: with its bytes there it goes on the same way; where it waits, having taken all there was, it
is the InRead fed there (R52, R57). -/
theorem inRead_continues {Q : State → Flow → Prop} {n : Nat} {s : State} {f : List Byte → State → Flow}
    (hgo : ∀ bs taken rest, (f bs (s.afterTaking taken rest [])).Continues more e s.inp.eos Q
      (f bs ((s.afterTaking taken rest []).fed more e)))
    (hwait : ∀ q : List Byte, q.length < n →
      Q (s.afterTaking s.inp.bytes [] q) (inRead n ((s.afterTaking s.inp.bytes [] q).fed more e) f)) :
    (inRead n s f).Continues more e s.inp.eos Q (inRead n (s.fed more e) f) := by
  obtain ⟨taken, rest, hin, ⟨henough, hlen, hread⟩ | ⟨rfl, hshort, hread⟩⟩ := inRead_cases n s f
  · have hfed : (s.fed more e).inp.bytes = taken ++ (rest ++ more) := by
      rw [← List.append_assoc, ← hin]
      rfl
    rw [hread, inRead_taken hfed (Nat.le_of_eq hlen), inRead_ready henough]
    exact hgo _ taken rest
  · obtain rfl : s.inp.bytes = taken := hin.trans (List.append_nil taken)
    have hlen : s.inp.bytes.length ≤ n - s.part.length := by
      rw [List.length_append] at hshort
      omega
    rw [hread, inRead_taken (s := s.fed more e) rfl hlen]
    cases heos : s.inp.eos with
    | true => exact rfl
    | false => exact ⟨heos, rfl, hwait _ hshort⟩

/-! ## RAW_RD -/

/-- RAW_RD waits within its line, to go on there with the pixels left (R121). -/
theorem rawRdLoop_continues {p w j : Nat} {s : State} (hj : j = w - s.x) :
    (rawRdLoop p j s).Continues more e s.inp.eos (fun t r' => r' = rawRdLoop p (w - t.x) (t.fed more e))
      (rawRdLoop p j (s.fed more e)) := by
  induction j generalizing s with
  | zero => exact ⟨rfl, rfl⟩
  | succ j ih =>
    refine inRead_continues (fun px taken rest => ?_) fun q _ => ?_
    · refine ih (s := (s.afterTaking taken rest []).storePixel p px) ?_
      show j = w - (s.x + 1)
      omega
    · show _ = rawRdLoop p (w - s.x) _
      rw [← hj]
      rfl

/-! ## RLE_DEC -/

theorem emitSample_fed (p k : Nat) (s : State) : emitSample p k (s.fed more e) = (emitSample p k s).fed more e := by
  induction k generalizing s with
  | zero => rfl
  | succ k ih => exact ih { s.storePixel p s.sample with rep := s.rep - 1 }

theorem emitSample_inp (p k : Nat) (s : State) : (emitSample p k s).inp = s.inp := by
  induction k generalizing s with
  | zero => rfl
  | succ k ih => exact ih { s.storePixel p s.sample with rep := s.rep - 1 }

/-- RLE_DEC waits in `t` within its line, at pixel `x` or behind it: fed, it goes on with the turn of its loop it waits in, which
at EOS takes no more bytes (R152, R156). -/
def TurnWaits (more : List Byte) (e : Bool) (p w x : Nat) (t : State) (r' : Flow) : Prop :=
  x ≤ t.x ∧ t.x < w ∧ r' = decodeTurn p w (t.fed more e) ∧
    (more = [] → e = true → r' = .raise .readFailure (t.fed more e))

/-- A wait in an InRead of the turn, as `TurnWaits` has it. -/
theorem turnWaits_of_inRead {p w x n : Nat} {s : State} {q : List Byte} {f : List Byte → State → Flow} (hx : x ≤ s.x)
    (hw : s.x < w) (hq : q.length < n)
    (hturn : decodeTurn p w ((s.afterTaking s.inp.bytes [] q).fed more e) =
      inRead n ((s.afterTaking s.inp.bytes [] q).fed more e) f) :
    TurnWaits more e p w x (s.afterTaking s.inp.bytes [] q) (inRead n ((s.afterTaking s.inp.bytes [] q).fed more e) f) := by
  refine ⟨hx, hw, hturn.symm, ?_⟩
  rintro rfl rfl
  exact inRead_starved rfl hq rfl f

theorem emitDirect_continues {p w x j : Nat} {s : State} (hrep : s.rep = 0) (hj : j = min s.dir (w - s.x)) (hx : x ≤ s.x) :
    (emitDirect p j s).Continues more e s.inp.eos (TurnWaits more e p w x) (emitDirect p j (s.fed more e)) := by
  induction j generalizing s with
  | zero => exact ⟨rfl, rfl⟩
  | succ j ih =>
    refine inRead_continues (fun px taken rest => ?_) fun q hq => turnWaits_of_inRead hx (by omega) hq ?_
    · refine ih (s := { (s.afterTaking taken rest []).storePixel p px with dir := s.dir - 1 }) hrep ?_ (Nat.le_succ_of_le hx)
      show j = min (s.dir - 1) (w - (s.x + 1))
      omega
    · have hactive : ¬ (s.rep = 0 ∧ s.dir = 0) := by omega
      refine (decodeTurn_active (s := (s.afterTaking s.inp.bytes [] q).fed more e) hactive).trans ?_
      refine (emitRun_direct (s := (s.afterTaking s.inp.bytes [] q).fed more e) hrep).trans ?_
      show emitDirect p (min s.dir (w - s.x)) _ = _
      rw [← hj]
      rfl

theorem emitRun_continues {p w x : Nat} {s : State} (hx : x ≤ s.x) (hw : s.x < w) :
    (emitRun p w s).Continues more e s.inp.eos (TurnWaits more e p w x) (emitRun p w (s.fed more e)) := by
  by_cases hrep : 0 < s.rep
  · rw [emitRun_repeat hrep, emitRun_repeat (s := s.fed more e) hrep]
    refine inRead_continues (fun px taken rest => ⟨?_, ?_⟩) fun q hq => turnWaits_of_inRead hx hw hq ?_
    · rw [emitSample_inp]
      rfl
    · exact congrArg Flow.go (emitSample_fed p _ { s.afterTaking taken rest [] with sample := px })
    · have hactive : ¬ (s.rep = 0 ∧ s.dir = 0) := by omega
      rw [decodeTurn_active (s := (s.afterTaking s.inp.bytes [] q).fed more e) hactive]
      exact emitRun_repeat hrep
  · have hnone : s.rep = 0 := Nat.eq_zero_of_not_pos hrep
    rw [emitRun_direct hnone, emitRun_direct (s := s.fed more e) hnone]
    exact emitDirect_continues hnone rfl hx

theorem openRun_fed (h : Byte) (s : State) : (s.fed more e).openRun h = (s.openRun h).fed more e := by
  rw [State.openRun_eq, State.openRun_eq]
  split <;> rfl

theorem openRun_inp (h : Byte) (s : State) : (s.openRun h).inp = s.inp := by
  rw [State.openRun_eq]
  split <;> rfl

theorem inRead_andThen (n : Nat) (s : State) (f : List Byte → State → Flow) (g : State → Flow) :
    (inRead n s f).andThen g = inRead n s fun bs t => (f bs t).andThen g := Flow.andThen_assoc _ _ _

/-- A turn that begins with a header, as one InRead (R152). -/
theorem decodeTurn_inRead {p w : Nat} {s : State} (h : s.rep = 0 ∧ s.dir = 0) :
    decodeTurn p w s = inRead 1 s fun bs t => emitRun p w (t.openRun (bs.headD 0)) := by
  rw [decodeTurn_idle h, inRead_andThen]
  rfl

theorem decodeTurn_continues {p w : Nat} {s : State} (hw : s.x < w) :
    (decodeTurn p w s).Continues more e s.inp.eos (TurnWaits more e p w s.x) (decodeTurn p w (s.fed more e)) := by
  by_cases hidle : s.rep = 0 ∧ s.dir = 0
  · rw [decodeTurn_inRead hidle, decodeTurn_inRead (s := s.fed more e) hidle]
    refine inRead_continues (fun bs taken rest => ?_) fun q hq => turnWaits_of_inRead (Nat.le_refl _) hw hq ?_
    · have hx := State.openRun_x (bs.headD 0) (s.afterTaking taken rest [])
      have hrun := emitRun_continues (more := more) (e := e) (p := p) (Nat.le_of_eq hx.symm) (hx ▸ hw)
      rw [openRun_inp] at hrun
      rw [openRun_fed]
      exact hrun
    · exact decodeTurn_inRead hidle
  · rw [decodeTurn_active hidle, decodeTurn_active (s := s.fed more e) hidle]
    exact emitRun_continues (Nat.le_refl _) hw

/-- RLE_DEC waits in a turn of its loop, to go on there with the rest of its loop (R152). -/
theorem decodeLoop_continues {p w fuel : Nat} {s : State} (hfuel : w - s.x ≤ fuel) :
    (decodeLoop p w fuel s).Continues more e s.inp.eos
      (fun t r' => r' = decodeLoop p w (w - t.x) (t.fed more e) ∧
        (more = [] → e = true → r' = .raise .readFailure (t.fed more e)))
      (decodeLoop p w fuel (s.fed more e)) := by
  induction fuel generalizing s with
  | zero => exact ⟨rfl, rfl⟩
  | succ fuel ih =>
    by_cases hw : s.x < w
    · rw [decodeLoop_turn hw, decodeLoop_turn (s := s.fed more e) hw]
      refine (decodeTurn_continues hw).andThen (fun t hgo heos => ?_) fun t ht => ?_
      · have hpixel := decodeTurn_advances hw hgo
        rw [← heos]
        exact ih (by omega)
      · obtain ⟨hx, htw, hturn, hsilent⟩ := ht
        refine ⟨?_, fun hmore he => ?_⟩
        · rw [hturn, ← decodeLoop_turn (s := t.fed more e) htw]
          exact decodeLoop_fuel (s := t.fed more e) (show w - t.x ≤ fuel + 1 by omega) (Nat.le_refl _)
        · rw [hsilent hmore he]
          rfl
    · rw [decodeLoop_done (Nat.not_lt.mp hw), decodeLoop_done (s := s.fed more e) (Nat.not_lt.mp hw)]
      exact ⟨rfl, rfl⟩

end

/-! ## The commands -/

theorem Flow.Continues.of_wait {more : List Byte} {e eos : Bool} {Q : State → Flow → Prop} {r r' : Flow} {t : State}
    (h : r.Continues more e eos Q r') (hr : r = .wait t) : t.inp.eos = eos ∧ Q t r' := by
  subst hr
  exact ⟨h.1, h.2.2⟩

theorem Flow.onRaise_eq_wait {r : Flow} {f : State → State} {t : State} (h : r.onRaise f = .wait t) : r = .wait t := by
  cases r with
  | wait u => exact h
  | go u => cases h
  | raise k u => cases h
  | unwritten a => cases h

theorem Flow.andThen_go_eq_wait {r : Flow} {f : State → State} {t : State} (h : r.andThen (fun u => .go (f u)) = .wait t) :
    r = .wait t := by
  cases r with
  | wait u => exact h
  | go u => cases h
  | raise k u => cases h
  | unwritten a => cases h

/-- A command that waits in `t` goes on from `t'` as from `s'`, if its body does and both meet the checks that `s` has passed
(R87). -/
theorem checked_resumes {i : Instr} {s t s' t' : State} {body : State → Flow}
    (hwait : checked i s body = .fault (.portSilent t)) (hs : operandFault i s' = operandFault i s)
    (ht : operandFault i t' = operandFault i s) (hbody : body s = .wait t → body t' = body s') :
    checked i t' body = checked i s' body := by
  have hpass : operandFault i s = none := by
    cases hcheck : operandFault i s with
    | none => rfl
    | some k =>
      rw [checked_of_fault body hcheck] at hwait
      cases hwait
  rw [checked, hpass] at hwait
  rw [checked, checked, hs, ht, hpass, hbody (Flow.settle_eq_portSilent.mp hwait)]

/-- Where an instruction leads, its operands meet the same checks (R38, R77). -/
theorem operandFault_of_reaches {i : Instr} {s t : State} (h : reaches (exec i s) t) :
    operandFault i t = operandFault i s := by
  have hview := exec_hostView h
  simp only [State.hostView, Prod.mk.injEq] at hview
  obtain ⟨hcfg, -, -, hlat, -⟩ := hview
  exact operandFault_congr (congrArg Latch.base hlat) hcfg i

/-- A command that waited for input goes on, once fed, as it would have gone fed from the start, if its body does (R57). -/
theorem exec_resumes_fed {i : Instr} {s t : State} {more : List Byte} {body : State → Flow}
    (hexec : ∀ u, exec i u = checked i u body) (hwait : exec i s = .fault (.portSilent t))
    (hbody : body s = .wait t → t.inp.eos = s.inp.eos ∧ body (t.fed more s.inp.eos) = body (s.fed more s.inp.eos)) :
    exec i (t.fed more t.inp.eos) = exec i (s.fed more s.inp.eos) := by
  have hpass : operandFault i t = operandFault i s := operandFault_of_reaches (.inr hwait)
  rw [hexec] at hwait
  rw [hexec, hexec]
  refine checked_resumes hwait rfl hpass fun hr => ?_
  obtain ⟨heos, hresumed⟩ := hbody hr
  rw [heos, hresumed]

theorem storeResult_fed (bs : List Byte) (more : List Byte) (e : Bool) (s : State) :
    storeResult bs (s.fed more e) = (storeResult bs s).fed more e := by
  unfold storeResult
  split <;> rfl

theorem storeResult_inp (bs : List Byte) (s : State) : (storeResult bs s).inp = s.inp := by
  unfold storeResult
  split <;> rfl

/-- LE16_UNPACK waits in its InRead (R103). -/
theorem le16UnpackBody_continues {more : List Byte} {e : Bool} {s : State} :
    (inRead 2 s fun bs t => .go (storeResult bs t)).Continues more e s.inp.eos
      (fun t r' => r' = inRead 2 (t.fed more e) fun bs t => .go (storeResult bs t))
      (inRead 2 (s.fed more e) fun bs t => .go (storeResult bs t)) := by
  refine inRead_continues (fun bs taken rest => ⟨?_, congrArg Flow.go (storeResult_fed bs more e _)⟩) fun _ _ => rfl
  rw [storeResult_inp]
  rfl

/-- Settles O57: the loop of each reader, fed from the start, is where it waits the loop it is started again with. -/
theorem inputWaitResumesExactly : Obligations.InputWaitResumesExactly := by
  unfold Obligations.InputWaitResumesExactly
  rintro i s t more ⟨pb, n, hi⟩ hwait
  simp only [List.mem_cons, List.not_mem_nil, or_false] at hi
  obtain rfl | rfl | rfl := hi
  · refine exec_resumes_fed (fun u => by rw [exec, execLe16Unpack]) hwait fun hr => ?_
    obtain ⟨heos, hresumed⟩ := le16UnpackBody_continues.of_wait hr
    exact ⟨heos, hresumed.symm⟩
  · refine exec_resumes_fed (fun u => by rw [exec, execRawRd]) hwait fun hr => ?_
    obtain ⟨heos, hresumed⟩ := (rawRdLoop_continues rfl).of_wait (Flow.onRaise_eq_wait hr)
    exact ⟨heos, congrArg (Flow.onRaise · _) hresumed.symm⟩
  · refine exec_resumes_fed (fun u => by rw [exec, execRleDec]) hwait fun hr => ?_
    have hloop := Flow.onRaise_eq_wait (Flow.andThen_go_eq_wait hr)
    obtain ⟨heos, hresumed, -⟩ := (decodeLoop_continues (Nat.le_refl _)).of_wait hloop
    exact ⟨heos, congrArg (fun r : Flow => (r.onRaise _).andThen _) hresumed.symm⟩

end Sys2Proof.Machine
end

section
/-! PROOFS. A command that waits for the sink (spec 20_memory R53, R57, 70_reset R249, R251).

`State.answering` is a state whose sink answers `b` bytes more. A writer's body and the same body with the answers from the start
go the same way (`Flow.Resumes`), as the readers' do with more input: where the one waits, the other goes on as the wait does with
the answers given there. What the waiting OutWrite has left is in `pend`, which the loops send first when they are started
again. -/

namespace Sys2Proof.Machine

/-- The sink will answer `b` bytes more (R249). -/
def State.answering (b : Nat) (s : State) : State :=
  { s with out := { s.out with answers := s.out.answers.map (· + b) } }

/-- `r` is where a writer's body leads, and `r'` where it leads with the answers from the start: past the body to the same state,
of which `G` holds, with the answers given there; where `r` waits, the sink silent, as `Q` says. -/
def Flow.Resumes (b : Nat) (G : State → Prop) (Q : State → Flow → Prop) (r r' : Flow) : Prop :=
  match r with
  | .go t => G t ∧ r' = .go (t.answering b)
  | .wait t => t.out.answers = some 0 ∧ Q t r'
  | .raise _ _ => True
  | .unwritten _ => True

theorem Flow.Resumes.of_go {b : Nat} {G : State → Prop} {Q : State → Flow → Prop} {r r' : Flow} {t : State}
    (h : r.Resumes b G Q r') (hr : r = .go t) : G t := by
  subst hr
  exact h.1

theorem Flow.Resumes.of_wait {b : Nat} {G : State → Prop} {Q : State → Flow → Prop} {r r' : Flow} {t : State}
    (h : r.Resumes b G Q r') (hr : r = .wait t) : t.out.answers = some 0 ∧ Q t r' := by
  subst hr
  exact h

section
variable {b : Nat}

theorem Flow.Resumes.mono {G G' : State → Prop} {Q Q' : State → Flow → Prop} {r r' : Flow} (h : r.Resumes b G Q r')
    (hgo : ∀ t, G t → G' t) (hwait : ∀ t, Q t r' → Q' t r') : r.Resumes b G' Q' r' := by
  cases r with
  | go t => exact ⟨hgo t h.1, h.2⟩
  | wait t => exact ⟨h.1, hwait t h.2⟩
  | raise k t => trivial
  | unwritten a => trivial

theorem Flow.Resumes.andThen {G G' : State → Prop} {Q Q' : State → Flow → Prop} {r r' : Flow} {f : State → Flow}
    (h : r.Resumes b G Q r') (hgo : ∀ t, G t → (f t).Resumes b G' Q' (f (t.answering b)))
    (hwait : ∀ t, Q t r' → Q' t (r'.andThen f)) : (r.andThen f).Resumes b G' Q' (r'.andThen f) := by
  cases r with
  | go t =>
    obtain ⟨hg, rfl⟩ := h
    exact hgo t hg
  | wait t => exact ⟨h.1, hwait t h.2⟩
  | raise k t => trivial
  | unwritten a => trivial

/-! ## OutWrite -/

/-- An OutWrite sets what is pending where it ends, whatever was pending before. -/
theorem outWrite_pend (bs q : List Byte) (s : State) : outWrite bs { s with pend := q } = outWrite bs s := by
  induction bs generalizing s with
  | nil => rfl
  | cons x bs ih =>
    rw [outWrite, outWrite]
    exact ite_congr rfl (fun _ => rfl) fun _ => ite_congr rfl (fun _ => rfl) fun _ => ih (s.gaveByte x)

theorem answers_map_ne_zero {o : Option Nat} (h : o ≠ some 0) : o.map (· + b) ≠ some 0 := by
  cases o with
  | none => nofun
  | some a => simpa using fun ha : a = 0 => absurd (congrArg some ha) h

/-- A byte accepted and the answers given commute, as long as there was an answer to spend (R53). -/
theorem gaveByte_answering {s : State} (h : s.out.answers ≠ some 0) (x : Byte) :
    (s.answering b).gaveByte x = (s.gaveByte x).answering b := by
  have hanswers : (s.out.answers.map (· + b)).map (· - 1) = (s.out.answers.map (· - 1)).map (· + b) := by
    cases hs : s.out.answers with
    | none => rfl
    | some a =>
      have ha : a ≠ 0 := fun ha => h (hs.trans (congrArg some ha))
      simp
      omega
  simp only [State.answering, State.gaveByte, hanswers]

/-- An OutWrite that waits has bytes left, with which it goes on (R53, R249). -/
theorem outWrite_resumes (bs : List Byte) (s : State) :
    (outWrite bs s).Resumes b (fun t => t.x = s.x ∧ t.enc = s.enc ∧ t.pend = [])
      (fun t r' => t.x = s.x ∧ t.enc = s.enc ∧ t.pend ≠ [] ∧ r' = outWrite t.pend (t.answering b))
      (outWrite bs (s.answering b)) := by
  induction bs generalizing s with
  | nil => exact ⟨⟨rfl, rfl, rfl⟩, rfl⟩
  | cons x bs ih =>
    by_cases hsilent : s.out.answers = some 0
    · rw [show outWrite (x :: bs) s = .wait { s with pend := x :: bs } from if_pos hsilent]
      exact ⟨hsilent, rfl, rfl, List.cons_ne_nil x bs, (outWrite_pend (x :: bs) (x :: bs) (s.answering b)).symm⟩
    · have hanswered : (s.answering b).out.answers ≠ some 0 := answers_map_ne_zero hsilent
      rw [outWrite, if_neg hsilent, outWrite, if_neg hanswered]
      by_cases hfull : s.out.cap = some 0
      · rw [if_pos hfull]
        trivial
      · rw [if_neg hfull, if_neg (show ¬ (s.answering b).out.cap = some 0 from hfull), gaveByte_answering hsilent]
        exact ih (s.gaveByte x)

/-! ## RAW_WR -/

theorem sendPixel_pending {p : Nat} {s : State} (h : s.pend ≠ []) : sendPixel p s = outWrite s.pend s := if_neg h

theorem sendPixel_resumes (p : Nat) (s : State) :
    (sendPixel p s).Resumes b (fun t => t.x = s.x) (fun t r' => t.x = s.x ∧ r' = sendPixel p (t.answering b))
      (sendPixel p (s.answering b)) := by
  have hwrite (bs : List Byte) : (outWrite bs s).Resumes b (fun t => t.x = s.x)
      (fun t r' => t.x = s.x ∧ r' = sendPixel p (t.answering b)) (outWrite bs (s.answering b)) := by
    refine (outWrite_resumes bs s).mono (fun t ht => ht.1) fun t ⟨hx, _, hpend, hresumed⟩ => ⟨hx, ?_⟩
    rw [hresumed]
    exact (sendPixel_pending (s := t.answering b) hpend).symm
  by_cases hpend : s.pend = []
  · rw [sendPixel, if_pos hpend, sendPixel, if_pos (show (s.answering b).pend = [] from hpend)]
    rw [show (s.answering b).pix p (s.answering b).x = s.pix p s.x from rfl]
    cases s.pix p s.x with
    | error a => trivial
    | ok px => exact hwrite px
  · rw [sendPixel_pending hpend, sendPixel_pending (s := s.answering b) hpend]
    exact hwrite s.pend

/-- RAW_WR waits within its line, to go on there with the pixels left (R122). -/
theorem rawWrLoop_resumes {p w j : Nat} {s : State} (hj : j = w - s.x) :
    (rawWrLoop p j s).Resumes b (fun _ => True) (fun t r' => r' = rawWrLoop p (w - t.x) (t.answering b))
      (rawWrLoop p j (s.answering b)) := by
  induction j generalizing s with
  | zero => exact ⟨trivial, rfl⟩
  | succ j ih =>
    rw [rawWrLoop, rawWrLoop]
    refine (sendPixel_resumes p s).andThen (fun t hx => ?_) fun t ⟨hx, hresumed⟩ => ?_
    · refine ih (s := t.pixelSent) ?_
      rw [State.pixelSent_x, hx]
      omega
    · rw [hresumed, hx, ← hj]
      rfl

/-! ## RLE_ENC -/

/-- The encoder chooses its packet from LB and the latched BASE alone (R182). -/
theorem nextPacket_congr {s u : State} (hlb : u.lb = s.lb) (hline : u.lineBase = s.lineBase) (p w i : Nat) :
    nextPacket u p w i = nextPacket s p w i := by
  have hpix (j : Nat) : u.pix p j = s.pix p j := by rw [State.pix, State.pix, hlb, hline]
  have hequals (j : Nat) : equalsNext u p w j = equalsNext s p w j := by rw [equalsNext, equalsNext, hpix, hpix]
  have hsame (px : Pixel) (fuel n : Nat) : sameRun u p w i px fuel n = sameRun s p w i px fuel n := by
    induction fuel generalizing n with
    | zero => rfl
    | succ fuel ih => rw [sameRun, sameRun, hpix, ih]
  have hdiffer (fuel n : Nat) : differRun u p w i fuel n = differRun s p w i fuel n := by
    induction fuel generalizing n with
    | zero => rfl
    | succ fuel ih => rw [differRun, differRun, hequals, ih]
  rw [nextPacket, nextPacket, hequals, hpix, hdiffer, hlb, hline]
  simp only [hsame]

/-- Between two packets, or with one pending that has a pixel: each turn of the encode loop moves on (R33). -/
def State.EncoderMoves (s : State) : Prop := s.pend = [] ∨ 0 < s.enc.n

theorem sendPacket_pending {p w : Nat} {s : State} (h : s.pend ≠ []) : sendPacket p w s = outWrite s.pend s := if_neg h

/-- A turn of the encode loop sends a packet of at least one pixel, or waits with what is left of it pending (R182, R249). -/
theorem sendPacket_resumes {p w : Nat} {s : State} (hmoves : s.EncoderMoves) (hin : s.enc.i < w) :
    (sendPacket p w s).Resumes b (fun t => t.enc.i = s.enc.i ∧ 0 < t.enc.n ∧ t.pend = [])
      (fun t r' => t.enc.i = s.enc.i ∧ 0 < t.enc.n ∧ r' = sendPacket p w (t.answering b))
      (sendPacket p w (s.answering b)) := by
  have hwrite (bs : List Byte) {u : State} (hi : u.enc.i = s.enc.i) (hn : 0 < u.enc.n) :
      (outWrite bs u).Resumes b (fun t => t.enc.i = s.enc.i ∧ 0 < t.enc.n ∧ t.pend = [])
        (fun t r' => t.enc.i = s.enc.i ∧ 0 < t.enc.n ∧ r' = sendPacket p w (t.answering b))
        (outWrite bs (u.answering b)) := by
    refine (outWrite_resumes bs u).mono (fun t ⟨_, henc, hpend⟩ => ⟨henc ▸ hi, henc ▸ hn, hpend⟩)
      fun t ⟨_, henc, hpend, hresumed⟩ => ⟨henc ▸ hi, henc ▸ hn, ?_⟩
    rw [hresumed]
    exact (sendPacket_pending (s := t.answering b) hpend).symm
  by_cases hpend : s.pend = []
  · rw [sendPacket, if_pos hpend, sendPacket, if_pos (show (s.answering b).pend = [] from hpend)]
    rw [nextPacket_congr (s := s) (u := s.answering b) rfl rfl, show (s.answering b).enc = s.enc from rfl]
    cases hread : nextPacket s p w s.enc.i with
    | error a => trivial
    | ok packet =>
      obtain ⟨kind, n, bytes⟩ := packet
      obtain ⟨hone, -⟩ := nextPacket_bounds hread hin
      exact hwrite bytes (u := { s with enc := { s.enc with n := n, kind := kind } }) rfl hone
  · rw [sendPacket_pending hpend, sendPacket_pending (s := s.answering b) hpend]
    exact hwrite s.pend rfl (hmoves.resolve_left hpend)

theorem encodeLoop_turn {p w fuel : Nat} {s : State} (hin : s.enc.i < w) :
    encodeLoop p w (fuel + 1) s = (sendPacket p w s).andThen fun t => encodeLoop p w fuel t.packetSent := if_pos hin

theorem encodeLoop_done {p w : Nat} {s : State} (hin : w ≤ s.enc.i) (fuel : Nat) : encodeLoop p w fuel s = .go s := by
  cases fuel with
  | zero => rfl
  | succ fuel => exact if_neg (Nat.not_lt.mpr hin)

/-- Any fuel that covers the pixels left is enough. -/
theorem encodeLoop_fuel {p w f g : Nat} {s : State} (hmoves : s.EncoderMoves) (hf : w - s.enc.i ≤ f) (hg : w - s.enc.i ≤ g) :
    encodeLoop p w f s = encodeLoop p w g s := by
  by_cases hin : s.enc.i < w
  · induction f generalizing g s with
    | zero => omega
    | succ f ih =>
      obtain ⟨g, rfl⟩ : ∃ k, g = k + 1 := Nat.exists_eq_add_one.mpr (by omega)
      rw [encodeLoop_turn hin, encodeLoop_turn hin]
      refine Flow.andThen_congr fun t ht => ?_
      obtain ⟨hi, hn, hpend⟩ := (sendPacket_resumes (b := 0) hmoves hin).of_go ht
      have hnext : t.packetSent.enc.i = s.enc.i + t.enc.n := congrArg (· + t.enc.n) hi
      by_cases hleft : t.packetSent.enc.i < w
      · exact ih (.inl hpend) (by omega) (by omega) hleft
      · rw [encodeLoop_done (Nat.not_lt.mp hleft), encodeLoop_done (Nat.not_lt.mp hleft)]
  · rw [encodeLoop_done (Nat.not_lt.mp hin), encodeLoop_done (Nat.not_lt.mp hin)]

/-- RLE_ENC waits in a turn of its loop, to go on there with the rest of its loop (R182). -/
theorem encodeLoop_resumes {p w fuel : Nat} {s : State} (hmoves : s.EncoderMoves) (hfuel : w - s.enc.i ≤ fuel) :
    (encodeLoop p w fuel s).Resumes b (fun _ => True) (fun t r' => r' = encodeLoop p w (w - t.enc.i) (t.answering b))
      (encodeLoop p w fuel (s.answering b)) := by
  induction fuel generalizing s with
  | zero => exact ⟨trivial, rfl⟩
  | succ fuel ih =>
    by_cases hin : s.enc.i < w
    · rw [encodeLoop_turn hin, encodeLoop_turn (s := s.answering b) hin]
      refine (sendPacket_resumes hmoves hin).andThen (fun t ⟨hi, hn, hpend⟩ => ?_) fun t ⟨hi, hn, hresumed⟩ => ?_
      · refine ih (s := t.packetSent) (.inl hpend) ?_
        show w - (t.enc.i + t.enc.n) ≤ fuel
        omega
      · have htin : (t.answering b).enc.i < w := hi ▸ hin
        rw [hresumed, ← encodeLoop_turn htin]
        exact encodeLoop_fuel (s := t.answering b) (.inr hn) (show w - t.enc.i ≤ fuel + 1 by omega) (Nat.le_refl _)
    · rw [encodeLoop_done (Nat.not_lt.mp hin), encodeLoop_done (s := s.answering b) (Nat.not_lt.mp hin)]
      exact ⟨trivial, rfl⟩

end

/-! ## The commands -/

theorem State.answering_of_answers {s : State} {a : Nat} (h : s.out.answers = some a) (b : Nat) :
    s.answering b = { s with out := { s.out with answers := some (a + b) } } := by
  rw [State.answering, h]
  rfl

/-- A command that waited for the sink goes on, once it answers, as it would have gone with the answers from the start, if its
body does (R57, R249). -/
theorem exec_resumes_answering {i : Instr} {s t : State} {a b : Nat} {body : State → Flow}
    (hexec : ∀ u, exec i u = checked i u body) (hanswers : s.out.answers = some a)
    (hwait : exec i s = .fault (.portSilent t))
    (hbody : body s = .wait t → t.out.answers = some 0 ∧ body (s.answering b) = body (t.answering b)) :
    exec i { t with out := { t.out with answers := some b } } =
      exec i { s with out := { s.out with answers := some (a + b) } } := by
  have hpass : operandFault i t = operandFault i s := operandFault_of_reaches (.inr hwait)
  rw [hexec] at hwait
  rw [hexec, hexec]
  refine checked_resumes hwait rfl hpass fun hr => ?_
  obtain ⟨hsilent, hresumed⟩ := hbody hr
  rw [State.answering_of_answers hanswers, State.answering_of_answers hsilent, Nat.zero_add] at hresumed
  exact hresumed.symm

/-- LE16_PACK waits in its OutWrite, to go on with the bytes pending (R104). -/
theorem le16PackBody_resumes {b : Nat} {s : State} (field : List Byte) :
    (outWrite (if s.pend = [] then field else s.pend) s).Resumes b (fun _ => True)
      (fun t r' => r' = outWrite (if t.pend = [] then field else t.pend) (t.answering b))
      (outWrite (if s.pend = [] then field else s.pend) (s.answering b)) := by
  refine (outWrite_resumes _ s).mono (fun _ _ => trivial) fun t ⟨_, _, hpend, hresumed⟩ => ?_
  rw [hresumed, if_neg hpend]

/-- Settles O58: the loop of each writer, with the answers from the start, is where it waits the loop it is started again
with. -/
theorem outputWaitResumesExactly : Obligations.OutputWaitResumesExactly := by
  unfold Obligations.OutputWaitResumesExactly
  rintro i s t a b ⟨pb, n, hi⟩ hmoves hanswers hwait
  simp only [List.mem_cons, List.not_mem_nil, or_false] at hi
  obtain rfl | rfl | rfl := hi
  · refine exec_resumes_answering (fun u => by rw [exec, execLe16Pack]) hanswers hwait fun hr => ?_
    exact (le16PackBody_resumes _).of_wait hr
  · refine exec_resumes_answering (fun u => by rw [exec, execRawWr]) hanswers hwait fun hr => ?_
    exact (rawWrLoop_resumes rfl).of_wait hr
  · refine exec_resumes_answering (fun u => by rw [exec, execRleEnc]) hanswers hwait fun hr => ?_
    exact (encodeLoop_resumes hmoves (Nat.le_refl _)).of_wait hr

end Sys2Proof.Machine
end

section
/-! PROOFS. A silent port makes a command wait (spec 20_memory R52, R53, 70_reset R249, R251).

A loop of pixels on too few bytes and no EOS waits in the pixel that is cut, with every byte taken; RLE_DEC waits where it would
raise ReadFailure if EOS were there, so what `rle_decode` says of its end at EOS says where it waits. A writer's loop follows the
sink chunk by chunk up to the one it falls silent in. -/

namespace Sys2Proof.Machine

/-! ## Too few bytes on IN -/

/-- The command waits, with STATUS as it was in `s` and every byte of IN taken and counted since (R52, R249). -/
def Flow.WaitsForInput (s : State) (r : Flow) : Prop :=
  ∃ t, r = .wait t ∧ t.status = s.status ∧ t.incnt = s.incnt + BitVec.ofNat 32 s.inp.bytes.length

theorem inRead_waits {n : Nat} {s : State} (hpart : s.part = []) (heos : s.inp.eos = false) (hshort : s.inp.bytes.length < n)
    (f : List Byte → State → Flow) : (inRead n s f).WaitsForInput s := by
  rw [inRead_short hpart hshort]
  simp only [heos, Bool.false_eq_true, if_false]
  exact ⟨_, rfl, rfl, rfl⟩

/-- A loop that reads pixels of `p` bytes, one after another, and does with each what touches neither IN nor STATUS, waits where
IN has too few bytes for its `k` pixels. -/
theorem pixelLoop_waits {p k : Nat} {loop : Nat → State → Flow} {next : Pixel → State → State}
    (hloop : ∀ k s, loop (k + 1) s = inRead p s fun px t => loop k (next px t))
    (hnext : ∀ px t, (next px t).part = t.part ∧ (next px t).inp = t.inp ∧ (next px t).incnt = t.incnt ∧
      (next px t).status = t.status)
    {s : State} (hpart : s.part = []) (heos : s.inp.eos = false) (hshort : s.inp.bytes.length < k * p) :
    (loop k s).WaitsForInput s := by
  induction k generalizing s with
  | zero => omega
  | succ k ih =>
    rw [hloop]
    by_cases hle : p ≤ s.inp.bytes.length
    · rw [inRead_enough hpart hle]
      rw [Nat.succ_mul] at hshort
      generalize hu : ({ s with
        inp := { s.inp with bytes := s.inp.bytes.drop p }
        incnt := s.incnt + BitVec.ofNat 32 p
        part := [] } : State) = u
      obtain ⟨hupart, hinp, hincnt, hstatus⟩ := hnext (s.inp.bytes.take p) u
      subst hu
      have hleft : (s.inp.bytes.drop p).length = s.inp.bytes.length - p := List.length_drop
      obtain ⟨t, hwait, htstatus, hcount⟩ := ih hupart (hinp ▸ heos) (by rw [hinp, hleft]; omega)
      refine ⟨t, hwait, htstatus.trans hstatus, ?_⟩
      rw [hcount, hinp, hincnt, hleft, counter_add, Nat.add_sub_cancel' hle]
    · exact inRead_waits hpart heos (Nat.lt_of_not_le hle) _

theorem rawRdLoop_waits {p k : Nat} {s : State} (hpart : s.part = []) (heos : s.inp.eos = false)
    (hshort : s.inp.bytes.length < k * p) : (rawRdLoop p k s).WaitsForInput s :=
  pixelLoop_waits (next := State.storePixel p) (fun _ _ => rfl) (fun _ _ => ⟨rfl, rfl, rfl, rfl⟩) hpart heos hshort

theorem emitDirect_waits {p k : Nat} {s : State} (hpart : s.part = []) (heos : s.inp.eos = false)
    (hshort : s.inp.bytes.length < k * p) : (emitDirect p k s).WaitsForInput s :=
  pixelLoop_waits (next := fun px t => { t.storePixel p px with dir := t.dir - 1 }) (fun _ _ => rfl)
    (fun _ _ => ⟨rfl, rfl, rfl, rfl⟩) hpart heos hshort

/-- An instruction whose body waits for input has no next state, and waits as its body does (R249, R251). -/
theorem Flow.WaitsForInput.settle {s : State} {r : Flow} (h : r.WaitsForInput s) (p w : Nat) (last : State → State) :
    ∃ t, (r.onRaise (State.spoilLine p w)).settle last = .fault (.portSilent t) ∧ t.status = s.status ∧
      t.incnt = s.incnt + BitVec.ofNat 32 s.inp.bytes.length := by
  obtain ⟨t, rfl, hstatus, hcount⟩ := h
  exact ⟨t, rfl, hstatus, hcount⟩

theorem State.Fresh.incnt_add {s : State} (hs : s.Fresh) (k : Nat) : s.incnt + BitVec.ofNat 32 k = BitVec.ofNat 32 k := by
  rw [hs.incnt]
  exact BitVec.zero_add _

theorem State.Fresh.outcnt_add {s : State} (hs : s.Fresh) (k : Nat) : s.outcnt + BitVec.ofNat 32 k = BitVec.ofNat 32 k := by
  rw [hs.outcnt]
  exact BitVec.zero_add _

theorem exec_le16Unpack_waits {s : State} (hs : s.Fresh) (heos : s.inp.eos = false) (hshort : s.inp.bytes.length < 2) :
    ∃ t, exec (.le16Unpack 0 0) s = .fault (.portSilent t) ∧ t.status = s.status ∧
      t.incnt = BitVec.ofNat 32 s.inp.bytes.length := by
  obtain ⟨t, hwait, hstatus, hcount⟩ := inRead_waits hs.part heos hshort fun bs t => .go (storeResult bs t)
  refine ⟨t, ?_, hstatus, hcount.trans (hs.incnt_add _)⟩
  rw [exec_le16Unpack, hwait, Flow.wait_settle]

theorem exec_rawRd_waits {s : State} {pb : BitVec 3} {n : BitVec 24} (hs : s.Fresh) (heos : s.inp.eos = false)
    (hwf : (Instr.rawRd pb n).wf = true) (hfit : s.lat.base.toNat + n.toNat * pb.toNat ≤ s.cfg.lbSize)
    (hshort : s.inp.bytes.length < n.toNat * pb.toNat) :
    ∃ t, exec (.rawRd pb n) s = .fault (.portSilent t) ∧ t.status = s.status ∧
      t.incnt = BitVec.ofNat 32 s.inp.bytes.length := by
  rw [exec_rawRd hs hwf hfit, ← hs.incnt_add]
  exact (rawRdLoop_waits hs.part heos hshort).settle _ _ _

theorem exec_pktRepeat_waits {s : State} (hat : s.atHeader = true) (heos : s.inp.eos = false)
    (hshort : s.inp.bytes.length < s.lat.pb.toNat) (c : BitVec 7) :
    ∃ t, exec (.pktRepeat c) s = .fault (.portSilent t) ∧ t.status = s.status ∧
      t.incnt = s.incnt + BitVec.ofNat 32 s.inp.bytes.length := by
  obtain ⟨-, -, -, hpart⟩ := State.idle_of_atHeader hat
  have hrun : (emitRun s.lat.pb.toNat s.lat.n.toNat (s.openRepeat c)).WaitsForInput s := by
    rw [emitRun_repeat (s := s.openRepeat c) (Nat.succ_pos c.toNat)]
    exact inRead_waits (s := s.openRepeat c) hpart heos hshort _
  rw [exec_pktRepeat_atHeader hat]
  exact hrun.settle _ _ _

theorem exec_pktDirect_waits {s : State} {c : BitVec 7} (hat : s.atHeader = true) (heos : s.inp.eos = false)
    (hshort : s.inp.bytes.length < min (c.toNat + 1) (s.lat.n.toNat - s.x) * s.lat.pb.toNat) :
    ∃ t, exec (.pktDirect c) s = .fault (.portSilent t) ∧ t.status = s.status ∧
      t.incnt = s.incnt + BitVec.ofNat 32 s.inp.bytes.length := by
  obtain ⟨-, -, -, hpart⟩ := State.idle_of_atHeader hat
  have hrun : (emitRun s.lat.pb.toNat s.lat.n.toNat (s.openDirect c)).WaitsForInput s := by
    rw [emitRun_direct (s := s.openDirect c) rfl]
    exact emitDirect_waits (s := s.openDirect c) hpart heos hshort
  rw [exec_pktDirect_atHeader hat]
  exact hrun.settle _ _ _

/-! ## RLE_DEC -/

theorem State.Fresh.fed {s : State} (hs : s.Fresh) (more : List Byte) (e : Bool) : (s.fed more e).Fresh :=
  ⟨hs.status, hs.x, hs.rep, hs.dir, hs.enc, hs.part, hs.pend, hs.incnt, hs.outcnt, hs.pixcnt⟩

/-- Where `rle_decode` fails and no EOS is there, the loop waits with the bytes used taken and counted (R156, R161, R249). -/
theorem decodeLoop_waits {s : State} {p w used : Nat} {px : List Byte} (hs : s.Fresh) (hp : 0 < p)
    (heos : s.inp.eos = false) (hdecode : rleDecode p w s.inp.bytes = .readFailure px used) :
    ∃ t, decodeLoop p w w s = .wait t ∧ t.status = s.status ∧ t.incnt = BitVec.ofNat 32 used := by
  have hperforms := (hs.fed [] true).decodeLoop_performs hp w
  have hbytes : (s.fed [] true).inp.bytes = s.inp.bytes := List.append_nil _
  rw [hbytes, hdecode] at hperforms
  obtain ⟨rep, dir, sample, part, x, -, -, hraise⟩ := hperforms rfl
  have hcontinues := decodeLoop_continues (more := []) (e := true) (p := p) (Nat.sub_le w s.x)
  rw [heos] at hcontinues
  cases hloop : decodeLoop p w w s with
  | go t =>
    rw [hloop] at hcontinues
    cases hcontinues.2.symm.trans hraise
  | raise k t =>
    rw [hloop] at hcontinues
    cases hcontinues
  | unwritten a =>
    rw [hloop] at hcontinues
    cases hcontinues
  | wait t =>
    obtain ⟨-, -, hsilent⟩ := hcontinues.of_wait hloop
    have hfed := (hsilent rfl rfl).symm.trans hraise
    rw [Flow.raise.injEq] at hfed
    have hstatus := congrArg State.status hfed.2
    have hcount := congrArg State.incnt hfed.2
    exact ⟨t, rfl, hstatus, hcount⟩

theorem exec_rleDec_waits {s : State} {pb : BitVec 3} {n : BitVec 24} {px : List Byte} {used : Nat} (hs : s.Fresh)
    (heos : s.inp.eos = false) (hwf : (Instr.rleDec pb n).wf = true)
    (hfit : s.lat.base.toNat + n.toNat * pb.toNat ≤ s.cfg.lbSize)
    (hdecode : rleDecode pb.toNat n.toNat s.inp.bytes = .readFailure px used) :
    ∃ t, exec (.rleDec pb n) s = .fault (.portSilent t) ∧ t.status = s.status ∧ t.incnt = BitVec.ofNat 32 used := by
  obtain ⟨t, hwait, hstatus, hcount⟩ := decodeLoop_waits hs (one_le_of_rleDec_wf hwf) heos hdecode
  refine ⟨t, ?_, hstatus, hcount⟩
  rw [exec_rleDec hs hwf hfit, hwait, Flow.wait_onRaise, Flow.wait_settle]

/-! ## A sink that falls silent -/

/-- Of the next `k` bytes given to OUT, the first `a` are accepted, and then the sink is silent (R53, R249). -/
def OutPort.silentAfter (o : OutPort) (a k : Nat) : Prop :=
  o.answers = some a ∧ a < k ∧ ∀ c, o.cap = some c → a ≤ c

theorem OutPort.accepts_of_silentAfter {o : OutPort} {a k i : Nat} (h : o.silentAfter a k) (hi : i ≤ a) : o.accepts i := by
  obtain ⟨hanswers, -, hcap⟩ := h
  refine ⟨fun c hc => Nat.le_trans hi (hcap c hc), fun a' ha => ?_⟩
  rw [hanswers, Option.some.injEq] at ha
  exact ha ▸ hi

theorem OutPort.silentAfter_afterSending {o : OutPort} {a i j : Nat} {bs : List Byte} (h : o.silentAfter a (i + j))
    (hlen : bs.length = i) (hle : i ≤ a) : (o.afterSending bs).silentAfter (a - i) j := by
  obtain ⟨hanswers, hlt, hcap⟩ := h
  refine ⟨by simp [OutPort.afterSending, hanswers, hlen], by omega, fun d hd => ?_⟩
  obtain ⟨c, hc, rfl⟩ := Option.map_eq_some_iff.mp hd
  have := hcap c hc
  omega

/-- The command waits, with STATUS as it was in `s` and the bytes `given` accepted and counted since (R53, R249). -/
def Flow.WaitsForSink (s : State) (given : List Byte) (r : Flow) : Prop :=
  ∃ t, r = .wait t ∧ t.status = s.status ∧ t.outcnt = s.outcnt + BitVec.ofNat 32 given.length ∧
    t.out.sent = s.out.sent ++ given

theorem outWrite_waits {bs : List Byte} {s : State} {a : Nat} (h : s.out.silentAfter a bs.length) :
    (outWrite bs s).WaitsForSink s (bs.take a) := by
  obtain ⟨hanswers, hlt, hcap⟩ := h
  refine ⟨_, outWrite_silent hanswers hlt hcap, rfl, ?_, rfl⟩
  rw [List.length_take_of_le (Nat.le_of_lt hlt)]

/-- What is given after `u`, itself reached from `s` by giving `first`, is given after it. -/
theorem Flow.WaitsForSink.after {s u : State} {first rest : List Byte} {r : Flow} (h : r.WaitsForSink u rest)
    (hstatus : u.status = s.status) (hcount : u.outcnt = s.outcnt + BitVec.ofNat 32 first.length)
    (hsent : u.out.sent = s.out.sent ++ first) : r.WaitsForSink s (first ++ rest) := by
  obtain ⟨t, hwait, htstatus, htcount, htsent⟩ := h
  refine ⟨t, hwait, htstatus.trans hstatus, ?_, ?_⟩
  · rw [htcount, hcount, counter_add, List.length_append]
  · rw [htsent, hsent, List.append_assoc]

theorem Flow.WaitsForSink.andThen {s : State} {given : List Byte} {r : Flow} (h : r.WaitsForSink s given)
    (f : State → Flow) : (r.andThen f).WaitsForSink s given := by
  obtain ⟨t, rfl, hrest⟩ := h
  exact ⟨t, rfl, hrest⟩

theorem rawWrLoop_waits {p k a : Nat} {s : State} {bs : List Byte} (hpend : s.pend = [])
    (hread : lbRead s.lb (s.lineBase + s.x * p) (k * p) = .ok bs) (hout : s.out.silentAfter a (k * p)) :
    (rawWrLoop p k s).WaitsForSink s (bs.take a) := by
  induction k generalizing s bs a with
  | zero => exact absurd hout.2.1 (by omega)
  | succ k ih =>
    rw [Nat.succ_mul, Nat.add_comm (k * p) p] at hread hout
    obtain ⟨hpixel, hrest⟩ := lbRead_split hread
    have hlen := length_of_lbRead hpixel
    by_cases ha : a < p
    · have hcut := outWrite_waits (s := s) (bs := bs.take p) ⟨hout.1, hlen.symm ▸ ha, hout.2.2⟩
      rw [List.take_take, Nat.min_eq_left (Nat.le_of_lt ha)] at hcut
      rw [rawWrLoop, sendPixel_of_read hpend hpixel]
      exact hcut.andThen _
    · have hle : p ≤ a := Nat.not_lt.mp ha
      rw [← State.sendWhole_address (bs.take p)] at hrest
      have hgiven : bs.take a = bs.take p ++ (bs.drop p).take (a - p) := by rw [← List.take_add, Nat.add_sub_cancel' hle]
      rw [rawWrLoop_sendWhole hpend hpixel (OutPort.accepts_of_silentAfter hout hle), hgiven]
      exact (ih rfl hrest (OutPort.silentAfter_afterSending hout hlen hle)).after rfl rfl rfl

theorem sendPackets_waits {s : State} {packets : List (RunKind × List Pixel)} {a : Nat}
    (hout : s.out.silentAfter a (packets.flatMap streamBytes).length) :
    (sendPackets packets s).WaitsForSink s ((packets.flatMap streamBytes).take a) := by
  induction packets generalizing s a with
  | nil => exact absurd hout.2.1 (Nat.not_lt_zero a)
  | cons k packets ih =>
    rw [List.flatMap_cons, List.length_append] at hout
    rw [List.flatMap_cons]
    by_cases ha : a < (streamBytes k).length
    · have hcut := outWrite_waits (s := s.choosing k) ⟨hout.1, ha, hout.2.2⟩
      rw [List.take_append_of_le_length (Nat.le_of_lt ha)]
      exact hcut.andThen _
    · have hle : (streamBytes k).length ≤ a := Nat.not_lt.mp ha
      rw [sendPackets_sentPacket (OutPort.accepts_of_silentAfter hout hle), List.take_append, List.take_of_length_le hle]
      exact (ih (OutPort.silentAfter_afterSending hout rfl hle)).after rfl rfl rfl

/-- An instruction whose body waits for the sink has no next state, and waits as its body does (R249, R251). -/
theorem Flow.WaitsForSink.settle {s : State} {bs : List Byte} {a : Nat} {r : Flow} (h : r.WaitsForSink s (bs.take a))
    (hs : s.Fresh) (ha : a < bs.length) (last : State → State) :
    ∃ t, r.settle last = .fault (.portSilent t) ∧ t.status = s.status ∧ t.outcnt = BitVec.ofNat 32 a ∧
      t.out.sent = s.out.sent ++ bs.take a := by
  obtain ⟨t, rfl, hstatus, hcount, hsent⟩ := h
  refine ⟨t, rfl, hstatus, ?_, hsent⟩
  rw [hcount, hs.outcnt_add, List.length_take_of_le (Nat.le_of_lt ha)]

theorem exec_le16Pack_waits {s : State} {pb : BitVec 3} {n : BitVec 24} {a : Nat} (hs : s.Fresh)
    (hwf : (Instr.le16Pack pb n).wf = true) (hout : s.out.silentAfter a 2) :
    ∃ t, exec (.le16Pack pb n) s = .fault (.portSilent t) ∧ t.status = s.status ∧ t.outcnt = BitVec.ofNat 32 a := by
  rw [exec, execLe16Pack, checked_of_wf _ hwf nofun, if_pos hs.pend]
  obtain ⟨t, hwait, hstatus, hcount, -⟩ :=
    (outWrite_waits (bs := le16Pack (n.extractLsb' 0 16)) hout).settle hs hout.2.1 State.finish
  exact ⟨t, hwait, hstatus, hcount⟩

theorem exec_rawWr_waits {s : State} {pb : BitVec 3} {n : BitVec 24} {a : Nat} {bs : List Byte} (hs : s.Fresh)
    (hwf : (Instr.rawWr pb n).wf = true) (hfit : s.lat.base.toNat + n.toNat * pb.toNat ≤ s.cfg.lbSize)
    (hread : lbRead s.lb s.lat.base.toNat (n.toNat * pb.toNat) = .ok bs) (hout : s.out.silentAfter a (n.toNat * pb.toNat)) :
    ∃ t, exec (.rawWr pb n) s = .fault (.portSilent t) ∧ t.status = s.status ∧ t.outcnt = BitVec.ofNat 32 a := by
  have hlen := length_of_lbRead hread
  rw [← hs.lineStart pb.toNat] at hread
  rw [exec_rawWr hs hwf hfit]
  obtain ⟨t, hwait, hstatus, hcount, -⟩ :=
    (rawWrLoop_waits hs.pend hread hout).settle hs (hlen.symm ▸ hout.2.1) State.finish
  exact ⟨t, hwait, hstatus, hcount⟩

theorem exec_rleEnc_waits {s : State} {pb : BitVec 3} {n : BitVec 24} {a : Nat} {row : List Pixel} (hs : s.Fresh)
    (hwf : (Instr.rleEnc pb n).wf = true) (hfit : s.lat.base.toNat + n.toNat * pb.toNat ≤ s.cfg.lbSize)
    (hn : row.length = n.toNat) (hrow : s.HoldsRow pb.toNat row) (hout : s.out.silentAfter a (rleEncode row).length) :
    ∃ t, exec (.rleEnc pb n) s = .fault (.portSilent t) ∧ t.status = s.status ∧ t.outcnt = BitVec.ofNat 32 a ∧
      t.out.sent = s.out.sent ++ (rleEncode row).take a := by
  rw [exec_rleEnc_row hs hwf hfit hn hrow]
  exact (sendPackets_waits hout).settle hs hout.2.1 State.finish

/-- Settles O56: each reader and packet waits in the InRead its bytes end in, and each writer in the OutWrite the sink falls
silent in. -/
theorem silentPortMakesCommandWait : Obligations.SilentPortMakesCommandWait := by
  unfold Obligations.SilentPortMakesCommandWait
  refine fun s pb n => ⟨fun hs heos hshort => exec_le16Unpack_waits hs heos hshort,
    fun hs heos hwf hfit hshort => exec_rawRd_waits hs heos hwf hfit hshort,
    fun px used hs heos hwf hfit hdecode => exec_rleDec_waits hs heos hwf hfit hdecode,
    fun c hat heos => ⟨fun hshort => exec_pktRepeat_waits hat heos hshort c, exec_pktDirect_waits hat heos⟩,
    fun a hs hanswers hcap => ⟨fun hwf ha => ?pack, fun bs hwf hfit hread ha => ?rawWr,
      fun row hwf hfit hn hpixels hstored ha => ?rleEnc⟩⟩
  case pack => exact exec_le16Pack_waits hs hwf ⟨hanswers, ha, hcap⟩
  case rawWr => exact exec_rawWr_waits hs hwf hfit hread ⟨hanswers, ha, hcap⟩
  case rleEnc => exact exec_rleEnc_waits hs hwf hfit hn ⟨hpixels, hn ▸ hstored⟩ ⟨hanswers, ha, hcap⟩

end Sys2Proof.Machine
end
